-- ==== Sys2Proof/Word.lean ====
section
/-! DEFINITION. The words of the Montgomery multiplier block: digit-memory words, command words and the
fields of a command word (spec 00_scope.md R6, R12; 30_encoding.md R101). -/

namespace Sys2Proof

/-- A 64-bit word of the digit memory or of a register: a 52-bit digit and 12 bits of carry headroom (R6). -/
abbrev Word := BitVec 64

/-- One byte of the host's window (R77). -/
abbrev Byte := BitVec 8

/-- A 128-bit command word, `CMD_HI:CMD_LO` (R100). -/
abbrev CmdWord := BitVec 128

/-- A 16-bit row number of the digit memory (R105). -/
abbrev Row := BitVec 16

/-- An 8-bit digit count, the LX or LM field (R104). -/
abbrev Len := BitVec 8

/-- The 3-bit size code SZ (R102). -/
abbrev SizeCode := BitVec 3

/-- The 6-bit shift amount SH (R103). -/
abbrev Shift := BitVec 6

/-- A lane mask: bit `l` stands for lane `l`; eight bits hold the masks of both lane counts (R41). -/
abbrev LaneMask := BitVec 8

end Sys2Proof
end

