-- ==== Sys2Proof/Syntax.lean ====
section
/-! DEFINITION. The 17 commands of the block (spec 00_scope.md R3, 30_encoding.md R106, R108), one constructor per row
of spec/opcode_table.json, with the fields each one uses, in the assembler's operand order (R112). -/

namespace Sys2Proof

/-- A command with its operand fields. Every value of every used field is a term: the fields the mask of R108 leaves
free are range-checked when the command runs (R262), not when it is read. -/
inductive Instr where
  | norm       (rd ra : Row) (lx : Len)
  | normclr    (rd ra : Row) (lx : Len)
  | normsqr    (sz : SizeCode) (rd ra : Row)
  | normtop    (sz : SizeCode) (rd ra : Row)
  | shl        (rd ra : Row) (lx : Len) (sh : Shift)
  | shr        (rd ra : Row) (lx : Len) (sh : Shift)
  | zero       (rd : Row) (lx : Len)
  | copy       (rd ra : Row) (lx : Len)
  | cmpge      (rd ra rb : Row) (lx : Len)
  | addmul     (sz : SizeCode) (rd ra rb : Row)
  | amred      (sz : SizeCode) (rd ra rb rc : Row)
  | ams        (sz : SizeCode) (rd ra rb rc : Row)
  | modsub     (sz : SizeCode) (rd ra rb rc : Row)
  | estq       (rd ra rb : Row)
  | mreduce    (rd ra : Row) (lx lm : Len)
  | montfactor (rd ra : Row)
  | montrr     (sz : SizeCode) (rd ra : Row)
deriving DecidableEq, Repr

/-- The opcodes of R108, by name. -/
inductive Opcode where
  | norm | normclr | normsqr | normtop | shl | shr | zero | copy | cmpge
  | addmul | amred | ams | modsub | estq | mreduce | montfactor | montrr
deriving DecidableEq, Repr

/-- The opcode of a command. -/
def Instr.opcode : Instr → Opcode
  | .norm _ _ _ => .norm
  | .normclr _ _ _ => .normclr
  | .normsqr _ _ _ => .normsqr
  | .normtop _ _ _ => .normtop
  | .shl _ _ _ _ => .shl
  | .shr _ _ _ _ => .shr
  | .zero _ _ => .zero
  | .copy _ _ _ => .copy
  | .cmpge _ _ _ _ => .cmpge
  | .addmul _ _ _ _ => .addmul
  | .amred _ _ _ _ _ => .amred
  | .ams _ _ _ _ _ => .ams
  | .modsub _ _ _ _ _ => .modsub
  | .estq _ _ _ => .estq
  | .mreduce _ _ _ _ => .mreduce
  | .montfactor _ _ => .montfactor
  | .montrr _ _ _ => .montrr

/-- The operand widths W the block supports (R8). -/
inductive Width where
  | w512 | w1024 | w1536 | w2048 | w3072 | w4096
deriving DecidableEq, Repr

/-- The command errors of R261, other than "none". -/
inductive CmdError where
  | illegalOpcode
  | reservedField
  | size
  | length
  | shift
  | address
deriving DecidableEq, Repr

end Sys2Proof
end

