-- ==== Sys2Proof/Decode.lean ====
section
/-! DEFINITION. The decoder of a 128-bit command word and the encoder (spec 30_encoding.md R100 to R111).
Decoding is total: every word is one command, or is rejected as ILLEGAL_OPCODE or RESERVED_FIELD, in that order
(60_exceptions.md R262). The ranges of SZ, LX, LM, SH and the rows are not part of it: a word IS a command when
`(w AND mask) = match`, and "the used fields are free" (R108). -/

namespace Sys2Proof

/-- The fields of the command word (R101). -/
structure Fields where
  opc : BitVec 8 := 0#8
  sz  : SizeCode := 0#3
  sh  : Shift := 0#6
  lx  : Len := 0#8
  lm  : Len := 0#8
  rd  : Row := 0#16
  ra  : Row := 0#16
  rb  : Row := 0#16
  rc  : Row := 0#16
deriving DecidableEq, Repr

/-- The fields of `w`, at the bit positions of R101. -/
def Fields.ofWord (w : CmdWord) : Fields :=
  { opc := w.extractLsb' 0 8
    sz  := w.extractLsb' 8 3
    sh  := w.extractLsb' 16 6
    lx  := w.extractLsb' 32 8
    lm  := w.extractLsb' 40 8
    rd  := w.extractLsb' 64 16
    ra  := w.extractLsb' 80 16
    rb  := w.extractLsb' 96 16
    rc  := w.extractLsb' 112 16 }

/-- The word with these fields and every reserved bit 0: the bit layout of R101, most significant field first. -/
def Fields.toWord (f : Fields) : CmdWord :=
  f.rc ++ f.rb ++ f.ra ++ f.rd ++ 0#16 ++ f.lm ++ f.lx ++ 0#10 ++ f.sh ++ 0#5 ++ f.sz ++ f.opc

/-- The reserved bits [15:11], [31:22] and [63:48] are all 0 (R107). -/
def reservedZero (w : CmdWord) : Bool :=
  w.extractLsb' 11 5 == 0#5 && w.extractLsb' 22 10 == 0#10 && w.extractLsb' 48 16 == 0#16

/-- The opcode numbers of R108. -/
def Opcode.code : Opcode → BitVec 8
  | .norm => 0x10#8
  | .normclr => 0x11#8
  | .normsqr => 0x12#8
  | .normtop => 0x13#8
  | .shl => 0x14#8
  | .shr => 0x15#8
  | .zero => 0x18#8
  | .copy => 0x19#8
  | .cmpge => 0x1A#8
  | .addmul => 0x01#8
  | .amred => 0x02#8
  | .ams => 0x03#8
  | .modsub => 0x04#8
  | .estq => 0x08#8
  | .mreduce => 0x09#8
  | .montfactor => 0x0C#8
  | .montrr => 0x0D#8

/-- The opcode of a number; every other number is unassigned (R109). -/
def Opcode.ofCode (n : BitVec 8) : Option Opcode :=
  match n.toNat with
  | 0x10 => some .norm
  | 0x11 => some .normclr
  | 0x12 => some .normsqr
  | 0x13 => some .normtop
  | 0x14 => some .shl
  | 0x15 => some .shr
  | 0x18 => some .zero
  | 0x19 => some .copy
  | 0x1A => some .cmpge
  | 0x01 => some .addmul
  | 0x02 => some .amred
  | 0x03 => some .ams
  | 0x04 => some .modsub
  | 0x08 => some .estq
  | 0x09 => some .mreduce
  | 0x0C => some .montfactor
  | 0x0D => some .montrr
  | _ => none

/-- Every field the opcode does not use is 0 (R106, column "fields used"; R107). -/
def Fields.unusedZero (f : Fields) : Opcode → Bool
  | .norm | .normclr | .copy =>
      f.sz == 0#3 && f.sh == 0#6 && f.lm == 0#8 && f.rb == 0#16 && f.rc == 0#16
  | .normsqr | .normtop | .montrr =>
      f.sh == 0#6 && f.lx == 0#8 && f.lm == 0#8 && f.rb == 0#16 && f.rc == 0#16
  | .shl | .shr =>
      f.sz == 0#3 && f.lm == 0#8 && f.rb == 0#16 && f.rc == 0#16
  | .zero =>
      f.sz == 0#3 && f.sh == 0#6 && f.lm == 0#8 && f.ra == 0#16 && f.rb == 0#16 && f.rc == 0#16
  | .cmpge =>
      f.sz == 0#3 && f.sh == 0#6 && f.lm == 0#8 && f.rc == 0#16
  | .addmul =>
      f.sh == 0#6 && f.lx == 0#8 && f.lm == 0#8 && f.rc == 0#16
  | .amred | .ams | .modsub =>
      f.sh == 0#6 && f.lx == 0#8 && f.lm == 0#8
  | .estq =>
      f.sz == 0#3 && f.sh == 0#6 && f.lx == 0#8 && f.lm == 0#8 && f.rc == 0#16
  | .mreduce =>
      f.sz == 0#3 && f.sh == 0#6 && f.rb == 0#16 && f.rc == 0#16
  | .montfactor =>
      f.sz == 0#3 && f.sh == 0#6 && f.lx == 0#8 && f.lm == 0#8 && f.rb == 0#16 && f.rc == 0#16

/-- The command of an opcode, with the fields it uses (R106). -/
def Opcode.build (op : Opcode) (f : Fields) : Instr :=
  match op with
  | .norm => .norm f.rd f.ra f.lx
  | .normclr => .normclr f.rd f.ra f.lx
  | .normsqr => .normsqr f.sz f.rd f.ra
  | .normtop => .normtop f.sz f.rd f.ra
  | .shl => .shl f.rd f.ra f.lx f.sh
  | .shr => .shr f.rd f.ra f.lx f.sh
  | .zero => .zero f.rd f.lx
  | .copy => .copy f.rd f.ra f.lx
  | .cmpge => .cmpge f.rd f.ra f.rb f.lx
  | .addmul => .addmul f.sz f.rd f.ra f.rb
  | .amred => .amred f.sz f.rd f.ra f.rb f.rc
  | .ams => .ams f.sz f.rd f.ra f.rb f.rc
  | .modsub => .modsub f.sz f.rd f.ra f.rb f.rc
  | .estq => .estq f.rd f.ra f.rb
  | .mreduce => .mreduce f.rd f.ra f.lx f.lm
  | .montfactor => .montfactor f.rd f.ra
  | .montrr => .montrr f.sz f.rd f.ra

/-- The command a word encodes, or the first of the two errors of R262 that reading it meets. -/
def decode (w : CmdWord) : Except CmdError Instr :=
  match Opcode.ofCode (Fields.ofWord w).opc with
  | none => .error .illegalOpcode
  | some op =>
    if reservedZero w && (Fields.ofWord w).unusedZero op then .ok (op.build (Fields.ofWord w))
    else .error .reservedField

/-- The fields of a command: those it uses, with 0 in the others (R106, R107). -/
def Instr.fields : Instr → Fields
  | .norm rd ra lx => { opc := Opcode.code .norm, lx, rd, ra }
  | .normclr rd ra lx => { opc := Opcode.code .normclr, lx, rd, ra }
  | .normsqr sz rd ra => { opc := Opcode.code .normsqr, sz, rd, ra }
  | .normtop sz rd ra => { opc := Opcode.code .normtop, sz, rd, ra }
  | .shl rd ra lx sh => { opc := Opcode.code .shl, sh, lx, rd, ra }
  | .shr rd ra lx sh => { opc := Opcode.code .shr, sh, lx, rd, ra }
  | .zero rd lx => { opc := Opcode.code .zero, lx, rd }
  | .copy rd ra lx => { opc := Opcode.code .copy, lx, rd, ra }
  | .cmpge rd ra rb lx => { opc := Opcode.code .cmpge, lx, rd, ra, rb }
  | .addmul sz rd ra rb => { opc := Opcode.code .addmul, sz, rd, ra, rb }
  | .amred sz rd ra rb rc => { opc := Opcode.code .amred, sz, rd, ra, rb, rc }
  | .ams sz rd ra rb rc => { opc := Opcode.code .ams, sz, rd, ra, rb, rc }
  | .modsub sz rd ra rb rc => { opc := Opcode.code .modsub, sz, rd, ra, rb, rc }
  | .estq rd ra rb => { opc := Opcode.code .estq, rd, ra, rb }
  | .mreduce rd ra lx lm => { opc := Opcode.code .mreduce, lx, lm, rd, ra }
  | .montfactor rd ra => { opc := Opcode.code .montfactor, rd, ra }
  | .montrr sz rd ra => { opc := Opcode.code .montrr, sz, rd, ra }

/-- The command word of a command. -/
def encode (i : Instr) : CmdWord := i.fields.toWord

/-- The two 64-bit words in which the host writes a command: CMD_LO, then CMD_HI (R100). -/
def encodeWords (i : Instr) : List Word :=
  [(encode i).extractLsb' 0 64, (encode i).extractLsb' 64 64]

/-- The command word of a row of spec/opcode_table.json: `nbits` bits of `w`, bit 0 the least significant bit of CMD_LO,
every bit above them 0. -/
def tableWord (nbits w : Nat) : CmdWord := BitVec.ofNat 128 (w % 2 ^ nbits)

/-- The command the decoder reads from a table row's word. -/
def decodeTableWord (nbits w : Nat) : Option Instr :=
  match decode (tableWord nbits w) with
  | .ok i => some i
  | .error _ => none

end Sys2Proof
end

