-- ==== Sys2Proof/Config.lean ====
section
/-! DEFINITION. The parameters an implementation of the block fixes: LANES, DM_ROWS and P_BASE
(spec 00_scope.md R7, R10; 92_eei_decisions.md D2, D3, D32).
They are plain data, so that every statement about every state is a statement about every configuration.
The spec leaves no other value to an implementation, and its `⊥` words are data of the digit memory, so the
model has no free value. -/

namespace Sys2Proof

/-- `LANES` is 4 or 8 (R7). -/
inductive LaneCount where
  | four
  | eight
deriving DecidableEq, Repr

/-- The number of lanes. -/
def LaneCount.toNat : LaneCount → Nat
  | .four => 4
  | .eight => 8

/-- One configuration of the block. `rowsM1` is the ID register's field ROWS_M1 = DM_ROWS − 1 (R38), so that every
value of the field is a legal `1 ≤ DM_ROWS ≤ 65536` (R10). -/
structure Config where
  laneCount : LaneCount
  rowsM1    : BitVec 16
  pBase     : Nat
deriving DecidableEq, Repr

/-- `LANES`. -/
def Config.lanes (c : Config) : Nat := c.laneCount.toNat

/-- `DM_ROWS`. -/
def Config.rows (c : Config) : Nat := c.rowsM1.toNat + 1

/-- The configuration of `State.reset`: LANES = 4 and DM_ROWS = 256, those of the spec's own vectors
(95_test_vectors.md, Conventions), with the window at address 0.
DESIGN CHOICE (assumption log 1): the spec fixes no default. -/
def Config.reference : Config := { laneCount := .four, rowsM1 := 255#16, pBase := 0 }

end Sys2Proof
end

