-- ==== Sys2Proof/Machine/State.lean ====
section
/-! DEFINITION. The state of the block (spec 10_state.md R31), its value after a power-on reset (R53), and the reasons
a step can stop. Beside the spec's state it holds the configuration, the platform's inputs not yet taken, and the
order in which host and core move: plain data, so that a statement about every state is one about every configuration,
every host and every interleaving. -/

namespace Sys2Proof.Machine

/-- The digit memory: byte `k` of the word of row `r`, lane `l` stands at its offset in the block's window,
`0x100000 + 8·(LANES·r + l) + k` (R75, R77). A list of (offset, byte) pairs with offsets strictly rising; a byte that is
not listed has no value, and a word without its bytes is the spec's `⊥` (R13, R32). -/
abbrev Memory := List Host.Cell

/-- The reasons of the UB catalogue (60_exceptions.md R265). -/
inductive UBReason where
  | uninit
  | nonnorm
  | range
  | k0
  | evenModulus
  | topDigit
  | divisor
deriving DecidableEq, Repr

/-- The reasons of the host faults (R266). -/
inductive HostReason where
  | access
  | race
  | uninit
deriving DecidableEq, Repr

/-- What a host access asks for: a read, or a write of a value. -/
inductive AccessKind where
  | read
  | write (v : Word)
deriving DecidableEq, Repr

/-- One access of the host's bus: an address, a size in bytes and what it asks for (R75, R76). -/
structure Access where
  addr : Nat
  size : Nat
  kind : AccessKind
deriving DecidableEq, Repr

/-- One entry of the model-only record FAULT (R48): what a command's lane met, with the command word and the lane, or
what a host access broke, with the access. -/
inductive FaultEntry where
  | command (reason : UBReason) (cmd : CmdWord) (lane : Nat)
  | host (reason : HostReason) (access : Access)
deriving DecidableEq, Repr

/-- The pair `(cmd, mask)` that GO latches (R46). -/
structure Latch where
  cmd  : CmdWord
  mask : LaneMask
deriving DecidableEq, Repr

/-- What the platform does to the block: a bus access of the host, or its reset input, asserted in the course of a run
(70_reset_and_hazards.md R300, R311). -/
inductive Input where
  | access (a : Access)
  | powerOn
deriving DecidableEq, Repr

/-- The two agents that take steps (R30). -/
inductive Agent where
  | host
  | core
deriving DecidableEq, Repr

/-- The state of the block and its surroundings. -/
structure State where
  /-- The configuration; no step writes it. -/
  cfg      : Config
  /-- The digit memory DM (R32). -/
  dm       : Memory
  /-- CTRL.IE (R39). -/
  ie       : Bool
  /-- STATUS.BUSY (R40). -/
  busy     : Bool
  /-- STATUS.DONE (R40). -/
  done     : Bool
  /-- STATUS.ERR (R40). -/
  err      : Bool
  /-- STATUS.OVR (R40). -/
  ovr      : Bool
  /-- STATUS.ERRCODE (R40). -/
  errCode  : BitVec 8
  /-- LANEMASK.MASK (R41). -/
  laneMask : LaneMask
  /-- CMD_LO (R42). -/
  cmdLo    : Word
  /-- CMD_HI (R42). -/
  cmdHi    : Word
  /-- LATCH (R46). -/
  latch    : Option Latch
  /-- FAULT (R48), each entry once. -/
  faults   : List FaultEntry
  /-- The model's own: the entries FAULT held each time the reset input emptied it, each once. R48 has FAULT "never cleared by
  any step or reset" and R300 has the reset input leave "FAULT empty": FAULT is emptied, and no entry of the run is lost
  (assumption log 7). -/
  earlierFaults : List FaultEntry
  /-- The model's own: the inputs not yet taken, first one first. -/
  inputs   : List Input
  /-- The model's own: which agent goes first each time both can move (R271). -/
  turns    : List Agent
  /-- The model's own: what the host's reads have returned, oldest first; `none` for a faulting read (R266). -/
  replies  : List (Option Word)
deriving DecidableEq, Repr

/-- Why a step stops the machine. -/
inductive Fault where
  /-- The core's step finds BUSY = 1 and LATCH empty. Raised by the core's step and by every command's meaning. Safe:
  R50 and R52 fill and empty the two together, so no run reaches it (the step invariant of the model). -/
  | latchEmpty
  /-- A host access at an address outside the block's window of 5 MiB (R75). Raised by the host's step. Safe: the
  spec gives the block no such address. -/
  | outsideWindow
deriving DecidableEq, Repr

/-- Why an instruction has no meaning. -/
inductive Refusal where
  /-- The instruction is not modelled. Raised by an arm of `exec` only; no arm raises it. Safe. -/
  | notModelled (mnemonic : String)
deriving DecidableEq, Repr

/-- LANEMASK's reset value, `2^LANES − 1` (R41, R53). -/
def allLanes (c : Config) : LaneMask := BitVec.ofNat 8 (2 ^ c.lanes - 1)

/-- The state after a power-on reset of a block of configuration `c` (R53, R300), with no input waiting. -/
def State.resetWith (c : Config) : State :=
  { cfg := c, dm := [], ie := false, busy := false, done := false, err := false, ovr := false,
    errCode := 0#8, laneMask := allLanes c, cmdLo := 0#64, cmdHi := 0#64, latch := none, faults := [],
    earlierFaults := [], inputs := [], turns := [], replies := [] }

/-- The machine right after reset, for the reference configuration. -/
def State.reset : State := State.resetWith Config.reference

end Sys2Proof.Machine
end

