-- ==== Sys2Proof/Machine/Flags.lean ====
section
/-! DEFINITION. The status bits and the values the registers read as. The block has no arithmetic flags (spec
10_state.md R45): its only status bits are those of STATUS, and no command writes one as a side effect of its
arithmetic. -/

namespace Sys2Proof

/-- The ERRCODE of a command error (60_exceptions.md R261). -/
def CmdError.code : CmdError → BitVec 8
  | .illegalOpcode => 1#8
  | .reservedField => 2#8
  | .size => 3#8
  | .length => 4#8
  | .shift => 5#8
  | .address => 6#8

namespace Machine

/-- One bit as a word. -/
def bit (b : Bool) : Word := if b then 1#64 else 0#64

/-- The value of a read of STATUS: BUSY [0], DONE [1], ERR [2], OVR [3], ERRCODE [15:8] (R40). -/
def statusWord (s : State) : Word :=
  bit s.busy ||| (bit s.done <<< 1) ||| (bit s.err <<< 2) ||| (bit s.ovr <<< 3) ||| (s.errCode.setWidth 64 <<< 8)

/-- The value of a read of CTRL: `zext_64(IE << 1)` (R39). -/
def ctrlWord (s : State) : Word := bit s.ie <<< 1

/-- The value of the ID register: MAGIC, ROWS_M1, LANES, VERSION (R38). -/
def idWord (c : Config) : Word :=
  0x32354D4D#32 ++ c.rowsM1 ++ BitVec.ofNat 8 c.lanes ++ 0x01#8

/-- The interrupt output, `IRQ = CTRL.IE ∧ STATUS.DONE` (60_exceptions.md R267). -/
def irq (s : State) : Bool := s.ie && s.done

end Machine

/-- A write of `v` to STATUS clears DONE, ERR with ERRCODE, and OVR where bits 1, 2 and 3 are 1 (R51). -/
def Machine.State.writeStatus (s : Machine.State) (v : Word) : Machine.State :=
  { s with
    done := s.done && !v.getLsbD 1
    err := s.err && !v.getLsbD 2
    errCode := if v.getLsbD 2 then 0#8 else s.errCode
    ovr := s.ovr && !v.getLsbD 3 }

end Sys2Proof
end

