-- ==== Sys2Proof/Machine/Operands.lean ====
section
/-! DEFINITION. Operand forms: the size codes, the numbers digit arrays stand for, and the operand regions and field
checks of every command (spec 00_scope.md R8, R14; 30_encoding.md R102 to R106; 60_exceptions.md R262). -/

namespace Sys2Proof

/-- The width W in bits (R8). -/
def Width.bits : Width → Nat
  | .w512 => 512
  | .w1024 => 1024
  | .w1536 => 1536
  | .w2048 => 2048
  | .w3072 => 3072
  | .w4096 => 4096

/-- The digit count n(W) = ceil(W / 52) (R8). -/
def Width.digits (w : Width) : Nat := (w.bits + 51) / 52

/-- The bits of the top digit, W − 52·(n(W) − 1) (R8). -/
def Width.topbits (w : Width) : Nat := w.bits - 52 * (w.digits - 1)

/-- The width a size code selects; 6 and 7 are reserved (R102). -/
def Width.ofCode (sz : SizeCode) : Option Width :=
  match sz.toNat with
  | 0 => some .w512
  | 1 => some .w1024
  | 2 => some .w1536
  | 3 => some .w2048
  | 4 => some .w3072
  | 5 => some .w4096
  | _ => none

namespace Machine

/-- The value of a digit array, least significant digit first, each word taken whole: `Σ d_i · 2^(52·i)` (R14). -/
def val : List Word → Nat
  | [] => 0
  | d :: ds => d.toNat + 2 ^ 52 * val ds

/-- `Digits(v, L)`: the words `(v div 2^(52·i)) mod 2^52` for i = 0 to L−1 (R14). -/
def digits (v : Nat) : Nat → List Word
  | 0 => []
  | k + 1 => BitVec.ofNat 64 (v % 2 ^ 52) :: digits (v / 2 ^ 52) k

/-- Every word is below 2^52 (R14). -/
def normalised (ds : List Word) : Bool := ds.all fun d => d.toNat < 2 ^ 52

/-- `bitlen(v)` (R12). -/
def bitlen (v : Nat) : Nat := if v = 0 then 0 else Nat.log2 v + 1

/-- The number of significant digits of a digit array: one more than the index of its last nonzero digit
(44_precompute.md R242). -/
def sigDigits : List Word → Nat
  | [] => 0
  | d :: ds => if sigDigits ds = 0 then (if d = 0#64 then 0 else 1) else sigDigits ds + 1

/-- A region `(r, L)` of the digit memory: the `len` rows from `row` on (R14). -/
structure Region where
  row : Nat
  len : Nat
deriving DecidableEq, Repr

/-- The region lies below DM_ROWS; the addition does not wrap (20_memory.md R70). -/
def Region.inRange (g : Region) (rows : Nat) : Bool := g.row + g.len ≤ rows

/-- The region of `len` rows that a row field names (R105). -/
def region (r : Row) (len : Nat) : Region := { row := r.toNat, len := len }

/-- What Validate and Execute need of a command's operands: the first error among its own fields, its one destination
region and its source regions (R106). -/
structure Shape where
  fieldError : Option CmdError
  dst        : Region
  srcs       : List Region
deriving DecidableEq, Repr

/-- n(W) for a size code. -/
def digitCount (sz : SizeCode) : Nat :=
  match Width.ofCode sz with
  | some w => w.digits
  | none => 0

/-- W for a size code. -/
def widthBits (sz : SizeCode) : Nat :=
  match Width.ofCode sz with
  | some w => w.bits
  | none => 0

/-- SIZE when SZ is 6 or 7 (R102). -/
def sizeError (sz : SizeCode) : Option CmdError :=
  match Width.ofCode sz with
  | some _ => none
  | none => some .size

/-- LENGTH when a digit count is 0 (R104). -/
def lengthError (l : Len) : Option CmdError := if l = 0#8 then some .length else none

/-- SHIFT when SH is 52 or more (R103). -/
def shiftError (sh : Shift) : Option CmdError := if sh.toNat < 52 then none else some .shift

/-- The operand table of R106, with the field checks of R262 in their order: SIZE, LENGTH of LX, LENGTH of LM, SHIFT. -/
def shape : Instr → Shape
  | .norm rd ra lx => ⟨lengthError lx, region rd lx.toNat, [region ra lx.toNat]⟩
  | .normclr rd ra lx => ⟨lengthError lx, region rd lx.toNat, [region ra lx.toNat]⟩
  | .normsqr sz rd ra => ⟨sizeError sz, region rd (2 * digitCount sz), [region ra (2 * digitCount sz)]⟩
  | .normtop sz rd ra => ⟨sizeError sz, region rd (digitCount sz), [region ra (digitCount sz)]⟩
  | .shl rd ra lx sh => ⟨(lengthError lx).or (shiftError sh), region rd (lx.toNat + 1), [region ra lx.toNat]⟩
  | .shr rd ra lx sh => ⟨(lengthError lx).or (shiftError sh), region rd lx.toNat, [region ra lx.toNat]⟩
  | .zero rd lx => ⟨lengthError lx, region rd lx.toNat, []⟩
  | .copy rd ra lx => ⟨lengthError lx, region rd lx.toNat, [region ra lx.toNat]⟩
  | .cmpge rd ra rb lx => ⟨lengthError lx, region rd 1, [region ra lx.toNat, region rb lx.toNat]⟩
  | .addmul sz rd ra rb =>
      ⟨sizeError sz, region rd (2 * digitCount sz),
        [region rd (2 * digitCount sz), region ra (digitCount sz), region rb (digitCount sz)]⟩
  | .amred sz rd ra rb rc =>
      ⟨sizeError sz, region rd (digitCount sz),
        [region ra (2 * digitCount sz), region rb (digitCount sz), region rc 1]⟩
  | .ams sz rd ra rb rc =>
      ⟨sizeError sz, region rd (digitCount sz),
        [region ra (digitCount sz), region rb (digitCount sz), region rc 1]⟩
  | .modsub sz rd ra rb rc =>
      ⟨sizeError sz, region rd (digitCount sz),
        [region ra (digitCount sz), region rb (digitCount sz), region rc (digitCount sz)]⟩
  | .estq rd ra rb => ⟨none, region rd 1, [region ra 3, region rb 2]⟩
  | .mreduce rd ra lx lm =>
      ⟨(lengthError lx).or (lengthError lm), region rd lx.toNat, [region rd lx.toNat, region ra lm.toNat]⟩
  | .montfactor rd ra => ⟨none, region rd 1, [region ra 1]⟩
  | .montrr sz rd ra => ⟨sizeError sz, region rd (digitCount sz), [region ra (digitCount sz)]⟩

/-- The checks of R262 that follow the reading of the word: the fields, then ADDRESS. -/
def Shape.check (sh : Shape) (rows : Nat) : Option CmdError :=
  match sh.fieldError with
  | some e => some e
  | none => if (sh.dst :: sh.srcs).all (fun g => g.inRange rows) then none else some .address

end Machine
end Sys2Proof
end

