-- ==== Sys2Proof/Machine/Ops.lean ====
section
/-! DEFINITION. The operations every command shares: the digit memory, Validate, running a command on the active lanes,
and how a command ends (spec 10_state.md R50 to R52; 20_memory.md R70 to R77; 60_exceptions.md R260 to R264;
70_reset_and_hazards.md R300, R301). The block takes no traps (R268): the whole of "trap entry" is `State.complete`,
and the whole of the return is the host's write to STATUS (R269, `State.writeStatus`). -/

namespace Sys2Proof.Machine

/-! ### Bytes and words of the digit memory -/

/-- The byte at an offset, `none` where nothing has been written. -/
def Memory.getByte : Memory → Nat → Option Byte
  | [], _ => none
  | (k, b) :: m, a => if a = k then some b else Memory.getByte m a

/-- One byte's new value at an offset, `none` to take its value away. -/
abbrev ByteWrite := Nat × Option Byte

/-- Puts a byte's new value in front of the bytes after it. -/
def Memory.place (a : Nat) (v : Option Byte) (m : Memory) : Memory :=
  match v with
  | none => m
  | some b => (a, b) :: m

/-- Passes the bytes below `a`, gives byte `a` its new value in place of any old one, and goes on with `rest`. -/
def Memory.splice (a : Nat) (v : Option Byte) (rest : Memory → Memory) : Memory → Memory
  | [] => Memory.place a v (rest [])
  | (k, c) :: m =>
    if k < a then (k, c) :: Memory.splice a v rest m
    else if k = a then Memory.place a v (rest m)
    else Memory.place a v (rest ((k, c) :: m))

/-- Makes every byte write of a list with strictly rising offsets, in one pass over the memory. -/
def Memory.update : List ByteWrite → Memory → Memory
  | [], m => m
  | (a, v) :: us, m => Memory.splice a v (Memory.update us) m

/-- Every listed offset is above `lo`, and the offsets rise strictly. -/
def Memory.risesAbove : Nat → Memory → Bool
  | _, [] => true
  | lo, (k, _) :: m => decide (lo < k) && Memory.risesAbove k m

/-- The canonical form: offsets strictly rising. An unlisted byte has no value, so no listed byte reads as one. -/
def Memory.wf : Memory → Bool
  | [] => true
  | (k, _) :: m => Memory.risesAbove k m

/-- The number in the `n` bytes from an offset on, least significant byte first (R77); `none` if one has no value. -/
def Memory.getLE (m : Memory) (a : Nat) : Nat → Option Nat
  | 0 => some 0
  | n + 1 =>
    match Memory.getByte m a, Memory.getLE m (a + 1) n with
    | some b, some r => some (b.toNat + 256 * r)
    | _, _ => none

/-- The 64-bit word at an offset, or `⊥`. (The bytes below the offset are passed once, not once per byte.) -/
def Memory.readWord (m : Memory) (a : Nat) : Option Word :=
  (Memory.getLE (List.dropWhile (fun p => decide (p.1 < a)) m) a 8).map (BitVec.ofNat 64)

/-- The byte writes that make the word at an offset a value, or `⊥`: byte k is bits [8k+7:8k] (R77). -/
def wordBytes (a : Nat) (v : Option Word) : List ByteWrite :=
  (List.range 8).map fun k => (a + k, v.map fun w => w.extractLsb' (8 * k) 8)

/-- Makes the word at an offset a value, or `⊥`. -/
def Memory.writeWord (m : Memory) (a : Nat) (v : Option Word) : Memory := Memory.update (wordBytes a v) m

/-- Makes every word of a list of (offset, word) pairs with strictly rising offsets its value, or `⊥`, all together
(R82). -/
def Memory.writeAll (m : Memory) (ws : List (Nat × Option Word)) : Memory :=
  Memory.update (ws.flatMap fun w => wordBytes w.1 w.2) m

/-- The offset of the word of row `r`, lane `l` in the block's window (R75). -/
def dmOffset (c : Config) (r l : Nat) : Nat := 0x100000 + 8 * (c.lanes * r + l)

/-- `DM[r][l]` (R13). -/
def State.word (s : State) (r l : Nat) : Option Word := s.dm.readWord (dmOffset s.cfg r l)

/-- The words of lane `l` in a region, digit 0 first, or `none` if one of them is `⊥` (R71). -/
def State.regionWords (s : State) (l row : Nat) : Nat → Option (List Word)
  | 0 => some []
  | n + 1 =>
    match s.word row l, State.regionWords s l (row + 1) n with
    | some w, some ws => some (w :: ws)
    | _, _ => none

/-- The words of lane `l` in every source region, or `none` if one of them is `⊥`. -/
def State.sourceWords (s : State) (l : Nat) : List Region → Option (List (List Word))
  | [] => some []
  | g :: gs =>
    match s.regionWords l g.row g.len, State.sourceWords s l gs with
    | some ws, some rest => some (ws :: rest)
    | _, _ => none

/-- The lanes whose bit is 1 in a mask (R15, R46). -/
def activeLanes (c : Config) (mask : LaneMask) : List Nat := (List.range c.lanes).filter fun l => mask.getLsbD l

/-- The word writes that give word `i` of lane `l` of a region the value `f l i`, for the active lanes, in rising order of
their offsets. -/
def regionWrites (c : Config) (mask : LaneMask) (g : Region) (f : Nat → Nat → Option Word) :
    List (Nat × Option Word) :=
  (List.range g.len).flatMap fun i =>
    (activeLanes c mask).map fun l => (dmOffset c (g.row + i) l, f l i)

/-! ### Validate -/

/-- `Validate(w)`: the first error in the order of R262, or `none` for code 0. -/
def validate (c : Config) (w : CmdWord) : Option CmdError :=
  match decode w with
  | .error e => some e
  | .ok i => (shape i).check c.rows

/-! ### Running a command -/

/-- What an instruction rule gives one lane: the destination's words, or the UB fault it reaches first (R264). -/
abbrev LaneResult := Except UBReason (List Word)

/-- The words of the `k`-th source region. -/
def source (ws : List (List Word)) (k : Nat) : List Word := ws.getD k []

/-- One lane of Execute: all sources are read first (R16, R73), and a `⊥` among them is UB_UNINIT (R71); then the
instruction rule decides. -/
def laneResult (s : State) (sh : Shape) (rule : List (List Word) → LaneResult) (l : Nat) : LaneResult :=
  match s.sourceWords l sh.srcs with
  | none => .error .uninit
  | some ws => rule ws

/-- The word a lane's result gives row `i` of the destination: `⊥` after a UB fault (R264). -/
def resultWord (r : LaneResult) (i : Nat) : Option Word :=
  match r with
  | .ok ws => ws[i]?
  | .error _ => none

/-- `FAULT ∪ e`. -/
def addFault (fs : List FaultEntry) (e : FaultEntry) : List FaultEntry := if e ∈ fs then fs else fs ++ [e]

/-- Records a lane's UB fault, if it has one, with the command word and the lane (R264). -/
def recordLane (cmd : CmdWord) (fs : List FaultEntry) (l : Nat) (r : LaneResult) : List FaultEntry :=
  match r with
  | .ok _ => fs
  | .error u => addFault fs (.command u cmd l)

/-- `Execute(cmd, mask)`: the instruction rule on every active lane, from the words as they stood at the start, all lanes'
writes together (R16, R52, R73, R264). -/
def State.execute (s : State) (k : Latch) (sh : Shape) (rule : List (List Word) → LaneResult) : State :=
  { s with
    dm := s.dm.writeAll (regionWrites s.cfg k.mask sh.dst fun l i => resultWord (laneResult s sh rule l) i)
    faults := (activeLanes s.cfg k.mask).foldl (fun fs l => recordLane k.cmd fs l (laneResult s sh rule l)) s.faults }

/-- The end of the core's step: LATCH empty, BUSY ← 0, DONE ← 1, and on a command error ERR ← 1 and ERRCODE ← its
code (R52, R263). -/
def State.complete (s : State) (e : Option CmdError) : State :=
  match e with
  | none => { s with latch := none, busy := false, done := true }
  | some c => { s with latch := none, busy := false, done := true, err := true, errCode := c.code }

/-- The core's step for a command that reads as one (R52): a command error of its operands, or Execute. -/
def runCommand (sh : Shape) (rule : List (List Word) → LaneResult) (s : State) : Host.Outcome State Fault Refusal :=
  match s.latch with
  | none => .fault .latchEmpty
  | some k =>
    match sh.check s.cfg.rows with
    | some e => .next (s.complete (some e))
    | none => .next ((s.execute k sh rule).complete none)

/-! ### Resets and GO -/

/-- The registers after any reset (R53, R301): all but DM and FAULT. -/
def State.resetRegisters (s : State) : State :=
  { s with
    latch := none, ie := false, busy := false, done := false, err := false, ovr := false, errCode := 0#8
    laneMask := allLanes s.cfg, cmdLo := 0#64, cmdHi := 0#64 }

/-- A record of fault entries with those of a list added, each once. -/
def keepFaults (old fs : List FaultEntry) : List FaultEntry := fs.foldl addFault old

/-- The reset input (R300): every piece of the block's state to its reset value, FAULT empty among them. The entries FAULT
held stay in the record of the run (R48: "never cleared by any step or reset"). See assumption log 7. -/
def State.powerOnReset (s : State) : State :=
  { s.resetRegisters with dm := [], faults := [], earlierFaults := keepFaults s.earlierFaults s.faults }

/-- The destination of a command started but not completed becomes `⊥` in the active lanes, if the command passes
Validate (R301). -/
def State.abandon (s : State) : State :=
  match s.latch with
  | none => s
  | some k =>
    match decode k.cmd with
    | .error _ => s
    | .ok i =>
      match (shape i).check s.cfg.rows with
      | some _ => s
      | none => { s with dm := s.dm.writeAll (regionWrites s.cfg k.mask (shape i).dst fun _ _ => none) }

/-- `soft_reset()` (R301). -/
def State.softReset (s : State) : State := s.abandon.resetRegisters

/-- GO (R50): lost with OVR ← 1 while BUSY = 1, otherwise it latches the command and the lane mask. -/
def State.go (s : State) : State :=
  if s.busy then { s with ovr := true }
  else
    { s with
      latch := some { cmd := s.cmdHi ++ s.cmdLo, mask := s.laneMask }
      done := false, err := false, errCode := 0#8, busy := true }

end Sys2Proof.Machine
end

