-- ==== Sys2Proof/Machine/DigitOps.lean ====
section
/-! DEFINITION. Digit normalisation, shifts and lane primitives (spec 41_digit_ops.md): NORM, NORMCLR, NORMSQR, NORMTOP,
SHL, SHR, ZERO, COPY, CMPGE. Each `lane…` is the pseudocode of the instruction rule for one lane, on the words of its
source regions; each `exec…` is the core's whole step for the command. -/

namespace Sys2Proof.Machine

/-- The words of a value whose digits below the top one are reduced and whose top word keeps the rest (R141, R143). -/
def keepTop (v len : Nat) : List Word := digits v (len - 1) ++ [BitVec.ofNat 64 (v / 2 ^ (52 * (len - 1)))]

/-- NORM (R141). -/
def laneNorm (len : Nat) (a : List Word) : LaneResult :=
  if 2 ^ 64 ≤ val a / 2 ^ (52 * (len - 1)) then .error .range else .ok (keepTop (val a) len)

/-- NORMCLR (R142). -/
def laneNormclr (len : Nat) (a : List Word) : LaneResult := .ok (digits (val a) len)

/-- NORMSQR (R143): the carry propagation begins at digit n. -/
def laneNormsqr (n : Nat) (a : List Word) : LaneResult :=
  if normalised (a.take n) then
    if 2 ^ 64 ≤ val (a.drop n) / 2 ^ (52 * (n - 1)) then .error .range
    else .ok (a.take n ++ keepTop (val (a.drop n)) n)
  else .error .nonnorm

/-- NORMTOP (R144). -/
def laneNormtop (n w : Nat) (a : List Word) : LaneResult := .ok (digits (val a % 2 ^ w) n)

/-- SHL (R145). -/
def laneShl (len sh : Nat) (a : List Word) : LaneResult :=
  if normalised a then .ok (digits (val a * 2 ^ sh) (len + 1)) else .error .nonnorm

/-- SHR (R146). -/
def laneShr (len sh : Nat) (a : List Word) : LaneResult :=
  if normalised a then .ok (digits (val a / 2 ^ sh) len) else .error .nonnorm

/-- ZERO (R147). -/
def laneZero (len : Nat) : LaneResult := .ok (List.replicate len 0#64)

/-- COPY (R148). -/
def laneCopy (a : List Word) : LaneResult := .ok a

/-- CMPGE (R149): all ones where the first value is the greater or equal one, else 0. -/
def laneCmpge (a b : List Word) : LaneResult :=
  if normalised a && normalised b then .ok [if val b ≤ val a then BitVec.allOnes 64 else 0#64] else .error .nonnorm

/-- NORM. -/
def execNorm (rd ra : Row) (lx : Len) (s : State) : Host.Outcome State Fault Refusal :=
  runCommand (shape (.norm rd ra lx)) (fun ws => laneNorm lx.toNat (source ws 0)) s

/-- NORMCLR. -/
def execNormclr (rd ra : Row) (lx : Len) (s : State) : Host.Outcome State Fault Refusal :=
  runCommand (shape (.normclr rd ra lx)) (fun ws => laneNormclr lx.toNat (source ws 0)) s

/-- NORMSQR. -/
def execNormsqr (sz : SizeCode) (rd ra : Row) (s : State) : Host.Outcome State Fault Refusal :=
  runCommand (shape (.normsqr sz rd ra)) (fun ws => laneNormsqr (digitCount sz) (source ws 0)) s

/-- NORMTOP. -/
def execNormtop (sz : SizeCode) (rd ra : Row) (s : State) : Host.Outcome State Fault Refusal :=
  runCommand (shape (.normtop sz rd ra)) (fun ws => laneNormtop (digitCount sz) (widthBits sz) (source ws 0)) s

/-- SHL. -/
def execShl (rd ra : Row) (lx : Len) (sh : Shift) (s : State) : Host.Outcome State Fault Refusal :=
  runCommand (shape (.shl rd ra lx sh)) (fun ws => laneShl lx.toNat sh.toNat (source ws 0)) s

/-- SHR. -/
def execShr (rd ra : Row) (lx : Len) (sh : Shift) (s : State) : Host.Outcome State Fault Refusal :=
  runCommand (shape (.shr rd ra lx sh)) (fun ws => laneShr lx.toNat sh.toNat (source ws 0)) s

/-- ZERO. -/
def execZero (rd : Row) (lx : Len) (s : State) : Host.Outcome State Fault Refusal :=
  runCommand (shape (.zero rd lx)) (fun _ => laneZero lx.toNat) s

/-- COPY. -/
def execCopy (rd ra : Row) (lx : Len) (s : State) : Host.Outcome State Fault Refusal :=
  runCommand (shape (.copy rd ra lx)) (fun ws => laneCopy (source ws 0)) s

/-- CMPGE. -/
def execCmpge (rd ra rb : Row) (lx : Len) (s : State) : Host.Outcome State Fault Refusal :=
  runCommand (shape (.cmpge rd ra rb lx)) (fun ws => laneCmpge (source ws 0) (source ws 1)) s

end Sys2Proof.Machine
end

