-- ==== Sys2Proof/Machine/LongDivision.lean ====
section
/-! DEFINITION. Quotient-digit estimation and long-division reduction (spec 43_long_division.md): ESTQ, MREDUCE. -/

namespace Sys2Proof.Machine

/-- The quotient-digit estimate of three dividend digits over two divisor digits, clamped to one digit (R211). -/
def estimate (u2 u1 u0 v1 v0 : Nat) : Nat :=
  min ((u2 * 2 ^ 104 + u1 * 2 ^ 52 + u0) / (v1 * 2 ^ 52 + v0)) (2 ^ 52 - 1)

/-- Digit `i − k` of a digit array; a digit with index below 0 reads 0, and so does one above the array (R212). -/
def digitBelow (ds : List Word) (i k : Nat) : Nat := if i < k then 0 else (ds.getD (i - k) 0#64).toNat

/-- ESTQ (R211). -/
def laneEstq (u v : List Word) : LaneResult :=
  if normalised u && normalised v then
    if digitBelow v 1 0 < 2 ^ 51 then .error .divisor
    else .ok [BitVec.ofNat 64
      (estimate (digitBelow u 2 0) (digitBelow u 1 0) (digitBelow u 0 0) (digitBelow v 1 0) (digitBelow v 0 0))]
  else .error .nonnorm

/-- The estimate of R212 at quotient position `j`, from the dividend's digits and the shifted modulus's. -/
def estimateAt (x mn : List Word) (lm j : Nat) : Nat :=
  estimate (digitBelow x (j + lm) 0) (digitBelow x (j + lm) 1) (digitBelow x (j + lm) 2)
    (digitBelow mn lm 1) (digitBelow mn lm 2)

/-- Multiply, subtract and correct: `W − q·V`, with V added back once if that is negative (R212). -/
def correct (w q v : Nat) : Int :=
  if (w : Int) - (q : Int) * (v : Int) < 0 then (w : Int) - (q : Int) * (v : Int) + (v : Int)
  else (w : Int) - (q : Int) * (v : Int)

/-- One quotient position of R212: the window of LM+1 digits at `j` becomes its remainder. -/
def divideStep (mn : List Word) (lm j : Nat) (x : List Word) : List Word :=
  x.take j ++
    digits (correct (val ((x.drop j).take (lm + 1))) (estimateAt x mn lm j) (val mn)).toNat (lm + 1) ++
    x.drop (j + lm + 1)

/-- The loop of R212 over the positions `k − 1` down to 0. -/
def divideLoop (mn : List Word) (lm : Nat) : Nat → List Word → List Word
  | 0, x => x
  | k + 1, x => divideLoop mn lm k (divideStep mn lm k x)

/-- The normalisation amount of R212: the left shift that sets the top bit of the modulus's top digit. -/
def normShift (m : List Word) (lm : Nat) : Nat := 52 - bitlen (digitBelow m lm 1)

/-- R212 from its step 1 on: the dividend's LX digits become those of the remainder. -/
def longDivide (lx lm : Nat) (x m : List Word) : List Word :=
  digits
    (val (divideLoop (digits (val m * 2 ^ normShift m lm) lm) lm (lx + 1 - lm)
        (digits (val x * 2 ^ normShift m lm) (lx + 1))) / 2 ^ normShift m lm) lx

/-- MREDUCE (R212). -/
def laneMreduce (lx lm : Nat) (x m : List Word) : LaneResult :=
  if normalised x && normalised m then
    if digitBelow m lm 1 = 0 then .error .topDigit else .ok (longDivide lx lm x m)
  else .error .nonnorm

/-- ESTQ. -/
def execEstq (rd ra rb : Row) (s : State) : Host.Outcome State Fault Refusal :=
  runCommand (shape (.estq rd ra rb)) (fun ws => laneEstq (source ws 0) (source ws 1)) s

/-- MREDUCE. -/
def execMreduce (rd ra : Row) (lx lm : Len) (s : State) : Host.Outcome State Fault Refusal :=
  runCommand (shape (.mreduce rd ra lx lm)) (fun ws => laneMreduce lx.toNat lm.toNat (source ws 0) (source ws 1)) s

end Sys2Proof.Machine
end

