-- ==== Sys2Proof/Machine/Montgomery.lean ====
section
/-! DEFINITION. Montgomery multiply, reduce, square and modular subtraction (spec 42_montgomery.md): ADDMUL, AMRED, AMS,
MODSUB. -/

namespace Sys2Proof.Machine

/-- ADDMUL (R181). -/
def laneAddmul (n : Nat) (acc a b : List Word) : LaneResult :=
  if normalised acc && normalised a && normalised b then
    if 2 ^ (104 * n) ≤ val acc + val a * val b then .error .range
    else .ok (digits (val acc + val a * val b) (2 * n))
  else .error .nonnorm

/-- The quotient digit `y_i` of the running sum `t`: digit i of `t`, times k0, mod 2^52 (R182). -/
def quotientDigit (k0 i t : Nat) : Nat := (t / 2 ^ (52 * i) % 2 ^ 52) * k0 % 2 ^ 52

/-- The loop of R182 from digit `i` on, for `k` more digits: add `y_i · M` at digit i. -/
def reduceLoop (m k0 : Nat) : Nat → Nat → Nat → Nat
  | 0, _, t => t
  | k + 1, i, t => reduceLoop m k0 k (i + 1) (t + quotientDigit k0 i t * m * 2 ^ (52 * i))

/-- R182 from "M <- Val(RB, n, l)" on, with a given accumulator value. -/
def almostReduce (n acc : Nat) (m k0 : List Word) : LaneResult :=
  if (val k0 * (val m % 2 ^ 52)) % 2 ^ 52 ≠ 2 ^ 52 - 1 then .error .k0
  else if 2 ^ (52 * n) ≤ reduceLoop (val m) (val k0) n 0 acc / 2 ^ (52 * n) then .error .range
  else .ok (digits (reduceLoop (val m) (val k0) n 0 acc / 2 ^ (52 * n)) n)

/-- AMRED (R182). -/
def laneAmred (n : Nat) (acc m k0 : List Word) : LaneResult :=
  if normalised acc && normalised m && normalised k0 then almostReduce n (val acc) m k0 else .error .nonnorm

/-- AMS (R183): the exact square, reduced as AMRED does. -/
def laneAms (n : Nat) (a m k0 : List Word) : LaneResult :=
  if normalised a && normalised m && normalised k0 then almostReduce n (val a * val a) m k0 else .error .nonnorm

/-- `a − b`, with the one conditional add-back of M (R184). -/
def addBack (a b m : Nat) : Int :=
  if (a : Int) - (b : Int) < 0 then (a : Int) - (b : Int) + (m : Int) else (a : Int) - (b : Int)

/-- MODSUB (R184). -/
def laneModsub (n : Nat) (a b m : List Word) : LaneResult :=
  if normalised a && normalised b && normalised m then
    if addBack (val a) (val b) (val m) < 0 then .error .range
    else .ok (digits (addBack (val a) (val b) (val m)).toNat n)
  else .error .nonnorm

/-- ADDMUL. -/
def execAddmul (sz : SizeCode) (rd ra rb : Row) (s : State) : Host.Outcome State Fault Refusal :=
  runCommand (shape (.addmul sz rd ra rb))
    (fun ws => laneAddmul (digitCount sz) (source ws 0) (source ws 1) (source ws 2)) s

/-- AMRED. -/
def execAmred (sz : SizeCode) (rd ra rb rc : Row) (s : State) : Host.Outcome State Fault Refusal :=
  runCommand (shape (.amred sz rd ra rb rc))
    (fun ws => laneAmred (digitCount sz) (source ws 0) (source ws 1) (source ws 2)) s

/-- AMS. -/
def execAms (sz : SizeCode) (rd ra rb rc : Row) (s : State) : Host.Outcome State Fault Refusal :=
  runCommand (shape (.ams sz rd ra rb rc))
    (fun ws => laneAms (digitCount sz) (source ws 0) (source ws 1) (source ws 2)) s

/-- MODSUB. -/
def execModsub (sz : SizeCode) (rd ra rb rc : Row) (s : State) : Host.Outcome State Fault Refusal :=
  runCommand (shape (.modsub sz rd ra rb rc))
    (fun ws => laneModsub (digitCount sz) (source ws 0) (source ws 1) (source ws 2)) s

end Sys2Proof.Machine
end

