-- ==== Sys2Proof/Machine/Precompute.lean ====
section
/-! DEFINITION. Montgomery constant precomputation (spec 44_precompute.md): MONTFACTOR, MONTRR. -/

namespace Sys2Proof.Machine

/-- The bit-serial inverse of R244 from bit `i` on, for `k` more bits: sets bit i of `y` where `m0 · y` is not yet
1 modulo 2^(i+1). -/
def inverseLoop (m0 : Nat) : Nat → Nat → Nat → Nat
  | 0, _, y => y
  | k + 1, i, y => inverseLoop m0 k (i + 1) (if m0 * y % 2 ^ (i + 1) = 1 then y else y + 2 ^ i)

/-- The k in [0, 2^52) with `m0 · k mod 2^52 = 2^52 − 1`, for odd m0 (R241), found the way R244 gives. -/
def montFactor (m0 : Nat) : Nat := (2 ^ 52 - inverseLoop m0 51 1 1) % 2 ^ 52

/-- MONTFACTOR (R241). -/
def laneMontfactor (m : List Word) : LaneResult :=
  if normalised m then
    if val m % 2 = 0 then .error .evenModulus else .ok [BitVec.ofNat 64 (montFactor (val m))]
  else .error .nonnorm

/-- MONTRR (R242): MREDUCE of `2^(104·n)` in 2n+1 digits by the significant digits of M. -/
def laneMontrr (n : Nat) (m : List Word) : LaneResult :=
  if normalised m then
    if val m = 0 then .error .topDigit
    else .ok ((longDivide (2 * n + 1) (sigDigits m) (digits (2 ^ (104 * n)) (2 * n + 1)) (m.take (sigDigits m))).take n)
  else .error .nonnorm

/-- MONTFACTOR. -/
def execMontfactor (rd ra : Row) (s : State) : Host.Outcome State Fault Refusal :=
  runCommand (shape (.montfactor rd ra)) (fun ws => laneMontfactor (source ws 0)) s

/-- MONTRR. -/
def execMontrr (sz : SizeCode) (rd ra : Row) (s : State) : Host.Outcome State Fault Refusal :=
  runCommand (shape (.montrr sz rd ra)) (fun ws => laneMontrr (digitCount sz) (source ws 0)) s

end Sys2Proof.Machine
end

