-- ==== Sys2Proof/Machine/Dispatch.lean ====
section
/-! DEFINITION. The meaning of every command: one arm per constructor. -/

namespace Sys2Proof.Machine

def exec (i : Instr) (s : State) : Host.Outcome State Fault Refusal :=
  match i with
  | .norm rd ra lx => Sys2Proof.Machine.execNorm rd ra lx s
  | .normclr rd ra lx => Sys2Proof.Machine.execNormclr rd ra lx s
  | .normsqr sz rd ra => Sys2Proof.Machine.execNormsqr sz rd ra s
  | .normtop sz rd ra => Sys2Proof.Machine.execNormtop sz rd ra s
  | .shl rd ra lx sh => Sys2Proof.Machine.execShl rd ra lx sh s
  | .shr rd ra lx sh => Sys2Proof.Machine.execShr rd ra lx sh s
  | .zero rd lx => Sys2Proof.Machine.execZero rd lx s
  | .copy rd ra lx => Sys2Proof.Machine.execCopy rd ra lx s
  | .cmpge rd ra rb lx => Sys2Proof.Machine.execCmpge rd ra rb lx s
  | .addmul sz rd ra rb => Sys2Proof.Machine.execAddmul sz rd ra rb s
  | .amred sz rd ra rb rc => Sys2Proof.Machine.execAmred sz rd ra rb rc s
  | .ams sz rd ra rb rc => Sys2Proof.Machine.execAms sz rd ra rb rc s
  | .modsub sz rd ra rb rc => Sys2Proof.Machine.execModsub sz rd ra rb rc s
  | .estq rd ra rb => Sys2Proof.Machine.execEstq rd ra rb s
  | .mreduce rd ra lx lm => Sys2Proof.Machine.execMreduce rd ra lx lm s
  | .montfactor rd ra => Sys2Proof.Machine.execMontfactor rd ra s
  | .montrr sz rd ra => Sys2Proof.Machine.execMontrr sz rd ra s

end Sys2Proof.Machine
end

