-- ==== Sys2Proof/Machine/CoreStep.lean ====
section
/-! DEFINITION. The core's step (spec 10_state.md R52): the latched command is read and run, or refused. -/

namespace Sys2Proof.Machine

/-- The core's step. A latched word that reads as no command ends in the command error of R262 that names why (R263). -/
def coreStep (s : State) : Host.Outcome State Fault Refusal :=
  match s.latch with
  | none => .fault .latchEmpty
  | some k =>
    match decode k.cmd with
    | .error e => .next (s.complete (some e))
    | .ok i => exec i s

/-- A command word latched as GO latches it (R50), with the lane mask of LANEMASK, and the core to move next. -/
def State.latchWord (s : State) (w : CmdWord) : State :=
  { s with
    latch := some { cmd := w, mask := s.laneMask }
    done := false, err := false, errCode := 0#8, busy := true
    turns := if s.inputs.isEmpty then s.turns else .core :: s.turns }

end Sys2Proof.Machine
end

