-- ==== Sys2Proof/Machine/HostPort.lean ====
section
/-! DEFINITION. The host's bus port: the address window, the register page, the DM window and the inputs the platform
makes (spec 10_state.md R38 to R44, R50, R51; 20_memory.md R75 to R81; 60_exceptions.md R266; 70_reset_and_hazards.md
R300, R301, R311). -/

namespace Sys2Proof.Machine

/-- The size of the block's window, 5 MiB (R75). -/
def windowBytes : Nat := 0x500000

/-- The offset is one of a byte of a DM word: at or above 0x100000 and below the end of row DM_ROWS − 1 (R75). -/
def inDmWindow (c : Config) (off : Nat) : Bool :=
  0x100000 ≤ off && off < 0x100000 + 8 * c.lanes * c.rows

/-- The value of a read outside the DM window: the registers of R38 to R42, and 0 at every other offset (R44, R75). -/
def State.readRegister (s : State) (off : Nat) : Word :=
  match off with
  | 0x000 => idWord s.cfg
  | 0x008 => ctrlWord s
  | 0x010 => statusWord s
  | 0x018 => s.laneMask.setWidth 64
  | 0x020 => s.cmdLo
  | 0x028 => s.cmdHi
  | _ => 0#64

/-- A write to CTRL (R50): SRST alone if bit 2 is 1, otherwise IE from bit 1 and then GO if bit 0 is 1. -/
def State.writeCtrl (s : State) (v : Word) : State :=
  if v.getLsbD 2 then s.softReset
  else if v.getLsbD 0 then State.go { s with ie := v.getLsbD 1 }
  else { s with ie := v.getLsbD 1 }

/-- A write to LANEMASK: bits [LANES−1:0] (R41), ignored with OVR ← 1 while BUSY = 1 (R43). -/
def State.writeLaneMask (s : State) (v : Word) : State :=
  if s.busy then { s with ovr := true } else { s with laneMask := v.setWidth 8 &&& allLanes s.cfg }

/-- A write to CMD_LO (R42), ignored with OVR ← 1 while BUSY = 1 (R43). -/
def State.writeCmdLo (s : State) (v : Word) : State :=
  if s.busy then { s with ovr := true } else { s with cmdLo := v }

/-- A write to CMD_HI (R42), ignored with OVR ← 1 while BUSY = 1 (R43). -/
def State.writeCmdHi (s : State) (v : Word) : State :=
  if s.busy then { s with ovr := true } else { s with cmdHi := v }

/-- The effect of a write outside the DM window; ID and every unlisted offset ignore it (R38, R44, R75). -/
def State.writeRegister (s : State) (off : Nat) (v : Word) : State :=
  match off with
  | 0x008 => s.writeCtrl v
  | 0x010 => s.writeStatus v
  | 0x018 => s.writeLaneMask v
  | 0x020 => s.writeCmdLo v
  | 0x028 => s.writeCmdHi v
  | _ => s

/-- Returns a value to the host's read. -/
def State.reply (s : State) (v : Word) : State := { s with replies := s.replies ++ [some v] }

/-- A host fault (R266): recorded in FAULT, with no other effect; a faulting read returns no value. -/
def State.hostFault (s : State) (r : HostReason) (a : Access) : State :=
  { s with
    faults := addFault s.faults (.host r a)
    replies := match a.kind with
      | .read => s.replies ++ [none]
      | .write _ => s.replies }

/-- An aligned 64-bit access to a DM word (R79, R80). -/
def State.dmAccess (s : State) (a : Access) (off : Nat) : State :=
  if s.busy then s.hostFault .race a
  else
    match a.kind with
    | .write v => { s with dm := s.dm.writeWord off (some v) }
    | .read =>
      match s.dm.readWord off with
      | some v => s.reply v
      | none => s.hostFault .uninit a

/-- An access at an offset of the window. The form of the access is judged before anything else (R76). -/
def State.accessAt (s : State) (a : Access) (off : Nat) : State :=
  if a.size ≠ 8 ∨ off % 8 ≠ 0 then s.hostFault .access a
  else if inDmWindow s.cfg off then s.dmAccess a off
  else
    match a.kind with
    | .read => s.reply (s.readRegister off)
    | .write v => s.writeRegister off v

/-- One host access (R75, R76); an address outside the window is none of the block's. -/
def State.hostAccess (s : State) (a : Access) : Host.Outcome State Fault Refusal :=
  if s.cfg.pBase ≤ a.addr ∧ a.addr < s.cfg.pBase + windowBytes then .next (s.accessAt a (a.addr - s.cfg.pBase))
  else .fault .outsideWindow

/-- The platform's next input takes effect. -/
def hostStep (s : State) : Host.Outcome State Fault Refusal :=
  match s.inputs with
  | [] => .next s
  | .access a :: rest => State.hostAccess { s with inputs := rest } a
  | .powerOn :: rest => .next (State.powerOnReset { s with inputs := rest })

/-- Which agent moves: the core only while BUSY = 1 (R52), the host only while it has an input, and where both can, the one
that `turns` names, the core once it names none (R271, R309). -/
def State.whoMoves (s : State) : Option Agent :=
  match s.busy, s.inputs with
  | false, [] => none
  | false, _ :: _ => some .host
  | true, [] => some .core
  | true, _ :: _ => some (s.turns.headD .core)

/-- Strikes the turn that `whoMoves` took from `turns`, if it took one. -/
def State.takeTurn (s : State) : State :=
  if s.busy && !s.inputs.isEmpty then { s with turns := s.turns.tail } else s

/-- The host's 64-bit write of a value at an offset of the window, as an input. -/
def hostWrite (c : Config) (off : Nat) (v : Word) : Input :=
  .access { addr := c.pBase + off, size := 8, kind := .write v }

/-- The host's 64-bit read at an offset of the window, as an input. -/
def hostRead (c : Config) (off : Nat) : Input :=
  .access { addr := c.pBase + off, size := 8, kind := .read }

end Sys2Proof.Machine
end

