-- ==== Sys2Proof/Machine/Step.lean ====
section
/-! DEFINITION. One step of the machine: the core's step, the host's next input, or nothing while the block is idle and
no input waits (spec 10_state.md R30, R52; 60_exceptions.md R271, R276). -/

namespace Sys2Proof.Machine

/-- One step. -/
def step (s : State) : Host.Outcome State Fault Refusal :=
  match s.whoMoves with
  | none => .next s
  | some .core => coreStep s.takeTurn
  | some .host => hostStep s.takeTurn

/-- The command word `w` where the core takes its next command from, LATCH, so that the next step runs it: the state
after the host has written it to CMD and has set GO (R50). See assumption log 4. -/
def State.withFetchWord (s : State) (nbits w : Nat) : State := s.latchWord (tableWord nbits w)

end Sys2Proof.Machine
end

