-- ==== Sys2Proof/Machine/Pseudo.lean ====
section
/-! DEFINITION. How a host issues commands one after another, and the pseudo-instructions (spec 30_encoding.md R113;
70_reset_and_hazards.md R305; 95_test_vectors.md section 3, `issue(w)`). -/

namespace Sys2Proof.Machine

/-- `k` steps, stopping at the first fault or refusal. -/
def stepN : Nat → State → Host.Outcome State Fault Refusal
  | 0, s => .next s
  | k + 1, s =>
    match step s with
    | .next t => stepN k t
    | .fault f => .fault f
    | .refused r => .refused r

/-- The host's three writes that start a command: CMD_LO, CMD_HI, and CTRL with GO and IE = 0. -/
def issueInputs (c : Config) (w : CmdWord) : List Input :=
  [hostWrite c 0x020 (w.extractLsb' 0 64), hostWrite c 0x028 (w.extractLsb' 64 64), hostWrite c 0x008 1#64]

/-- The host issues one command and waits for it: its three writes and the core's step. -/
def issue (i : Instr) (s : State) : Host.Outcome State Fault Refusal :=
  stepN 4 { s with inputs := issueInputs s.cfg (encode i) }

/-- The host issues commands one after another, waiting for completion between them (R305). -/
def issueAll : List Instr → State → Host.Outcome State Fault Refusal
  | [], s => .next s
  | i :: is, s =>
    match issue i s with
    | .next t => issueAll is t
    | .fault f => .fault f
    | .refused r => .refused r

/-- The pseudo-instructions of R113. -/
inductive Pseudo where
  | mmul     (sz : SizeCode) (res a b m k0 acc : Row)
  | msqr     (sz : SizeCode) (res a m k0 : Row)
  | csub     (sz : SizeCode) (res a m : Row)
  | tomont   (sz : SizeCode) (res a rr m k0 acc : Row)
  | frommont (sz : SizeCode) (res a m k0 acc : Row)
deriving DecidableEq, Repr

/-- `#n` and `#2n` as length fields; 2n is at most 158 (R113). -/
def lenOf (n : Nat) : Len := BitVec.ofNat 8 n

/-- MMUL's command sequence. -/
def expandMmul (sz : SizeCode) (res a b m k0 acc : Row) : List Instr :=
  [.zero acc (lenOf (2 * digitCount sz)), .addmul sz acc a b, .amred sz res acc m k0]

/-- The command sequence a pseudo-instruction stands for (R113).
DESIGN CHOICE (assumption log 16): where FROMMONT's row `racc+n` exceeds 65535, the spec gives no such row number (rows are
16 bits wide, R105) and does not say what the expansion is; here the sum wraps modulo 2^16. -/
def Pseudo.expand : Pseudo → List Instr
  | .mmul sz res a b m k0 acc => expandMmul sz res a b m k0 acc
  | .msqr sz res a m k0 => [.ams sz res a m k0]
  | .csub sz res a m => [.modsub sz res a m m]
  | .tomont sz res a rr m k0 acc => expandMmul sz res a rr m k0 acc
  | .frommont sz res a m k0 acc =>
      [.copy acc a (lenOf (digitCount sz)),
       .zero (acc + BitVec.ofNat 16 (digitCount sz)) (lenOf (digitCount sz)),
       .amred sz res acc m k0]

end Sys2Proof.Machine
end

