-- ==== Sys2Proof/Safety.lean ====
section
/-! DEFINITION. What counts as a safe run (spec 10_state.md R48; 70_reset_and_hazards.md R303 to R306, R312), and the
invariant of the block's state. -/

namespace Sys2Proof.Machine

/-- The run is a failure: FAULT is not empty (R48, R312), or was not when the reset input emptied it (assumption log 7). -/
def State.failed (s : State) : Bool := !(s.faults.isEmpty && s.earlierFaults.isEmpty)

/-- The outcome of a run that ends here is defined: BUSY = 0 and the run is no failure (R312, R48). -/
def State.outcomeDefined (s : State) : Bool := !s.busy && !s.failed

/-- Every listed byte of the digit memory belongs to a word of the DM window whose eight bytes are all listed, so that each
word is a 64-bit value or `⊥` (R32). -/
def wholeWords (c : Config) (m : Memory) : Bool :=
  m.all fun p =>
    decide (0x100000 ≤ p.1) && decide (p.1 < 0x100000 + 8 * c.lanes * c.rows) && (m.readWord (p.1 - p.1 % 8)).isSome

/-- The relations between the fields of the state that hold after reset and that every step keeps: the digit memory is
canonical and holds whole words inside its window; BUSY = 1 exactly while LATCH is full (R50, R52); while BUSY = 1, DONE and
ERR are 0 (R50); ERRCODE is nonzero exactly when ERR = 1, and at most 6 (R40, R261); the bits of LANEMASK and of the
latched mask above LANES − 1 are 0 (R41, R46); neither FAULT nor the record of
its earlier entries lists one twice (R48). -/
structure State.Inv (s : State) : Prop where
  memory     : s.dm.wf = true
  words      : wholeWords s.cfg s.dm = true
  latched    : s.busy = s.latch.isSome
  running    : s.busy = true → s.done = false ∧ s.err = false
  code       : s.err = true ↔ s.errCode ≠ 0#8
  codeBound  : s.errCode.toNat ≤ 6
  laneMask   : s.laneMask.toNat < 2 ^ s.cfg.lanes
  latchMask  : ∀ k, s.latch = some k → k.mask.toNat < 2 ^ s.cfg.lanes
  faultsOnce : s.faults.Nodup
  earlierFaultsOnce : s.earlierFaults.Nodup

end Sys2Proof.Machine
end

