-- ==== Sys2Proof/Certificates/Slice0/Obligations.lean ====
section
/-! DEFINITION. The statements for the provers. The vocabulary they share stands first, written from the spec and not from
the model's own functions: the value of a digit array as the sum of R14, the digits of a number by division and remainder,
and the words of a region one by one. `Laws/Digits.lean` (`val_eq_sum`, `digits_getElem?`, `normalised_iff`) and
`Laws/Command.lean` (`regionWords_eq_some_iff`) say the same of the model's functions. -/

namespace Sys2Proof.Claims

open Sys2Proof.Machine

/-- `Σ d_i · 2^(52·i)` over the words of a digit array (R14). -/
def digitSum (a : List Word) : Nat := ∑ i ∈ Finset.range a.length, (a.getD i 0#64).toNat * 2 ^ (52 * i)

/-- Every word is below 2^52 (R14). -/
def AllDigits (a : List Word) : Prop := ∀ w ∈ a, w.toNat < 2 ^ 52

/-- Lane `l` of the region that starts at row `r` holds these words (none of them is `⊥`). -/
abbrev Present (s : State) (r : Row) (l : Nat) (a : List Word) : Prop :=
  ∀ i, i < a.length → s.word (r.toNat + i) l = a[i]?

/-- Lane `l` of the `n` rows from `row` on holds `Digits(v, n)` (R14). -/
abbrev HoldsDigits (t : State) (row l n v : Nat) : Prop :=
  ∀ i, i < n → (t.word (row + i) l).map BitVec.toNat = some (v / 2 ^ (52 * i) % 2 ^ 52)

/-- The core is about to run the latched command `k`, and the digit memory is in its canonical form (an invariant:
`StepKeepsInvariant`). -/
abbrev Ready (s : State) (k : Latch) : Prop := s.latch = some k ∧ s.dm.wf = true

/-- Lane `l` is active for the latched command (R15). -/
abbrev Active (s : State) (k : Latch) (l : Nat) : Prop := l < s.cfg.lanes ∧ k.mask.getLsbD l = true

/-- The region of `len` rows from row `r` on lies below DM_ROWS (R70). -/
abbrev InRange (s : State) (r : Row) (len : Nat) : Prop := r.toNat + len ≤ s.cfg.rows

/-- Two regions share no row. -/
abbrev Apart (r₁ : Row) (n₁ : Nat) (r₂ : Row) (n₂ : Nat) : Prop :=
  r₁.toNat + n₁ ≤ r₂.toNat ∨ r₂.toNat + n₂ ≤ r₁.toNat

/-- `t` is `s` after a normal completion (R52, R260): LATCH empty, BUSY = 0, DONE = 1, and no other register or status bit
changed. -/
def Completed (s t : State) : Prop :=
  t.latch = none ∧ t.busy = false ∧ t.done = true ∧ t.err = s.err ∧ t.errCode = s.errCode ∧ t.ovr = s.ovr ∧
    t.ie = s.ie ∧ t.laneMask = s.laneMask ∧ t.cmdLo = s.cmdLo ∧ t.cmdHi = s.cmdHi

/-- The command adds no entry for lane `l` to FAULT. -/
def NoNewFault (s t : State) (k : Latch) (l : Nat) : Prop :=
  ∀ u, FaultEntry.command u k.cmd l ∈ t.faults → FaultEntry.command u k.cmd l ∈ s.faults

/-- Lane `l` ends in the UB fault `u` (R264): it is recorded with the command word and the lane, it is the only entry the
command adds for the lane, and every word of the destination region is `⊥` in the lane. -/
def EndsInFault (s t : State) (k : Latch) (rd : Row) (len l : Nat) (u : UBReason) : Prop :=
  FaultEntry.command u k.cmd l ∈ t.faults ∧
    (∀ u', u' ≠ u → FaultEntry.command u' k.cmd l ∈ t.faults → FaultEntry.command u' k.cmd l ∈ s.faults) ∧
    ∀ i, i < len → t.word (rd.toNat + i) l = none

/-- `match` of the opcode map (R108). -/
def pattern : Opcode → CmdWord
  | .norm => 0x00000000000000000000000000000010#128
  | .normclr => 0x00000000000000000000000000000011#128
  | .normsqr => 0x00000000000000000000000000000012#128
  | .normtop => 0x00000000000000000000000000000013#128
  | .shl => 0x00000000000000000000000000000014#128
  | .shr => 0x00000000000000000000000000000015#128
  | .zero => 0x00000000000000000000000000000018#128
  | .copy => 0x00000000000000000000000000000019#128
  | .cmpge => 0x0000000000000000000000000000001A#128
  | .addmul => 0x00000000000000000000000000000001#128
  | .amred => 0x00000000000000000000000000000002#128
  | .ams => 0x00000000000000000000000000000003#128
  | .modsub => 0x00000000000000000000000000000004#128
  | .estq => 0x00000000000000000000000000000008#128
  | .mreduce => 0x00000000000000000000000000000009#128
  | .montfactor => 0x0000000000000000000000000000000C#128
  | .montrr => 0x0000000000000000000000000000000D#128

/-- `mask` of the opcode map (R108). -/
def mask : Opcode → CmdWord
  | .norm => 0xFFFFFFFF00000000FFFFFF00FFFFFFFF#128
  | .normclr => 0xFFFFFFFF00000000FFFFFF00FFFFFFFF#128
  | .normsqr => 0xFFFFFFFF00000000FFFFFFFFFFFFF8FF#128
  | .normtop => 0xFFFFFFFF00000000FFFFFFFFFFFFF8FF#128
  | .shl => 0xFFFFFFFF00000000FFFFFF00FFC0FFFF#128
  | .shr => 0xFFFFFFFF00000000FFFFFF00FFC0FFFF#128
  | .zero => 0xFFFFFFFFFFFF0000FFFFFF00FFFFFFFF#128
  | .copy => 0xFFFFFFFF00000000FFFFFF00FFFFFFFF#128
  | .cmpge => 0xFFFF000000000000FFFFFF00FFFFFFFF#128
  | .addmul => 0xFFFF000000000000FFFFFFFFFFFFF8FF#128
  | .amred => 0x0000000000000000FFFFFFFFFFFFF8FF#128
  | .ams => 0x0000000000000000FFFFFFFFFFFFF8FF#128
  | .modsub => 0x0000000000000000FFFFFFFFFFFFF8FF#128
  | .estq => 0xFFFF000000000000FFFFFFFFFFFFFFFF#128
  | .mreduce => 0xFFFFFFFF00000000FFFF0000FFFFFFFF#128
  | .montfactor => 0xFFFFFFFF00000000FFFFFFFFFFFFFFFF#128
  | .montrr => 0xFFFFFFFF00000000FFFFFFFFFFFFF8FF#128

/-- The `n` bits of a command word from bit `lo` on, as a number. -/
def bitsOf (w : CmdWord) (lo n : Nat) : Nat := w.toNat / 2 ^ lo % 2 ^ n

/-- The fields SZ, SH, LX, LM, RD, RA, RB, RC: lowest bit and width (R101). -/
def fieldTable : List (Nat × Nat) := [(8, 3), (16, 6), (32, 8), (40, 8), (64, 16), (80, 16), (96, 16), (112, 16)]

/-- The lowest bits of the fields an opcode uses; `none` for an unassigned opcode (R106, R108, R109). -/
def usedFields (opc : Nat) : Option (List Nat) :=
  if opc ∈ [0x10, 0x11, 0x19] then some [32, 64, 80]
  else if opc ∈ [0x12, 0x13, 0x0D] then some [8, 64, 80]
  else if opc ∈ [0x14, 0x15] then some [16, 32, 64, 80]
  else if opc = 0x18 then some [32, 64]
  else if opc = 0x1A then some [32, 64, 80, 96]
  else if opc = 0x01 then some [8, 64, 80, 96]
  else if opc ∈ [0x02, 0x03, 0x04] then some [8, 64, 80, 96, 112]
  else if opc = 0x08 then some [64, 80, 96]
  else if opc = 0x09 then some [32, 40, 64, 80]
  else if opc = 0x0C then some [64, 80]
  else none

/-- The operand regions of a command word, destination first, as (row, length) pairs (R106). -/
def regionsOf (w : CmdWord) : List (Nat × Nat) :=
  let n := [10, 20, 30, 40, 60, 79].getD (bitsOf w 8 3) 0
  let lx := bitsOf w 32 8
  let lm := bitsOf w 40 8
  let rd := bitsOf w 64 16
  let ra := bitsOf w 80 16
  let rb := bitsOf w 96 16
  let rc := bitsOf w 112 16
  let opc := bitsOf w 0 8
  if opc ∈ [0x10, 0x11, 0x15, 0x19] then [(rd, lx), (ra, lx)]
  else if opc = 0x12 then [(rd, 2 * n), (ra, 2 * n)]
  else if opc ∈ [0x13, 0x0D] then [(rd, n), (ra, n)]
  else if opc = 0x14 then [(rd, lx + 1), (ra, lx)]
  else if opc = 0x18 then [(rd, lx)]
  else if opc = 0x1A then [(rd, 1), (ra, lx), (rb, lx)]
  else if opc = 0x01 then [(rd, 2 * n), (ra, n), (rb, n)]
  else if opc = 0x02 then [(rd, n), (ra, 2 * n), (rb, n), (rc, 1)]
  else if opc = 0x03 then [(rd, n), (ra, n), (rb, n), (rc, 1)]
  else if opc = 0x04 then [(rd, n), (ra, n), (rb, n), (rc, n)]
  else if opc = 0x08 then [(rd, 1), (ra, 3), (rb, 2)]
  else if opc = 0x09 then [(rd, lx), (ra, lm)]
  else if opc = 0x0C then [(rd, 1), (ra, 1)]
  else []

/-- The pseudocode of Validate (R262), as a code. -/
def validateCode (rows : Nat) (w : CmdWord) : Nat :=
  match usedFields (bitsOf w 0 8) with
  | none => 1
  | some used =>
    if bitsOf w 11 5 ≠ 0 ∨ bitsOf w 22 10 ≠ 0 ∨ bitsOf w 48 16 ≠ 0 then 2
    else if fieldTable.any (fun f => !used.contains f.1 && bitsOf w f.1 f.2 != 0) then 2
    else if 8 ∈ used ∧ (bitsOf w 8 3 = 6 ∨ bitsOf w 8 3 = 7) then 3
    else if 32 ∈ used ∧ bitsOf w 32 8 = 0 then 4
    else if 40 ∈ used ∧ bitsOf w 40 8 = 0 then 4
    else if 16 ∈ used ∧ 52 ≤ bitsOf w 16 6 then 5
    else if (regionsOf w).any (fun g => decide (rows < g.1 + g.2)) then 6
    else 0

/-- The host's aligned 64-bit write of `v` at an offset of the window. -/
abbrev writeAt (s : State) (off : Nat) (v : Word) : Host.Outcome State Fault Refusal :=
  s.hostAccess { addr := s.cfg.pBase + off, size := 8, kind := .write v }

/-- The host's aligned 64-bit read at an offset of the window. -/
abbrev readAt (s : State) (off : Nat) : Host.Outcome State Fault Refusal :=
  s.hostAccess { addr := s.cfg.pBase + off, size := 8, kind := .read }

/-- The host's read of `off` returns `v` and changes nothing. -/
abbrev Reads (s : State) (off : Nat) (v : Word) : Prop :=
  readAt s off = .next { s with replies := s.replies ++ [some v] }

/-- `t` is `s` with the host fault `r` of the access `a` recorded in FAULT and nothing else changed; a faulting read
returns no value (R266). -/
def HostFaultOnly (s t : State) (r : HostReason) (a : Access) : Prop :=
  (∀ e, e ∈ t.faults ↔ e ∈ s.faults ∨ e = .host r a) ∧
    t = { s with faults := t.faults, replies := if a.kind = .read then s.replies ++ [none] else s.replies }

/-- The block is idle: BUSY = 0 and LATCH empty; the digit memory is in its canonical form. -/
abbrev Idle (s : State) : Prop := s.busy = false ∧ s.latch = none ∧ s.dm.wf = true

/-- Lane `l` is enabled by LANEMASK. -/
abbrev Enabled (s : State) (l : Nat) : Prop := l < s.cfg.lanes ∧ s.laneMask.getLsbD l = true

/-- No entry for lane `l` was added to FAULT. -/
def LaneClean (s t : State) (l : Nat) : Prop :=
  ∀ u w, FaultEntry.command u w l ∈ t.faults → FaultEntry.command u w l ∈ s.faults

/-- A modulus of W bits in n digits, with the k0 that MONTFACTOR gives its low digit (R241, R306). It is odd. -/
def Context (w : Width) (m : List Word) (k0 : Word) : Prop :=
  m.length = w.digits ∧ AllDigits m ∧ digitSum m < 2 ^ w.bits ∧ k0.toNat < 2 ^ 52 ∧
    (k0.toNat * (digitSum m % 2 ^ 52)) % 2 ^ 52 = 2 ^ 52 - 1

end Sys2Proof.Claims

open Sys2Proof Sys2Proof.Machine Sys2Proof.Claims

/-! ### Encoding -/

/-- R107, R101: no bit of an encoding is dropped. -/
def Obligations.DecodeAfterEncode : Prop := ∀ i : Instr, decode (encode i) = .ok i

/-- R107: each command has one spelling. -/
def Obligations.OneSpellingPerCommand : Prop := ∀ (w : CmdWord) (i : Instr), decode w = .ok i → encode i = w

/-- R108: a word is the command exactly when `(w AND mask) = match`. -/
def Obligations.DecodeFollowsMatchAndMask : Prop :=
  ∀ (w : CmdWord) (op : Opcode), (∃ i, decode w = .ok i ∧ i.opcode = op) ↔ w &&& mask op = pattern op

/-- R109: the unassigned opcodes, and what a command with one does. -/
def Obligations.UnassignedOpcodeIsRefused : Prop :=
  (∀ w : CmdWord, decode w = .error .illegalOpcode ↔
    (w.toNat % 256 ∈ [0x00, 0x05, 0x06, 0x07, 0x0A, 0x0B, 0x0E, 0x0F, 0x16, 0x17] ∨ 0x1B ≤ w.toNat % 256)) ∧
  ∀ (s : State) (k : Latch), s.latch = some k → decode k.cmd = .error .illegalOpcode →
    coreStep s = .next { s with latch := none, busy := false, done := true, err := true, errCode := 1#8 }

/-- Words written out from R101 and R112 decode to the commands they stand for. -/
def Obligations.WrittenWordsDecode : Prop :=
  decode 0x0000001400_0A001E_0000000000000001#128 = .ok (.addmul 0#3 30#16 10#16 20#16) ∧
  decode 0x000000000000000A_0000000200330015#128 = .ok (.shr 10#16 0#16 2#8 51#6) ∧
  decode 0x0000000000040000_0000030400000009#128 = .ok (.mreduce 0#16 4#16 4#8 3#8) ∧
  decode 0x00000000000000C8_000000000000050D#128 = .ok (.montrr 5#3 200#16 0#16)

/-- R8, R102: the widths, digit counts and top bits of the six size codes; 6 and 7 are reserved. -/
def Obligations.SizeCodesSelectWidths : Prop :=
  ∀ sz : SizeCode, (Width.ofCode sz).map (fun w => (w.bits, w.digits, w.topbits)) =
    [(512, 10, 44), (1024, 20, 36), (1536, 30, 28), (2048, 40, 20), (3072, 60, 4), (4096, 79, 40)][sz.toNat]?

/-- R262: Validate is its pseudocode, for every word and every configuration. -/
def Obligations.ValidateFollowsPseudocode : Prop :=
  ∀ (c : Config) (w : CmdWord),
    (match validate c w with | none => 0 | some e => e.code.toNat) = validateCode c.rows w

/-! ### Steps -/

/-- R52: with BUSY = 1 and the core to move, a step is the latched command's meaning. When the core is to move, and that
the turn taken is struck off the list of turns, is the model's choice (assumption log 3). -/
def Obligations.StepRunsDecodedCommand : Prop :=
  ∀ (s : State) (k : Latch) (i : Instr), s.busy = true → s.latch = some k → decode k.cmd = .ok i →
    (s.inputs = [] ∨ s.turns.head? ≠ some .host) →
    step s = exec i { s with turns := if s.inputs = [] then s.turns else s.turns.tail }

/-- R52, R263: with BUSY = 1 and the core to move, a latched word that reads as no command ends in its command error. When
the core is to move, and that the turn taken is struck off the list of turns, is the model's choice (assumption log 3). -/
def Obligations.StepRefusesUnreadableWord : Prop :=
  ∀ (s : State) (k : Latch) (e : CmdError), s.busy = true → s.latch = some k → decode k.cmd = .error e →
    (s.inputs = [] ∨ s.turns.head? ≠ some .host) →
    step s = .next { s with
      turns := if s.inputs = [] then s.turns else s.turns.tail
      latch := none, busy := false, done := true, err := true
      errCode := if e = .illegalOpcode then 1#8 else 2#8 }

/-- R276, R304: while BUSY = 0 and no input waits, the block does nothing. The queue of inputs is the model's own
(assumption log 3). -/
def Obligations.IdleBlockDoesNothing : Prop :=
  ∀ s : State, s.busy = false → s.inputs = [] → step s = .next s

/-- R271: when both can move, either may go first. The list of turns that says which is the model's own (assumption
log 3). -/
def Obligations.EitherAgentMayGoFirst : Prop :=
  ∀ (s : State) (a : Access) (rest : List Input) (ts : List Agent), s.busy = true → s.inputs = .access a :: rest →
    (s.turns = .host :: ts → step s = State.hostAccess { s with inputs := rest, turns := ts } a) ∧
    (s.turns = .core :: ts → step s = coreStep { s with turns := ts })

/-- Every step keeps the invariant of the block's state, and the configuration. -/
def Obligations.StepKeepsInvariant : Prop :=
  ∀ s t : State, s.Inv → step s = .next t → t.Inv ∧ t.cfg = s.cfg

/-- The invariant holds after reset, in every configuration. -/
def Obligations.ResetHasInvariant : Prop := ∀ c : Config, (State.resetWith c).Inv

/-- R53: the state after a power-on reset. -/
def Obligations.ResetValues : Prop :=
  ∀ c : Config, let s := State.resetWith c
    (∀ r l, s.word r l = none) ∧ s.ie = false ∧ Reads s 0x008 0#64 ∧ s.busy = false ∧ s.done = false ∧ s.err = false ∧
      s.ovr = false ∧ s.errCode = 0#8 ∧ s.laneMask.toNat = 2 ^ c.lanes - 1 ∧ s.cmdLo = 0#64 ∧ s.cmdHi = 0#64 ∧
      s.latch = none ∧ s.faults = [] ∧ s.failed = false ∧ irq s = false ∧
      ∃ id : Word, Reads s 0x000 id ∧
        id.toNat = 0x01 + c.lanes * 2 ^ 8 + (c.rows - 1) * 2 ^ 16 + 0x32354D4D * 2 ^ 32

/-- From a state of the invariant, a step stops the machine only on a host access outside the block's window. That it
stops there is the model's choice (assumption log 10). -/
def Obligations.StepStopsOnlyOutsideWindow : Prop :=
  ∀ s : State, s.Inv →
    (∃ t, step s = .next t) ∨
    (step s = .fault .outsideWindow ∧ s.whoMoves = some .host ∧
      ∃ a rest, s.inputs = .access a :: rest ∧ (a.addr < s.cfg.pBase ∨ s.cfg.pBase + 0x500000 ≤ a.addr))

/-- R48: no step loses an entry of FAULT or makes a failed run a success. Every step but the reset input keeps the entries
in FAULT; the reset input, which leaves FAULT empty (R300), keeps them in the record of the entries FAULT held before. That
record is the model's own (assumption log 7). -/
def Obligations.FaultRecordIsKept : Prop :=
  ∀ s t : State, step s = .next t →
    (∀ e, e ∈ s.faults ∨ e ∈ s.earlierFaults → e ∈ t.faults ∨ e ∈ t.earlierFaults) ∧
    (s.failed = true → t.failed = true) ∧
    (¬(s.whoMoves = some .host ∧ s.inputs.head? = some .powerOn) →
      (∀ e ∈ s.faults, e ∈ t.faults) ∧ t.earlierFaults = s.earlierFaults)

/-! ### Every command -/

/-- R72, R74, R52: a command that answers a next state changes no register but LATCH and STATUS, no byte of the digit
memory but those of its destination region's words in its active lanes, and adds to FAULT only entries of its own word in
its active lanes. -/
def Obligations.CommandFrame : Prop :=
  ∀ (i : Instr) (s t : State) (k : Latch), s.latch = some k → exec i s = .next t →
    t.cfg = s.cfg ∧ t.ie = s.ie ∧ t.ovr = s.ovr ∧ t.laneMask = s.laneMask ∧ t.cmdLo = s.cmdLo ∧ t.cmdHi = s.cmdHi ∧
    t.earlierFaults = s.earlierFaults ∧ t.inputs = s.inputs ∧ t.turns = s.turns ∧ t.replies = s.replies ∧
    t.latch = none ∧ t.busy = false ∧ t.done = true ∧
    (∀ e ∈ s.faults, e ∈ t.faults) ∧
    (∀ e ∈ t.faults, e ∈ s.faults ∨ ∃ u l, Active s k l ∧ e = .command u k.cmd l) ∧
    ∀ a, (∀ l j, Active s k l → j < (shape i).dst.len →
        a < dmOffset s.cfg ((shape i).dst.row + j) l ∨ dmOffset s.cfg ((shape i).dst.row + j) l + 8 ≤ a) →
      t.dm.getByte a = s.dm.getByte a

/-- R263: what a command error leaves. -/
def Obligations.CommandErrorLeavesMemory : Prop :=
  ∀ (i : Instr) (s : State) (k : Latch) (e : CmdError), s.latch = some k → validate s.cfg (encode i) = some e →
    exec i s = .next { s with
      latch := none, busy := false, done := true, err := true
      errCode := BitVec.ofNat 8 (validateCode s.cfg.rows (encode i)) }

/-- R71: a `⊥` word among a command's sources is UB_UNINIT in its lane. That it comes before every other reason is read
from R16 and R73 (assumption log 5). -/
def Obligations.UnwrittenSourceFaults : Prop :=
  ∀ (i : Instr) (s : State) (k : Latch) (l j : Nat) (g : Region), Ready s k → validate s.cfg (encode i) = none →
    Active s k l → g ∈ (shape i).srcs → j < g.len → s.word (g.row + j) l = none →
    ∃ t, exec i s = .next t ∧ Completed s t ∧
      FaultEntry.command .uninit k.cmd l ∈ t.faults ∧
      (∀ u, u ≠ .uninit → FaultEntry.command u k.cmd l ∈ t.faults → FaultEntry.command u k.cmd l ∈ s.faults) ∧
      ∀ n, n < (shape i).dst.len → t.word ((shape i).dst.row + n) l = none

/-- R74, R190: a lane's result depends on that lane's words and the command alone, whichever lane they stand in and
whatever the other lanes hold. -/
def Obligations.LanesAreIndependent : Prop :=
  ∀ (i : Instr) (s₁ s₂ t₁ t₂ : State) (k₁ k₂ : Latch) (l₁ l₂ : Nat), s₁.cfg = s₂.cfg → Ready s₁ k₁ → Ready s₂ k₂ →
    Active s₁ k₁ l₁ → Active s₂ k₂ l₂ → (∀ r, r < s₁.cfg.rows → s₁.word r l₁ = s₂.word r l₂) →
    exec i s₁ = .next t₁ → exec i s₂ = .next t₂ →
    (∀ r, r < s₁.cfg.rows → t₁.word r l₁ = t₂.word r l₂) ∧
    ∀ u, FaultEntry.command u k₁.cmd l₁ ∈ t₁.faults →
      FaultEntry.command u k₁.cmd l₁ ∈ s₁.faults ∨ FaultEntry.command u k₂.cmd l₂ ∈ t₂.faults

/-- R41, R74: with no lane active a command completes and touches nothing. -/
def Obligations.NoActiveLaneTouchesNothing : Prop :=
  ∀ (i : Instr) (s : State) (k : Latch), s.latch = some k → (∀ l, ¬ Active s k l) → validate s.cfg (encode i) = none →
    exec i s = .next { s with latch := none, busy := false, done := true }

/-! ### Digit normalisation, shifts and lane primitives -/

/-- R141. -/
def Obligations.NormCarriesIntoTopWord : Prop :=
  ∀ (s : State) (k : Latch) (rd ra : Row) (lx : Len), Ready s k → lx ≠ 0#8 → InRange s rd lx.toNat →
    InRange s ra lx.toNat →
    (encode (.norm rd ra lx)).toNat = 0x10 + lx.toNat * 2 ^ 32 + rd.toNat * 2 ^ 64 + ra.toNat * 2 ^ 80 ∧
    ∃ t, exec (.norm rd ra lx) s = .next t ∧ Completed s t ∧
      ∀ (l : Nat) (a : List Word), Active s k l → a.length = lx.toNat → Present s ra l a →
        let v := digitSum a
        let top := v / 2 ^ (52 * (lx.toNat - 1))
        (top < 2 ^ 64 → NoNewFault s t k l ∧ HoldsDigits t rd.toNat l (lx.toNat - 1) v ∧
          t.word (rd.toNat + (lx.toNat - 1)) l = some (BitVec.ofNat 64 top)) ∧
        (2 ^ 64 ≤ top → EndsInFault s t k rd lx.toNat l .range)

/-- R142. -/
def Obligations.NormclrDiscardsTopCarry : Prop :=
  ∀ (s : State) (k : Latch) (rd ra : Row) (lx : Len), Ready s k → lx ≠ 0#8 → InRange s rd lx.toNat →
    InRange s ra lx.toNat →
    (encode (.normclr rd ra lx)).toNat = 0x11 + lx.toNat * 2 ^ 32 + rd.toNat * 2 ^ 64 + ra.toNat * 2 ^ 80 ∧
    ∃ t, exec (.normclr rd ra lx) s = .next t ∧ Completed s t ∧
      ∀ (l : Nat) (a : List Word), Active s k l → a.length = lx.toNat → Present s ra l a →
        NoNewFault s t k l ∧ HoldsDigits t rd.toNat l lx.toNat (digitSum a)

/-- R143. -/
def Obligations.NormsqrCarriesFromDigitN : Prop :=
  ∀ (s : State) (k : Latch) (sz : SizeCode) (w : Width) (rd ra : Row), Ready s k → Width.ofCode sz = some w →
    InRange s rd (2 * w.digits) → InRange s ra (2 * w.digits) →
    (encode (.normsqr sz rd ra)).toNat = 0x12 + sz.toNat * 2 ^ 8 + rd.toNat * 2 ^ 64 + ra.toNat * 2 ^ 80 ∧
    ∃ t, exec (.normsqr sz rd ra) s = .next t ∧ Completed s t ∧
      ∀ (l : Nat) (low high : List Word), Active s k l → low.length = w.digits → high.length = w.digits →
        Present s ra l (low ++ high) →
        let h := digitSum high
        let top := h / 2 ^ (52 * (w.digits - 1))
        (¬ AllDigits low → EndsInFault s t k rd (2 * w.digits) l .nonnorm) ∧
        (AllDigits low → 2 ^ 64 ≤ top → EndsInFault s t k rd (2 * w.digits) l .range) ∧
        (AllDigits low → top < 2 ^ 64 → NoNewFault s t k l ∧
          (∀ i, i < w.digits → t.word (rd.toNat + i) l = low[i]?) ∧
          HoldsDigits t (rd.toNat + w.digits) l (w.digits - 1) h ∧
          t.word (rd.toNat + (2 * w.digits - 1)) l = some (BitVec.ofNat 64 top))

/-- R144. -/
def Obligations.NormtopMasksToWidth : Prop :=
  ∀ (s : State) (k : Latch) (sz : SizeCode) (w : Width) (rd ra : Row), Ready s k → Width.ofCode sz = some w →
    InRange s rd w.digits → InRange s ra w.digits →
    (encode (.normtop sz rd ra)).toNat = 0x13 + sz.toNat * 2 ^ 8 + rd.toNat * 2 ^ 64 + ra.toNat * 2 ^ 80 ∧
    ∃ t, exec (.normtop sz rd ra) s = .next t ∧ Completed s t ∧
      ∀ (l : Nat) (a : List Word), Active s k l → a.length = w.digits → Present s ra l a →
        NoNewFault s t k l ∧ HoldsDigits t rd.toNat l w.digits (digitSum a % 2 ^ w.bits)

/-- R145. -/
def Obligations.ShlMultipliesByPower : Prop :=
  ∀ (s : State) (k : Latch) (rd ra : Row) (lx : Len) (sh : Shift), Ready s k → lx ≠ 0#8 →
    InRange s rd (lx.toNat + 1) → InRange s ra lx.toNat →
    (encode (.shl rd ra lx sh)).toNat =
      0x14 + sh.toNat * 2 ^ 16 + lx.toNat * 2 ^ 32 + rd.toNat * 2 ^ 64 + ra.toNat * 2 ^ 80 ∧
    (52 ≤ sh.toNat → exec (.shl rd ra lx sh) s = .next { s with
      latch := none, busy := false, done := true, err := true, errCode := 5#8 }) ∧
    (sh.toNat < 52 → ∃ t, exec (.shl rd ra lx sh) s = .next t ∧ Completed s t ∧
      ∀ (l : Nat) (a : List Word), Active s k l → a.length = lx.toNat → Present s ra l a →
        (AllDigits a → NoNewFault s t k l ∧ HoldsDigits t rd.toNat l (lx.toNat + 1) (digitSum a * 2 ^ sh.toNat)) ∧
        (¬ AllDigits a → EndsInFault s t k rd (lx.toNat + 1) l .nonnorm))

/-- R146. -/
def Obligations.ShrDividesByPower : Prop :=
  ∀ (s : State) (k : Latch) (rd ra : Row) (lx : Len) (sh : Shift), Ready s k → lx ≠ 0#8 →
    InRange s rd lx.toNat → InRange s ra lx.toNat →
    (encode (.shr rd ra lx sh)).toNat =
      0x15 + sh.toNat * 2 ^ 16 + lx.toNat * 2 ^ 32 + rd.toNat * 2 ^ 64 + ra.toNat * 2 ^ 80 ∧
    (52 ≤ sh.toNat → exec (.shr rd ra lx sh) s = .next { s with
      latch := none, busy := false, done := true, err := true, errCode := 5#8 }) ∧
    (sh.toNat < 52 → ∃ t, exec (.shr rd ra lx sh) s = .next t ∧ Completed s t ∧
      ∀ (l : Nat) (a : List Word), Active s k l → a.length = lx.toNat → Present s ra l a →
        (AllDigits a → NoNewFault s t k l ∧ HoldsDigits t rd.toNat l lx.toNat (digitSum a / 2 ^ sh.toNat)) ∧
        (¬ AllDigits a → EndsInFault s t k rd lx.toNat l .nonnorm))

/-- R147. -/
def Obligations.ZeroWritesZeros : Prop :=
  ∀ (s : State) (k : Latch) (rd : Row) (lx : Len), Ready s k → lx ≠ 0#8 → InRange s rd lx.toNat →
    (encode (.zero rd lx)).toNat = 0x18 + lx.toNat * 2 ^ 32 + rd.toNat * 2 ^ 64 ∧
    ∃ t, exec (.zero rd lx) s = .next t ∧ Completed s t ∧ t.faults = s.faults ∧
      ∀ l i, Active s k l → i < lx.toNat → t.word (rd.toNat + i) l = some 0#64

/-- R148. -/
def Obligations.CopyMovesWords : Prop :=
  ∀ (s : State) (k : Latch) (rd ra : Row) (lx : Len), Ready s k → lx ≠ 0#8 → InRange s rd lx.toNat →
    InRange s ra lx.toNat →
    (encode (.copy rd ra lx)).toNat = 0x19 + lx.toNat * 2 ^ 32 + rd.toNat * 2 ^ 64 + ra.toNat * 2 ^ 80 ∧
    ∃ t, exec (.copy rd ra lx) s = .next t ∧ Completed s t ∧
      ∀ (l : Nat) (a : List Word), Active s k l → a.length = lx.toNat → Present s ra l a →
        NoNewFault s t k l ∧ Present t rd l a

/-- R149. -/
def Obligations.CmpgeComparesValues : Prop :=
  ∀ (s : State) (k : Latch) (rd ra rb : Row) (lx : Len), Ready s k → lx ≠ 0#8 → InRange s rd 1 →
    InRange s ra lx.toNat → InRange s rb lx.toNat →
    (encode (.cmpge rd ra rb lx)).toNat =
      0x1A + lx.toNat * 2 ^ 32 + rd.toNat * 2 ^ 64 + ra.toNat * 2 ^ 80 + rb.toNat * 2 ^ 96 ∧
    ∃ t, exec (.cmpge rd ra rb lx) s = .next t ∧ Completed s t ∧
      ∀ (l : Nat) (a b : List Word), Active s k l → a.length = lx.toNat → b.length = lx.toNat → Present s ra l a →
        Present s rb l b →
        (AllDigits a → AllDigits b → NoNewFault s t k l ∧
          t.word rd.toNat l = some (if digitSum b ≤ digitSum a then 0xFFFFFFFFFFFFFFFF#64 else 0#64)) ∧
        (¬(AllDigits a ∧ AllDigits b) → EndsInFault s t k rd 1 l .nonnorm)

/-- R150: normalising a normalised digit array is a no-op. -/
def Obligations.NormalisationIsIdempotent : Prop :=
  ∀ (s : State) (k : Latch) (rd ra : Row) (l : Nat) (a : List Word), Ready s k → Active s k l → AllDigits a →
    Present s ra l a → InRange s rd a.length → InRange s ra a.length →
    (∀ lx : Len, lx ≠ 0#8 → lx.toNat = a.length →
      (∃ t, exec (.norm rd ra lx) s = .next t ∧ Present t rd l a) ∧
      ∃ t, exec (.normclr rd ra lx) s = .next t ∧ Present t rd l a) ∧
    ∀ (sz : SizeCode) (w : Width), Width.ofCode sz = some w → w.digits = a.length →
      (a.getD (w.digits - 1) 0#64).toNat < 2 ^ w.topbits →
      ∃ t, exec (.normtop sz rd ra) s = .next t ∧ Present t rd l a

/-! ### Montgomery multiply, reduce, square and modular subtraction -/

/-- R181. -/
def Obligations.AddmulAccumulatesProduct : Prop :=
  ∀ (s : State) (k : Latch) (sz : SizeCode) (w : Width) (rd ra rb : Row), Ready s k → Width.ofCode sz = some w →
    InRange s rd (2 * w.digits) → InRange s ra w.digits → InRange s rb w.digits →
    (encode (.addmul sz rd ra rb)).toNat =
      0x01 + sz.toNat * 2 ^ 8 + rd.toNat * 2 ^ 64 + ra.toNat * 2 ^ 80 + rb.toNat * 2 ^ 96 ∧
    ∃ t, exec (.addmul sz rd ra rb) s = .next t ∧ Completed s t ∧
      ∀ (l : Nat) (acc a b : List Word), Active s k l → acc.length = 2 * w.digits → a.length = w.digits →
        b.length = w.digits → Present s rd l acc → Present s ra l a → Present s rb l b →
        let v := digitSum acc + digitSum a * digitSum b
        (¬(AllDigits acc ∧ AllDigits a ∧ AllDigits b) → EndsInFault s t k rd (2 * w.digits) l .nonnorm) ∧
        (AllDigits acc → AllDigits a → AllDigits b → 2 ^ (104 * w.digits) ≤ v →
          EndsInFault s t k rd (2 * w.digits) l .range) ∧
        (AllDigits acc → AllDigits a → AllDigits b → v < 2 ^ (104 * w.digits) →
          NoNewFault s t k l ∧ HoldsDigits t rd.toNat l (2 * w.digits) v)

/-- R182, R185: AMRED's result is `(acc + Y·M) / R` for the one Y in [0, R) that makes the division exact. -/
def Obligations.AmredDividesByR : Prop :=
  ∀ (s : State) (k : Latch) (sz : SizeCode) (w : Width) (rd ra rb rc : Row), Ready s k → Width.ofCode sz = some w →
    InRange s rd w.digits → InRange s ra (2 * w.digits) → InRange s rb w.digits → InRange s rc 1 →
    (encode (.amred sz rd ra rb rc)).toNat =
      0x02 + sz.toNat * 2 ^ 8 + rd.toNat * 2 ^ 64 + ra.toNat * 2 ^ 80 + rb.toNat * 2 ^ 96 + rc.toNat * 2 ^ 112 ∧
    ∃ t, exec (.amred sz rd ra rb rc) s = .next t ∧ Completed s t ∧
      ∀ (l : Nat) (acc m : List Word) (k0 : Word), Active s k l → acc.length = 2 * w.digits → m.length = w.digits →
        Present s ra l acc → Present s rb l m → Present s rc l [k0] →
        let r := 2 ^ (52 * w.digits)
        let good := (k0.toNat * (digitSum m % 2 ^ 52)) % 2 ^ 52 = 2 ^ 52 - 1
        (¬(AllDigits acc ∧ AllDigits m ∧ AllDigits [k0]) → EndsInFault s t k rd w.digits l .nonnorm) ∧
        (AllDigits acc → AllDigits m → AllDigits [k0] → ¬ good → EndsInFault s t k rd w.digits l .k0) ∧
        (AllDigits acc → AllDigits m → AllDigits [k0] → good →
          ∃ y, y < r ∧ (digitSum acc + y * digitSum m) % r = 0 ∧
            (∀ y', y' < r → (digitSum acc + y' * digitSum m) % r = 0 → y' = y) ∧
            ((digitSum acc + y * digitSum m) / r < r → NoNewFault s t k l ∧
              HoldsDigits t rd.toNat l w.digits ((digitSum acc + y * digitSum m) / r)) ∧
            (r ≤ (digitSum acc + y * digitSum m) / r → EndsInFault s t k rd w.digits l .range))

/-- R186: a result of AMRED is below 2M when acc < R·M, and UB_RANGE needs acc ≥ R·(R − M). -/
def Obligations.AmredStaysBelowTwiceModulus : Prop :=
  ∀ (s t : State) (k : Latch) (sz : SizeCode) (w : Width) (rd ra rb rc : Row) (l : Nat) (acc m : List Word)
    (k0 : Word), Ready s k → Width.ofCode sz = some w → InRange s rd w.digits → InRange s ra (2 * w.digits) →
    InRange s rb w.digits → InRange s rc 1 → Active s k l → acc.length = 2 * w.digits → m.length = w.digits →
    Present s ra l acc → Present s rb l m → Present s rc l [k0] → AllDigits acc → AllDigits m → AllDigits [k0] →
    (k0.toNat * (digitSum m % 2 ^ 52)) % 2 ^ 52 = 2 ^ 52 - 1 → exec (.amred sz rd ra rb rc) s = .next t →
    (digitSum acc < 2 ^ (52 * w.digits) * digitSum m →
      (∃ v, v < 2 * digitSum m ∧ HoldsDigits t rd.toNat l w.digits v) ∨ EndsInFault s t k rd w.digits l .range) ∧
    (digitSum acc < 2 ^ (52 * w.digits) * (2 ^ (52 * w.digits) - digitSum m) → NoNewFault s t k l)

/-- R183: AMS is AMRED of the exact square. -/
def Obligations.AmsReducesSquare : Prop :=
  ∀ (s : State) (k : Latch) (sz : SizeCode) (w : Width) (rd ra rb rc : Row), Ready s k → Width.ofCode sz = some w →
    InRange s rd w.digits → InRange s ra w.digits → InRange s rb w.digits → InRange s rc 1 →
    (encode (.ams sz rd ra rb rc)).toNat =
      0x03 + sz.toNat * 2 ^ 8 + rd.toNat * 2 ^ 64 + ra.toNat * 2 ^ 80 + rb.toNat * 2 ^ 96 + rc.toNat * 2 ^ 112 ∧
    ∃ t, exec (.ams sz rd ra rb rc) s = .next t ∧ Completed s t ∧
      ∀ (l : Nat) (a m : List Word) (k0 : Word), Active s k l → a.length = w.digits → m.length = w.digits →
        Present s ra l a → Present s rb l m → Present s rc l [k0] →
        let r := 2 ^ (52 * w.digits)
        let good := (k0.toNat * (digitSum m % 2 ^ 52)) % 2 ^ 52 = 2 ^ 52 - 1
        (¬(AllDigits a ∧ AllDigits m ∧ AllDigits [k0]) → EndsInFault s t k rd w.digits l .nonnorm) ∧
        (AllDigits a → AllDigits m → AllDigits [k0] → ¬ good → EndsInFault s t k rd w.digits l .k0) ∧
        (AllDigits a → AllDigits m → AllDigits [k0] → good →
          ∃ y, y < r ∧ (digitSum a * digitSum a + y * digitSum m) % r = 0 ∧
            (∀ y', y' < r → (digitSum a * digitSum a + y' * digitSum m) % r = 0 → y' = y) ∧
            ((digitSum a * digitSum a + y * digitSum m) / r < r → NoNewFault s t k l ∧
              HoldsDigits t rd.toNat l w.digits ((digitSum a * digitSum a + y * digitSum m) / r)) ∧
            (r ≤ (digitSum a * digitSum a + y * digitSum m) / r → EndsInFault s t k rd w.digits l .range))

/-- R184. -/
def Obligations.ModsubAddsBackOnce : Prop :=
  ∀ (s : State) (k : Latch) (sz : SizeCode) (w : Width) (rd ra rb rc : Row), Ready s k → Width.ofCode sz = some w →
    InRange s rd w.digits → InRange s ra w.digits → InRange s rb w.digits → InRange s rc w.digits →
    (encode (.modsub sz rd ra rb rc)).toNat =
      0x04 + sz.toNat * 2 ^ 8 + rd.toNat * 2 ^ 64 + ra.toNat * 2 ^ 80 + rb.toNat * 2 ^ 96 + rc.toNat * 2 ^ 112 ∧
    ∃ t, exec (.modsub sz rd ra rb rc) s = .next t ∧ Completed s t ∧
      ∀ (l : Nat) (a b m : List Word), Active s k l → a.length = w.digits → b.length = w.digits →
        m.length = w.digits → Present s ra l a → Present s rb l b → Present s rc l m →
        (¬(AllDigits a ∧ AllDigits b ∧ AllDigits m) → EndsInFault s t k rd w.digits l .nonnorm) ∧
        (AllDigits a → AllDigits b → AllDigits m → digitSum a + digitSum m < digitSum b →
          EndsInFault s t k rd w.digits l .range) ∧
        (AllDigits a → AllDigits b → AllDigits m → digitSum b ≤ digitSum a + digitSum m →
          NoNewFault s t k l ∧ HoldsDigits t rd.toNat l w.digits
            (if digitSum b ≤ digitSum a then digitSum a - digitSum b else digitSum a + digitSum m - digitSum b))

/-- R187: almost-Montgomery multiplication stays almost reduced. -/
def Obligations.MmulStaysAlmostReduced : Prop :=
  ∀ (s : State) (sz : SizeCode) (w : Width) (res ra rb rm rk racc : Row), Idle s → Width.ofCode sz = some w →
    InRange s res w.digits → InRange s ra w.digits → InRange s rb w.digits → InRange s rm w.digits →
    InRange s rk 1 → InRange s racc (2 * w.digits) →
    Apart racc (2 * w.digits) ra w.digits → Apart racc (2 * w.digits) rb w.digits →
    Apart racc (2 * w.digits) rm w.digits → Apart racc (2 * w.digits) rk 1 →
    ∃ t, issueAll (Pseudo.expand (.mmul sz res ra rb rm rk racc)) s = .next t ∧ Idle t ∧
      ∀ (l : Nat) (a b m : List Word) (k0 : Word), Enabled s l → Context w m k0 → a.length = w.digits →
        b.length = w.digits → AllDigits a → AllDigits b → digitSum a < 2 * digitSum m →
        digitSum b < 2 * digitSum m → Present s ra l a → Present s rb l b → Present s rm l m →
        Present s rk l [k0] →
        LaneClean s t l ∧ ∃ v, HoldsDigits t res.toNat l w.digits v ∧ v < 2 * digitSum m ∧
          v * 2 ^ (52 * w.digits) % digitSum m = digitSum a * digitSum b % digitSum m

/-- R188: the Montgomery round trip is exact. -/
def Obligations.MontgomeryRoundTripIsExact : Prop :=
  ∀ (s : State) (sz : SizeCode) (w : Width) (res rx ra rrr rm rk racc : Row), Idle s → Width.ofCode sz = some w →
    InRange s res w.digits → InRange s rx w.digits → InRange s ra w.digits → InRange s rrr w.digits →
    InRange s rm w.digits → InRange s rk 1 → InRange s racc (2 * w.digits) →
    Apart racc (2 * w.digits) ra w.digits → Apart racc (2 * w.digits) rrr w.digits →
    Apart racc (2 * w.digits) rm w.digits → Apart racc (2 * w.digits) rk 1 →
    Apart rx w.digits rm w.digits → Apart rx w.digits rk 1 →
    ∃ t, issueAll (Pseudo.expand (.tomont sz rx ra rrr rm rk racc) ++ Pseudo.expand (.frommont sz res rx rm rk racc)) s
        = .next t ∧
      ∀ (l : Nat) (a rr m : List Word) (k0 : Word), Enabled s l → Context w m k0 → a.length = w.digits →
        rr.length = w.digits → AllDigits a → AllDigits rr → digitSum a < digitSum m →
        digitSum rr = (2 ^ (52 * w.digits)) ^ 2 % digitSum m → Present s ra l a → Present s rrr l rr →
        Present s rm l m → Present s rk l [k0] →
        LaneClean s t l ∧ Present t res l a

/-- R189: AMS writes the words that ZERO, ADDMUL with a = b, and AMRED write, whatever the lane holds; and it raises the
faults that AMRED raises on normalised operands. -/
def Obligations.SquaringEquivalence : Prop :=
  ∀ (s : State) (sz : SizeCode) (w : Width) (res ra rm rk racc : Row), Idle s → Width.ofCode sz = some w →
    InRange s res w.digits → InRange s ra w.digits → InRange s rm w.digits → InRange s rk 1 →
    InRange s racc (2 * w.digits) → Apart racc (2 * w.digits) ra w.digits →
    Apart racc (2 * w.digits) rm w.digits → Apart racc (2 * w.digits) rk 1 →
    ∃ t₁ t₂,
      issueAll [.zero racc (lenOf (2 * w.digits)), .addmul sz racc ra ra, .amred sz res racc rm rk] s = .next t₁ ∧
      issue (.ams sz res ra rm rk) s = .next t₂ ∧
      (∀ l i, Enabled s l → i < w.digits → t₁.word (res.toNat + i) l = t₂.word (res.toNat + i) l) ∧
      ∀ (l : Nat) (a m : List Word) (k0 : Word) (u : UBReason), s.faults = [] → Enabled s l → a.length = w.digits →
        m.length = w.digits → AllDigits a → AllDigits m → AllDigits [k0] → Present s ra l a → Present s rm l m →
        Present s rk l [k0] →
        (FaultEntry.command u (encode (.amred sz res racc rm rk)) l ∈ t₁.faults ↔
          FaultEntry.command u (encode (.ams sz res ra rm rk)) l ∈ t₂.faults)

/-! ### Quotient-digit estimation and long-division reduction -/

/-- R211. -/
def Obligations.EstqDividesThreeDigitsByTwo : Prop :=
  ∀ (s : State) (k : Latch) (rd ra rb : Row), Ready s k → InRange s rd 1 → InRange s ra 3 → InRange s rb 2 →
    (encode (.estq rd ra rb)).toNat = 0x08 + rd.toNat * 2 ^ 64 + ra.toNat * 2 ^ 80 + rb.toNat * 2 ^ 96 ∧
    ∃ t, exec (.estq rd ra rb) s = .next t ∧ Completed s t ∧
      ∀ (l : Nat) (u0 u1 u2 v0 v1 : Word), Active s k l → Present s ra l [u0, u1, u2] → Present s rb l [v0, v1] →
        let u3 := u2.toNat * 2 ^ 104 + u1.toNat * 2 ^ 52 + u0.toNat
        let v2 := v1.toNat * 2 ^ 52 + v0.toNat
        (¬ AllDigits [u0, u1, u2, v0, v1] → EndsInFault s t k rd 1 l .nonnorm) ∧
        (AllDigits [u0, u1, u2, v0, v1] → v1.toNat < 2 ^ 51 → EndsInFault s t k rd 1 l .divisor) ∧
        (AllDigits [u0, u1, u2, v0, v1] → 2 ^ 51 ≤ v1.toNat → NoNewFault s t k l ∧
          (t.word rd.toNat l).map BitVec.toNat = some (min (u3 / v2) (2 ^ 52 - 1)))

/-- R214, R212: MREDUCE's result is `x mod M`. -/
def Obligations.MreduceIsRemainder : Prop :=
  ∀ (s : State) (k : Latch) (rd ra : Row) (lx lm : Len), Ready s k → lx ≠ 0#8 → lm ≠ 0#8 → InRange s rd lx.toNat →
    InRange s ra lm.toNat →
    (encode (.mreduce rd ra lx lm)).toNat =
      0x09 + lx.toNat * 2 ^ 32 + lm.toNat * 2 ^ 40 + rd.toNat * 2 ^ 64 + ra.toNat * 2 ^ 80 ∧
    ∃ t, exec (.mreduce rd ra lx lm) s = .next t ∧ Completed s t ∧
      ∀ (l : Nat) (x m : List Word), Active s k l → x.length = lx.toNat → m.length = lm.toNat → Present s rd l x →
        Present s ra l m →
        (¬(AllDigits x ∧ AllDigits m) → EndsInFault s t k rd lx.toNat l .nonnorm) ∧
        (AllDigits x → AllDigits m → m.getD (lm.toNat - 1) 0#64 = 0#64 →
          EndsInFault s t k rd lx.toNat l .topDigit) ∧
        (AllDigits x → AllDigits m → m.getD (lm.toNat - 1) 0#64 ≠ 0#64 →
          NoNewFault s t k l ∧ HoldsDigits t rd.toNat l lx.toNat (digitSum x % digitSum m))

/-- R213: in every iteration of MREDUCE the estimate is the true quotient digit or one more. The dividend before position
`j` is what the positions above `j`, from LX − LM down, leave of the shifted dividend. -/
def Obligations.EstimateIsWithinOne : Prop :=
  ∀ (x m : List Word) (j : Nat), AllDigits x → AllDigits m → m.getD (m.length - 1) 0#64 ≠ 0#64 →
    j + m.length ≤ x.length →
    let lm := m.length
    let sh := normShift m lm
    let mn := digits (digitSum m * 2 ^ sh) lm
    let xs := (List.range (x.length - lm - j)).foldl (fun xs i => divideStep mn lm (x.length - lm - i) xs)
      (digits (digitSum x * 2 ^ sh) (x.length + 1))
    let trueQ := digitSum ((xs.drop j).take (lm + 1)) / (digitSum m * 2 ^ sh)
    trueQ ≤ estimateAt xs mn lm j ∧ estimateAt xs mn lm j ≤ trueQ + 1

/-! ### Montgomery constant precomputation -/

/-- R241. -/
def Obligations.MontfactorIsNegatedInverse : Prop :=
  ∀ (s : State) (k : Latch) (rd ra : Row), Ready s k → InRange s rd 1 → InRange s ra 1 →
    (encode (.montfactor rd ra)).toNat = 0x0C + rd.toNat * 2 ^ 64 + ra.toNat * 2 ^ 80 ∧
    ∃ t, exec (.montfactor rd ra) s = .next t ∧ Completed s t ∧
      ∀ (l : Nat) (m0 : Word), Active s k l → Present s ra l [m0] →
        (2 ^ 52 ≤ m0.toNat → EndsInFault s t k rd 1 l .nonnorm) ∧
        (m0.toNat < 2 ^ 52 → m0.toNat % 2 = 0 → EndsInFault s t k rd 1 l .evenModulus) ∧
        (m0.toNat < 2 ^ 52 → m0.toNat % 2 = 1 → NoNewFault s t k l ∧
          ∃ k0 : Word, t.word rd.toNat l = some k0 ∧ k0.toNat < 2 ^ 52 ∧ (m0.toNat * k0.toNat) % 2 ^ 52 = 2 ^ 52 - 1 ∧
            ∀ k', k' < 2 ^ 52 → (m0.toNat * k') % 2 ^ 52 = 2 ^ 52 - 1 → k' = k0.toNat)

/-- R242. -/
def Obligations.MontrrIsSquareOfR : Prop :=
  ∀ (s : State) (k : Latch) (sz : SizeCode) (w : Width) (rd ra : Row), Ready s k → Width.ofCode sz = some w →
    InRange s rd w.digits → InRange s ra w.digits →
    (encode (.montrr sz rd ra)).toNat = 0x0D + sz.toNat * 2 ^ 8 + rd.toNat * 2 ^ 64 + ra.toNat * 2 ^ 80 ∧
    ∃ t, exec (.montrr sz rd ra) s = .next t ∧ Completed s t ∧
      ∀ (l : Nat) (m : List Word), Active s k l → m.length = w.digits → Present s ra l m →
        (¬ AllDigits m → EndsInFault s t k rd w.digits l .nonnorm) ∧
        (AllDigits m → digitSum m = 0 → EndsInFault s t k rd w.digits l .topDigit) ∧
        (AllDigits m → digitSum m ≠ 0 →
          NoNewFault s t k l ∧ HoldsDigits t rd.toNat l w.digits (2 ^ (104 * w.digits) % digitSum m))

/-! ### The host's port -/

/-- R50: a write to CTRL. -/
def Obligations.CtrlWriteEffect : Prop :=
  ∀ (s : State) (v : Word),
    (v.getLsbD 2 = true → writeAt s 0x008 v = .next s.softReset) ∧
    (v.getLsbD 2 = false → v.getLsbD 0 = false → writeAt s 0x008 v = .next { s with ie := v.getLsbD 1 }) ∧
    (v.getLsbD 2 = false → v.getLsbD 0 = true → s.busy = true →
      writeAt s 0x008 v = .next { s with ie := v.getLsbD 1, ovr := true }) ∧
    (v.getLsbD 2 = false → v.getLsbD 0 = true → s.busy = false →
      writeAt s 0x008 v = .next { s with
        ie := v.getLsbD 1, latch := some { cmd := s.cmdHi ++ s.cmdLo, mask := s.laneMask }
        done := false, err := false, errCode := 0#8, busy := true })

/-- R51: a write to STATUS. -/
def Obligations.StatusWriteClears : Prop :=
  ∀ (s : State) (v : Word), writeAt s 0x010 v = .next { s with
    done := if v.getLsbD 1 then false else s.done
    err := if v.getLsbD 2 then false else s.err
    errCode := if v.getLsbD 2 then 0#8 else s.errCode
    ovr := if v.getLsbD 3 then false else s.ovr }

/-- R43: LANEMASK, CMD_LO and CMD_HI ignore writes while BUSY = 1 and set OVR; every register can be read at any time. -/
def Obligations.BusyIgnoresRegisterWrites : Prop :=
  (∀ (s : State) (v : Word) (off : Nat), s.busy = true → off ∈ [0x018, 0x020, 0x028] →
    writeAt s off v = .next { s with ovr := true }) ∧
  ∀ (s : State) (off : Nat), off ∈ [0x000, 0x008, 0x010, 0x018, 0x020, 0x028] → ∃ v, Reads s off v

/-- R38: ID reads as its four fields and ignores writes. -/
def Obligations.IdReadsConfiguration : Prop :=
  ∀ (s : State) (v : Word), writeAt s 0x000 v = .next s ∧
    ∃ id : Word, Reads s 0x000 id ∧
      id.toNat = 0x01 + s.cfg.lanes * 2 ^ 8 + (s.cfg.rows - 1) * 2 ^ 16 + 0x32354D4D * 2 ^ 32

/-- The values CTRL, STATUS, LANEMASK, CMD_LO and CMD_HI read as, from their fields in R39 to R42. -/
def Obligations.RegistersReadTheirFields : Prop :=
  ∀ s : State,
    (∃ v : Word, Reads s 0x008 v ∧ v.toNat = 2 * s.ie.toNat) ∧
    (∃ v : Word, Reads s 0x010 v ∧ v.toNat =
      s.busy.toNat + 2 * s.done.toNat + 4 * s.err.toNat + 8 * s.ovr.toNat + 256 * s.errCode.toNat) ∧
    (∃ v : Word, Reads s 0x018 v ∧ v.toNat = s.laneMask.toNat) ∧
    Reads s 0x020 s.cmdLo ∧ Reads s 0x028 s.cmdHi

/-- The writes that LANEMASK takes while BUSY = 0: bits [LANES−1:0] alone (R41). -/
def Obligations.LaneMaskKeepsItsBits : Prop :=
  ∀ (s : State) (v : Word), s.busy = false → ∃ t, writeAt s 0x018 v = .next t ∧
    t = { s with laneMask := t.laneMask } ∧ t.laneMask.toNat = v.toNat % 2 ^ s.cfg.lanes

/-- R42: CMD_LO and CMD_HI read back as written while BUSY = 0, a write starts no command, and both are 0 after reset. -/
def Obligations.CmdReadsBackAsWritten : Prop :=
  (∀ (s : State) (v : Word), s.busy = false →
    (∃ t, writeAt s 0x020 v = .next t ∧ t = { s with cmdLo := v } ∧ Reads t 0x020 v) ∧
    ∃ t, writeAt s 0x028 v = .next t ∧ t = { s with cmdHi := v } ∧ Reads t 0x028 v) ∧
  ∀ c : Config, (State.resetWith c).cmdLo = 0#64 ∧ (State.resetWith c).cmdHi = 0#64

/-- R44, R75: the other offsets of the window read as zero and ignore writes. That the offsets above the last DM row do so
while BUSY = 1 too, and are no part of the DM window of R80, is read from R44 and R75 (assumption log 8). -/
def Obligations.ReservedOffsetsReadZero : Prop :=
  ∀ (s : State) (off : Nat) (v : Word), off % 8 = 0 → off < 0x500000 →
    off ∉ [0x000, 0x008, 0x010, 0x018, 0x020, 0x028] →
    (off < 0x100000 ∨ 0x100000 + 8 * s.cfg.lanes * s.cfg.rows ≤ off) →
    Reads s off 0#64 ∧ writeAt s off v = .next s

/-- R76: an access that is not 64 bits wide or not aligned is HOST_ACCESS and nothing else. That it is HOST_ACCESS alone in
the DM window while BUSY = 1, where R80 names HOST_RACE, is assumption log 6. -/
def Obligations.MalformedAccessFaults : Prop :=
  ∀ (s : State) (a : Access) (off : Nat), a.addr = s.cfg.pBase + off → off < 0x500000 →
    (a.size ≠ 8 ∨ off % 8 ≠ 0) → ∃ t, s.hostAccess a = .next t ∧ HostFaultOnly s t .access a

/-- R80: an access to the DM window while BUSY = 1 is HOST_RACE and nothing else. That a read of an unwritten word is then
HOST_RACE alone, where R79 names HOST_UNINIT, is assumption log 6. -/
def Obligations.BusyWindowAccessFaults : Prop :=
  ∀ (s : State) (a : Access) (r l : Nat), s.busy = true → r < s.cfg.rows → l < s.cfg.lanes →
    a.addr = s.cfg.pBase + (0x100000 + 8 * (s.cfg.lanes * r + l)) → a.size = 8 →
    ∃ t, s.hostAccess a = .next t ∧ HostFaultOnly s t .race a

/-- R79, R75: the host writes and reads a DM word while BUSY = 0, at the word's offset; a read of `⊥` is HOST_UNINIT. -/
def Obligations.HostReadsAndWritesWords : Prop :=
  ∀ (s : State) (r l : Nat) (v : Word), s.busy = false → s.dm.wf = true → r < s.cfg.rows → l < s.cfg.lanes →
    let off := 0x100000 + 8 * (s.cfg.lanes * r + l)
    (∃ t, writeAt s off v = .next t ∧ t = { s with dm := t.dm } ∧ t.word r l = some v ∧
      ∀ b, b < off ∨ off + 8 ≤ b → t.dm.getByte b = s.dm.getByte b) ∧
    (∀ x, s.word r l = some x → Reads s off x) ∧
    (s.word r l = none → ∃ t, readAt s off = .next t ∧
      HostFaultOnly s t .uninit { addr := s.cfg.pBase + off, size := 8, kind := .read })

/-- R81: reads have no side effect (but the value returned and a host fault), and every write but one to CTRL is
idempotent. -/
def Obligations.ReadsHaveNoSideEffect : Prop :=
  (∀ (s t : State) (a : Access), a.kind = .read → s.hostAccess a = .next t →
    t = { s with faults := t.faults, replies := t.replies } ∧
    ∀ t', t.hostAccess a = .next t' → t'.replies.getLast? = t.replies.getLast?) ∧
  ∀ (s t : State) (off : Nat) (v : Word), s.dm.wf = true → off ≠ 0x008 → writeAt s off v = .next t →
    writeAt t off v = .next t

/-- R301: the soft reset. -/
def Obligations.SoftResetEffect : Prop :=
  ∀ (s : State) (v : Word), v.getLsbD 2 = true → s.dm.wf = true → ∃ t, writeAt s 0x008 v = .next t ∧
    t = { s with
      dm := t.dm, latch := none, ie := false, busy := false, done := false, err := false, ovr := false
      errCode := 0#8, laneMask := t.laneMask, cmdLo := 0#64, cmdHi := 0#64 } ∧
    t.laneMask.toNat = 2 ^ s.cfg.lanes - 1 ∧
    (s.latch = none → t.dm = s.dm) ∧
    (∀ k, s.latch = some k → validate s.cfg k.cmd ≠ none → t.dm = s.dm) ∧
    ∀ (k : Latch) (i : Instr), s.latch = some k → decode k.cmd = .ok i → validate s.cfg k.cmd = none →
      (∀ l j, Active s k l → j < (shape i).dst.len → t.word ((shape i).dst.row + j) l = none) ∧
      ∀ a, (∀ l j, Active s k l → j < (shape i).dst.len →
          a < dmOffset s.cfg ((shape i).dst.row + j) l ∨ dmOffset s.cfg ((shape i).dst.row + j) l + 8 ≤ a) →
        t.dm.getByte a = s.dm.getByte a

/-- R300: the reset input gives every piece of the block's state its reset value, FAULT empty among them. The rest is the
model's own: the record of the entries FAULT held before takes up those it held (assumption log 7), the reset is taken from
the inputs, a turn is struck off while BUSY = 1, and what the host has read stays (assumption log 3). -/
def Obligations.PowerOnResetEffect : Prop :=
  ∀ (s : State) (rest : List Input), s.inputs = .powerOn :: rest → s.whoMoves = some .host →
    ∃ t, step s = .next t ∧
      (∀ e, e ∈ t.earlierFaults ↔ e ∈ s.earlierFaults ∨ e ∈ s.faults) ∧
      t = { State.resetWith s.cfg with
        earlierFaults := t.earlierFaults, inputs := rest, turns := if s.busy then s.turns.tail else s.turns
        replies := s.replies }

/-- R267: IRQ is IE and DONE; it rises when a command completes, normally or not, and a write of 1 to STATUS.DONE, a GO or
a reset takes it away. -/
def Obligations.IrqFollowsDone : Prop :=
  (∀ s : State, irq s = (s.ie && s.done)) ∧
  (∀ s t : State, coreStep s = .next t → irq t = s.ie) ∧
  (∀ (s t : State) (v : Word), v.getLsbD 1 = true → writeAt s 0x010 v = .next t → irq t = false) ∧
  (∀ (s t : State) (v : Word), s.busy = false → v.getLsbD 0 = true → writeAt s 0x008 v = .next t → irq t = false) ∧
  (∀ s : State, irq s.softReset = false ∧ irq s.powerOnReset = false)
end

