-- ==== Sys2Proof/Laws/Memory.lean ====
section
/-! SUPPORT. The laws of the digit memory: read after write, what a write leaves alone, and the canonical form. -/

namespace Sys2Proof.Machine

/-- The offsets of a list of byte writes rise strictly. -/
abbrev Rising (us : List ByteWrite) : Prop := us.Pairwise fun p q => p.1 < q.1

/-- The offsets of a list of word writes rise by at least a word. -/
abbrev WordsRising (ws : List (Nat × Option Word)) : Prop := ws.Pairwise fun p q => p.1 + 8 ≤ q.1

/-! ### The canonical form -/

theorem risesAbove_iff (lo : Nat) (m : Memory) :
    Memory.risesAbove lo m = true ↔ (∀ p ∈ m, lo < p.1) ∧ m.Pairwise fun p q => p.1 < q.1 := by
  induction m generalizing lo with
  | nil => simp [Memory.risesAbove]
  | cons p m ih =>
    obtain ⟨k, c⟩ := p
    simp only [Memory.risesAbove, Bool.and_eq_true, decide_eq_true_eq, ih, List.pairwise_cons, List.mem_cons,
      forall_eq_or_imp]
    constructor
    · rintro ⟨h, h1, h2⟩
      exact ⟨⟨h, fun q hq => Nat.lt_trans h (h1 q hq)⟩, h1, h2⟩
    · rintro ⟨⟨h, _⟩, h1, h2⟩
      exact ⟨h, h1, h2⟩

/-- The canonical form says that the offsets rise strictly. -/
theorem wf_iff_pairwise (m : Memory) : m.wf = true ↔ m.Pairwise fun p q => p.1 < q.1 := by
  cases m with
  | nil => simp [Memory.wf]
  | cons p m => simp [Memory.wf, risesAbove_iff, List.pairwise_cons]

/-! ### One byte -/

theorem getByte_eq_none_of_lt {m : Memory} {a : Nat} (h : ∀ p ∈ m, a < p.1) : m.getByte a = none := by
  induction m with
  | nil => rfl
  | cons p m ih =>
    obtain ⟨k, c⟩ := p
    have hk : a < k := h (k, c) (by simp)
    rw [Memory.getByte, if_neg (by omega)]
    exact ih fun q hq => h q (by simp [hq])

theorem mem_of_getByte {m : Memory} {a : Nat} {b : Byte} (h : m.getByte a = some b) : (a, b) ∈ m := by
  induction m with
  | nil => simp [Memory.getByte] at h
  | cons p m ih =>
    obtain ⟨k, c⟩ := p
    rw [Memory.getByte] at h
    split at h
    · next hk => subst hk; simp_all
    · exact List.mem_cons_of_mem _ (ih h)

theorem getByte_of_mem {m : Memory} {a : Nat} {b : Byte} (hm : m.wf = true) (h : (a, b) ∈ m) :
    m.getByte a = some b := by
  rw [wf_iff_pairwise] at hm
  induction m with
  | nil => simp at h
  | cons p m ih =>
    obtain ⟨k, c⟩ := p
    rw [List.pairwise_cons] at hm
    rw [Memory.getByte]
    rcases List.mem_cons.mp h with heq | hmem
    · rw [Prod.mk.injEq] at heq
      rw [if_pos heq.1, heq.2]
    · have := hm.1 _ hmem
      simp only at this
      rw [if_neg (by omega)]
      exact ih hm.2 hmem

/-- The bytes below an offset are no matter to a read at or above it. -/
theorem getByte_dropWhile (m : Memory) {a b : Nat} (h : a ≤ b) :
    Memory.getByte (List.dropWhile (fun p => decide (p.1 < a)) m) b = m.getByte b := by
  induction m with
  | nil => rfl
  | cons p m ih =>
    obtain ⟨k, c⟩ := p
    rw [List.dropWhile_cons]
    split
    · next hk =>
      have hk : k < a := by simpa using hk
      rw [ih, Memory.getByte, if_neg (by omega)]
    · rfl

theorem getByte_place (a b : Nat) (v : Option Byte) (m : Memory) :
    (Memory.place a v m).getByte b = if a = b then (match v with | some c => some c | none => m.getByte b)
      else m.getByte b := by
  cases v <;> simp [Memory.place, Memory.getByte, eq_comm]

theorem getByte_splice_ne {a b : Nat} (hab : a ≠ b) (v : Option Byte) (rest : Memory → Memory) (m : Memory)
    (hrest : ∀ m', (rest m').getByte b = Memory.getByte m' b) :
    (Memory.splice a v rest m).getByte b = m.getByte b := by
  induction m with
  | nil => rw [Memory.splice, getByte_place, if_neg hab, hrest]
  | cons p m ih =>
    obtain ⟨k, c⟩ := p
    rw [Memory.splice]
    split
    · rw [Memory.getByte, Memory.getByte, ih]
    · split
      · next hk => rw [getByte_place, if_neg hab, hrest, Memory.getByte, if_neg (by omega)]
      · rw [getByte_place, if_neg hab, hrest]

/-- A byte that no write of a list names keeps its value. -/
theorem getByte_update_other (us : List ByteWrite) (m : Memory) {b : Nat} (h : ∀ u ∈ us, u.1 ≠ b) :
    (Memory.update us m).getByte b = m.getByte b := by
  induction us generalizing m with
  | nil => rfl
  | cons u us ih =>
    obtain ⟨a, v⟩ := u
    rw [Memory.update]
    exact getByte_splice_ne (h (a, v) (by simp)) v _ m fun m' => ih m' fun u hu => h u (by simp [hu])

theorem getByte_splice_self {a : Nat} (v : Option Byte) (rest : Memory → Memory) (m : Memory)
    (hm : m.wf = true) (hrest : ∀ m', (rest m').getByte a = Memory.getByte m' a) :
    (Memory.splice a v rest m).getByte a = v := by
  rw [wf_iff_pairwise] at hm
  induction m with
  | nil =>
    rw [Memory.splice, getByte_place, if_pos rfl]
    cases v
    · simp [hrest, Memory.getByte]
    · rfl
  | cons p m ih =>
    obtain ⟨k, c⟩ := p
    rw [List.pairwise_cons] at hm
    rw [Memory.splice]
    split
    · rw [Memory.getByte, if_neg (by omega), ih hm.2]
    · split
      · next hk =>
        subst hk
        rw [getByte_place, if_pos rfl]
        cases v
        · simp only [hrest]
          exact getByte_eq_none_of_lt fun q hq => hm.1 q hq
        · rfl
      · rw [getByte_place, if_pos rfl]
        cases v
        · simp only [hrest]
          refine getByte_eq_none_of_lt fun q hq => ?_
          rcases List.mem_cons.mp hq with rfl | hq
          · show a < k
            omega
          · have := hm.1 q hq
            simp only at this
            omega
        · rfl

theorem mem_update (us : List ByteWrite) (m : Memory) {p : Nat × Byte} (h : p ∈ Memory.update us m) :
    p ∈ m ∨ (p.1, some p.2) ∈ us := by
  induction us generalizing m with
  | nil => exact Or.inl h
  | cons u us ih =>
    obtain ⟨a, v⟩ := u
    rw [Memory.update] at h
    have hplace : ∀ m', p ∈ Memory.place a v (Memory.update us m') → p ∈ m' ∨ (p.1, some p.2) ∈ (a, v) :: us := by
      intro m' hp
      cases v with
      | none => exact (ih m' hp).imp id fun h => List.mem_cons_of_mem _ h
      | some b =>
        rcases List.mem_cons.mp hp with rfl | hp
        · exact Or.inr (by simp)
        · exact (ih m' hp).imp id fun h => List.mem_cons_of_mem _ h
    induction m with
    | nil => exact hplace [] h
    | cons q m ihm =>
      obtain ⟨k, c⟩ := q
      rw [Memory.splice] at h
      split at h
      · rcases List.mem_cons.mp h with rfl | h
        · exact Or.inl (by simp)
        · exact (ihm h).imp (fun h => List.mem_cons_of_mem _ h) id
      · split at h
        · exact (hplace m h).imp (fun h => List.mem_cons_of_mem _ h) id
        · exact hplace _ h

/-- Writes with rising offsets keep the canonical form. -/
theorem wf_update {us : List ByteWrite} {m : Memory} (hu : Rising us) (hm : m.wf = true) :
    (Memory.update us m).wf = true := by
  rw [wf_iff_pairwise] at hm ⊢
  induction us generalizing m with
  | nil => exact hm
  | cons u us ih =>
    obtain ⟨a, v⟩ := u
    rw [Rising, List.pairwise_cons] at hu
    rw [Memory.update]
    have hplace : ∀ m' : Memory, (∀ p ∈ m', a < p.1) → (m'.Pairwise fun p q => p.1 < q.1) →
        (Memory.place a v (Memory.update us m')).Pairwise fun p q => p.1 < q.1 := by
      intro m' hlt hm'
      cases v with
      | none => exact ih hu.2 hm'
      | some b =>
        refine List.pairwise_cons.mpr ⟨fun p hp => ?_, ih hu.2 hm'⟩
        rcases mem_update us m' hp with hp | hp
        · exact hlt p hp
        · exact hu.1 _ hp
    induction m with
    | nil => exact hplace [] (by simp) (by simp)
    | cons q m ihm =>
      obtain ⟨k, c⟩ := q
      rw [List.pairwise_cons] at hm
      rw [Memory.splice]
      split
      · next hk =>
        refine List.pairwise_cons.mpr ⟨fun p hp => ?_, ihm hm.2⟩
        rcases mem_update ((a, v) :: us) m (by rw [Memory.update]; exact hp) with hp | hp
        · exact hm.1 p hp
        · rcases List.mem_cons.mp hp with hp | hp
          · rw [Prod.mk.injEq] at hp
            show k < p.1
            omega
          · have := hu.1 _ hp
            simp only at this ⊢
            omega
      · split
        · next hk =>
          subst hk
          exact hplace m (fun p hp => hm.1 p hp) hm.2
        · refine hplace _ (fun p hp => ?_) (List.pairwise_cons.mpr hm)
          rcases List.mem_cons.mp hp with rfl | hp
          · show a < k
            omega
          · have := hm.1 p hp
            simp only at this
            omega

/-- A byte that a write of the list names has the value that write gives it. -/
theorem getByte_update_mem {us : List ByteWrite} {m : Memory} (hu : Rising us) (hm : m.wf = true)
    {u : ByteWrite} (h : u ∈ us) : (Memory.update us m).getByte u.1 = u.2 := by
  induction us generalizing m with
  | nil => simp at h
  | cons w us ih =>
    obtain ⟨a, v⟩ := w
    rw [Rising, List.pairwise_cons] at hu
    rw [Memory.update]
    rcases List.mem_cons.mp h with rfl | h
    · refine getByte_splice_self v _ m hm fun m' => getByte_update_other us m' fun w hw => ?_
      have := hu.1 w hw
      simp only at this
      omega
    · have hlt : a < u.1 := hu.1 u h
      have hplace : ∀ m' : Memory, m'.wf = true →
          (Memory.place a v (Memory.update us m')).getByte u.1 = u.2 := by
        intro m' hm'
        rw [getByte_place, if_neg (by omega), ih hu.2 hm' h]
      rw [wf_iff_pairwise] at hm
      induction m with
      | nil => exact hplace [] rfl
      | cons q m ihm =>
        obtain ⟨k, c⟩ := q
        have hm' := List.pairwise_cons.mp hm
        rw [Memory.splice]
        split
        · rw [Memory.getByte, if_neg (by omega), ihm hm'.2]
        · split
          · exact hplace m ((wf_iff_pairwise m).mpr hm'.2)
          · exact hplace _ ((wf_iff_pairwise _).mpr hm)

/-! ### One word -/

theorem getLE_congr {m m' : Memory} (n : Nat) {a : Nat} (h : ∀ k < n, m.getByte (a + k) = m'.getByte (a + k)) :
    m.getLE a n = m'.getLE a n := by
  induction n generalizing a with
  | zero => rfl
  | succ n ih =>
    have h0 := h 0 (by omega)
    have h1 : m.getLE (a + 1) n = m'.getLE (a + 1) n := ih fun k hk => by
      have := h (k + 1) (by omega)
      rwa [show a + (k + 1) = a + 1 + k from by omega] at this
    rw [Nat.add_zero] at h0
    rw [Memory.getLE, Memory.getLE, h0, h1]

/-- A word is read from its eight bytes. -/
theorem readWord_eq_getLE (m : Memory) (a : Nat) : m.readWord a = (m.getLE a 8).map (BitVec.ofNat 64) := by
  rw [Memory.readWord, getLE_congr (m' := m) 8 fun k _ => getByte_dropWhile m (by omega)]

/-- Two memories with the same eight bytes have the same word. -/
theorem readWord_congr {m m' : Memory} {a : Nat} (h : ∀ k < 8, m.getByte (a + k) = m'.getByte (a + k)) :
    m.readWord a = m'.readWord a := by
  rw [readWord_eq_getLE, readWord_eq_getLE, getLE_congr 8 h]

theorem getLE_eq_some {m : Memory} {a v : Nat} (n : Nat)
    (h : ∀ k < n, m.getByte (a + k) = some (BitVec.ofNat 8 (v / 256 ^ k))) :
    m.getLE a n = some (v % 256 ^ n) := by
  induction n generalizing a v with
  | zero => simp [Memory.getLE, Nat.mod_one]
  | succ n ih =>
    have h0 := h 0 (by omega)
    have h1 : m.getLE (a + 1) n = some (v / 256 % 256 ^ n) := ih fun k hk => by
      have := h (k + 1) (by omega)
      rwa [show a + (k + 1) = a + 1 + k from by omega, pow_succ', ← Nat.div_div_eq_div_mul] at this
    rw [Nat.add_zero, Nat.pow_zero, Nat.div_one] at h0
    rw [Memory.getLE, h0, h1]
    show some ((BitVec.ofNat 8 v).toNat + 256 * (v / 256 % 256 ^ n)) = _
    rw [BitVec.toNat_ofNat, Option.some.injEq, pow_succ' 256 n, Nat.mod_mul]

theorem getLE_eq_none {m : Memory} {a k : Nat} (n : Nat) (hk : k < n) (h : m.getByte (a + k) = none) :
    m.getLE a n = none := by
  induction n generalizing a k with
  | zero => omega
  | succ n ih =>
    rw [Memory.getLE]
    cases k with
    | zero => rw [Nat.add_zero] at h; rw [h]
    | succ k =>
      rw [ih (a := a + 1) (k := k) (by omega) (by rwa [show a + 1 + k = a + (k + 1) from by omega])]
      cases m.getByte a <;> rfl

/-- A word one of whose bytes has no value is `⊥`. -/
theorem readWord_eq_none {m : Memory} {a k : Nat} (hk : k < 8) (h : m.getByte (a + k) = none) :
    m.readWord a = none := by
  rw [readWord_eq_getLE, getLE_eq_none 8 hk h]; rfl

/-- A word whose bytes are those of `w`, little-endian, is `w` (R77). -/
theorem readWord_eq_some {m : Memory} {a : Nat} {w : Word}
    (h : ∀ k < 8, m.getByte (a + k) = some (w.extractLsb' (8 * k) 8)) : m.readWord a = some w := by
  rw [readWord_eq_getLE, getLE_eq_some (v := w.toNat) 8]
  · have hw : w.toNat < 256 ^ 8 := by have := w.isLt; norm_num; omega
    rw [Nat.mod_eq_of_lt hw]
    simp
  · intro k hk
    rw [h k hk, Option.some.injEq]
    apply BitVec.eq_of_toNat_eq
    rw [BitVec.extractLsb'_toNat, BitVec.toNat_ofNat, Nat.shiftRight_eq_div_pow, pow_mul, show 2 ^ 8 = 256 from rfl]

theorem wordBytes_rising (a : Nat) (v : Option Word) : Rising (wordBytes a v) := by
  rw [Rising, wordBytes, List.pairwise_map]
  exact List.pairwise_lt_range.imp fun h => by simpa using h

theorem mem_wordBytes {a : Nat} {v : Option Word} {u : ByteWrite} :
    u ∈ wordBytes a v ↔ ∃ k < 8, u = (a + k, v.map fun w => w.extractLsb' (8 * k) 8) := by
  simp only [wordBytes, List.mem_map, List.mem_range, eq_comm]

/-! ### Many words at once -/

theorem flatMap_wordBytes_rising {ws : List (Nat × Option Word)} (h : WordsRising ws) :
    Rising (ws.flatMap fun w => wordBytes w.1 w.2) := by
  rw [Rising, List.pairwise_flatMap]
  refine ⟨fun w _ => wordBytes_rising w.1 w.2, h.imp fun {p q} hpq u hu w hw => ?_⟩
  obtain ⟨i, hi, rfl⟩ := mem_wordBytes.mp hu
  obtain ⟨j, hj, rfl⟩ := mem_wordBytes.mp hw
  simp only
  omega

/-- Word writes keep the canonical form. -/
theorem wf_writeAll {ws : List (Nat × Option Word)} {m : Memory} (h : WordsRising ws) (hm : m.wf = true) :
    (m.writeAll ws).wf = true := wf_update (flatMap_wordBytes_rising h) hm

/-- A byte outside every written word keeps its value. -/
theorem getByte_writeAll_other (ws : List (Nat × Option Word)) (m : Memory) {b : Nat}
    (h : ∀ w ∈ ws, b < w.1 ∨ w.1 + 8 ≤ b) : (m.writeAll ws).getByte b = m.getByte b := by
  refine getByte_update_other _ m fun u hu => ?_
  obtain ⟨w, hw, hu⟩ := List.mem_flatMap.mp hu
  obtain ⟨k, hk, rfl⟩ := mem_wordBytes.mp hu
  have := h w hw
  simp only
  omega

/-- A word that no write meets keeps its value. -/
theorem readWord_writeAll_other (ws : List (Nat × Option Word)) (m : Memory) {a : Nat}
    (h : ∀ w ∈ ws, a + 8 ≤ w.1 ∨ w.1 + 8 ≤ a) : (m.writeAll ws).readWord a = m.readWord a :=
  readWord_congr fun k hk => getByte_writeAll_other ws m fun w hw => by
    have := h w hw
    omega

/-- A word that a write names has the value that write gives it. -/
theorem readWord_writeAll_mem {ws : List (Nat × Option Word)} {m : Memory} (h : WordsRising ws) (hm : m.wf = true)
    {w : Nat × Option Word} (hw : w ∈ ws) : (m.writeAll ws).readWord w.1 = w.2 := by
  have hbyte : ∀ k < 8, (m.writeAll ws).getByte (w.1 + k) = w.2.map fun x => x.extractLsb' (8 * k) 8 := by
    intro k hk
    exact getByte_update_mem (flatMap_wordBytes_rising h) hm
      (u := (w.1 + k, w.2.map fun x => x.extractLsb' (8 * k) 8))
      (List.mem_flatMap.mpr ⟨w, hw, mem_wordBytes.mpr ⟨k, hk, rfl⟩⟩)
  cases hv : w.2 with
  | none =>
    refine readWord_eq_none (k := 0) (by omega) ?_
    have := hbyte 0 (by omega)
    rwa [hv] at this
  | some x =>
    refine readWord_eq_some fun k hk => ?_
    have := hbyte k hk
    rwa [hv] at this

theorem writeWord_eq_writeAll (m : Memory) (a : Nat) (v : Option Word) : m.writeWord a v = m.writeAll [(a, v)] := by
  simp [Memory.writeWord, Memory.writeAll]

/-- A word write keeps the canonical form. -/
theorem wf_writeWord {m : Memory} (a : Nat) (v : Option Word) (hm : m.wf = true) : (m.writeWord a v).wf = true := by
  rw [writeWord_eq_writeAll]
  exact wf_writeAll (by simp [WordsRising]) hm

/-- A word reads as it was written. -/
theorem readWord_writeWord_same {m : Memory} (a : Nat) (v : Option Word) (hm : m.wf = true) :
    (m.writeWord a v).readWord a = v := by
  rw [writeWord_eq_writeAll]
  exact readWord_writeAll_mem (w := (a, v)) (by simp [WordsRising]) hm (by simp)

/-- A byte outside the written word keeps its value. -/
theorem getByte_writeWord_other (m : Memory) {a b : Nat} (v : Option Word) (h : b < a ∨ a + 8 ≤ b) :
    (m.writeWord a v).getByte b = m.getByte b := by
  rw [writeWord_eq_writeAll]
  exact getByte_writeAll_other _ m (by simpa using h)

/-- A word apart from the written one keeps its value. -/
theorem readWord_writeWord_other (m : Memory) {a b : Nat} (v : Option Word) (h : b + 8 ≤ a ∨ a + 8 ≤ b) :
    (m.writeWord a v).readWord b = m.readWord b := by
  rw [writeWord_eq_writeAll]
  exact readWord_writeAll_other _ m (by simpa using h)

end Sys2Proof.Machine
end

