-- ==== Sys2Proof/Laws/Command.lean ====
section
/-! SUPPORT. What the shared operation of every command does: where its words go, what it leaves alone, and what it records
(spec 20_memory.md R70 to R74; 60_exceptions.md R260 to R264). -/

namespace Sys2Proof.Machine

theorem Config.lanes_pos (c : Config) : 0 < c.lanes := by
  cases h : c.laneCount <;> simp [Config.lanes, LaneCount.toNat, h]

/-! ### Offsets of words -/

theorem dmOffset_lt_of_row {c : Config} {r r' l l' : Nat} (h : r < r') (hl : l < c.lanes) :
    dmOffset c r l + 8 ≤ dmOffset c r' l' := by
  have : c.lanes * (r + 1) ≤ c.lanes * r' := Nat.mul_le_mul_left _ h
  rw [Nat.mul_add, Nat.mul_one] at this
  simp only [dmOffset]
  omega

theorem dmOffset_lt_of_lane {c : Config} {r l l' : Nat} (h : l < l') : dmOffset c r l + 8 ≤ dmOffset c r l' := by
  simp only [dmOffset]
  omega

/-- Different words stand apart. -/
theorem dmOffset_apart {c : Config} {r r' l l' : Nat} (hl : l < c.lanes) (hl' : l' < c.lanes) (h : r ≠ r' ∨ l ≠ l') :
    dmOffset c r l + 8 ≤ dmOffset c r' l' ∨ dmOffset c r' l' + 8 ≤ dmOffset c r l := by
  rcases Nat.lt_trichotomy r r' with hr | hr | hr
  · exact Or.inl (dmOffset_lt_of_row hr hl)
  · subst hr
    rcases Nat.lt_or_gt_of_ne (h.resolve_left fun h => h rfl) with hl | hl
    · exact Or.inl (dmOffset_lt_of_lane hl)
    · exact Or.inr (dmOffset_lt_of_lane hl)
  · exact Or.inr (dmOffset_lt_of_row hr hl')

/-- A word of a row below DM_ROWS stands inside the DM window (R75). -/
theorem dmOffset_in_window {c : Config} {r l : Nat} (hr : r < c.rows) (hl : l < c.lanes) :
    dmOffset c r l + 8 ≤ 0x100000 + 8 * c.lanes * c.rows := by
  have : c.lanes * (r + 1) ≤ c.lanes * c.rows := Nat.mul_le_mul_left _ hr
  rw [Nat.mul_add, Nat.mul_one] at this
  rw [Nat.mul_assoc, dmOffset]
  omega

theorem dmOffset_mod (c : Config) (r l : Nat) : dmOffset c r l % 8 = 0 := by simp only [dmOffset]; omega

/-- Every aligned offset of the DM window is that of one word. -/
theorem exists_dmOffset {c : Config} {off : Nat} (h0 : 0x100000 ≤ off) (h1 : off < 0x100000 + 8 * c.lanes * c.rows)
    (h8 : off % 8 = 0) : ∃ r l, r < c.rows ∧ l < c.lanes ∧ off = dmOffset c r l := by
  have hpos := Config.lanes_pos c
  refine ⟨(off - 0x100000) / 8 / c.lanes, (off - 0x100000) / 8 % c.lanes, ?_, Nat.mod_lt _ hpos, ?_⟩
  · rw [Nat.div_lt_iff_lt_mul hpos, Nat.mul_comm]
    rw [Nat.mul_assoc] at h1
    omega
  · have := Nat.div_add_mod ((off - 0x100000) / 8) c.lanes
    simp only [dmOffset]
    omega

/-! ### The writes of a region -/

theorem mem_activeLanes {c : Config} {mask : LaneMask} {l : Nat} :
    l ∈ activeLanes c mask ↔ l < c.lanes ∧ mask.getLsbD l = true := by
  simp [activeLanes]

theorem activeLanes_pairwise (c : Config) (mask : LaneMask) : (activeLanes c mask).Pairwise (· < ·) :=
  List.Pairwise.filter _ List.pairwise_lt_range

theorem mem_regionWrites {c : Config} {mask : LaneMask} {g : Region} {f : Nat → Nat → Option Word}
    {w : Nat × Option Word} :
    w ∈ regionWrites c mask g f ↔
      ∃ i < g.len, ∃ l, l < c.lanes ∧ mask.getLsbD l = true ∧ w = (dmOffset c (g.row + i) l, f l i) := by
  simp only [regionWrites, List.mem_flatMap, List.mem_range, List.mem_map, mem_activeLanes]
  constructor
  · rintro ⟨i, hi, l, ⟨hl, hb⟩, rfl⟩
    exact ⟨i, hi, l, hl, hb, rfl⟩
  · rintro ⟨i, hi, l, hl, hb, rfl⟩
    exact ⟨i, hi, l, ⟨hl, hb⟩, rfl⟩

theorem regionWrites_rising (c : Config) (mask : LaneMask) (g : Region) (f : Nat → Nat → Option Word) :
    WordsRising (regionWrites c mask g f) := by
  rw [WordsRising, regionWrites, List.pairwise_flatMap]
  refine ⟨fun i _ => ?_, List.pairwise_lt_range.imp fun {i j} hij p hp q hq => ?_⟩
  · rw [List.pairwise_map]
    exact (activeLanes_pairwise c mask).imp fun h => dmOffset_lt_of_lane h
  · obtain ⟨l, hl, rfl⟩ := List.mem_map.mp hp
    obtain ⟨l', _, rfl⟩ := List.mem_map.mp hq
    exact dmOffset_lt_of_row (by omega) (mem_activeLanes.mp hl).1

/-- Writing a region keeps the canonical form. -/
theorem wf_writeRegion {m : Memory} (c : Config) (mask : LaneMask) (g : Region) (f : Nat → Nat → Option Word)
    (hm : m.wf = true) : (m.writeAll (regionWrites c mask g f)).wf = true :=
  wf_writeAll (regionWrites_rising c mask g f) hm

/-- A word of the region, in an active lane, takes its new value. -/
theorem readWord_writeRegion {m : Memory} {c : Config} {mask : LaneMask} {g : Region} {f : Nat → Nat → Option Word}
    (hm : m.wf = true) {i l : Nat} (hi : i < g.len) (hl : l < c.lanes) (hb : mask.getLsbD l = true) :
    (m.writeAll (regionWrites c mask g f)).readWord (dmOffset c (g.row + i) l) = f l i :=
  readWord_writeAll_mem (regionWrites_rising c mask g f) hm (w := (dmOffset c (g.row + i) l, f l i))
    (mem_regionWrites.mpr ⟨i, hi, l, hl, hb, rfl⟩)

/-- A word outside the region, or in an inactive lane, keeps its value (R72, R74). -/
theorem readWord_writeRegion_other {m : Memory} {c : Config} {mask : LaneMask} {g : Region}
    {f : Nat → Nat → Option Word} {r l : Nat} (hl : l < c.lanes)
    (h : mask.getLsbD l = false ∨ r < g.row ∨ g.row + g.len ≤ r) :
    (m.writeAll (regionWrites c mask g f)).readWord (dmOffset c r l) = m.readWord (dmOffset c r l) := by
  refine readWord_writeAll_other _ m fun w hw => ?_
  obtain ⟨i, hi, l', hl', hb, rfl⟩ := mem_regionWrites.mp hw
  refine dmOffset_apart hl hl' ?_
  rcases h with h | h
  · exact Or.inr fun e => by rw [e, hb] at h; exact absurd h (by decide)
  · exact Or.inl (by omega)

/-- A byte outside every word of the region in an active lane keeps its value. -/
theorem getByte_writeRegion_other {m : Memory} {c : Config} {mask : LaneMask} {g : Region}
    {f : Nat → Nat → Option Word} {a : Nat}
    (h : ∀ i < g.len, ∀ l < c.lanes, mask.getLsbD l = true →
      a < dmOffset c (g.row + i) l ∨ dmOffset c (g.row + i) l + 8 ≤ a) :
    (m.writeAll (regionWrites c mask g f)).getByte a = m.getByte a := by
  refine getByte_writeAll_other _ m fun w hw => ?_
  obtain ⟨i, hi, l, hl, hb, rfl⟩ := mem_regionWrites.mp hw
  exact h i hi l hl hb

/-! ### Reading regions -/

/-- A region's words are read exactly when each of them has a value. -/
theorem regionWords_eq_some_iff (s : State) (l : Nat) (n row : Nat) (ws : List Word) :
    s.regionWords l row n = some ws ↔ ws.length = n ∧ ∀ i < n, s.word (row + i) l = ws[i]? := by
  induction n generalizing row ws with
  | zero => simp [State.regionWords, eq_comm (a := ([] : List Word))]
  | succ n ih =>
    rw [State.regionWords]
    cases ws with
    | nil =>
      simp only [List.length_nil]
      constructor
      · intro h
        split at h <;> simp at h
      · intro h
        omega
    | cons w ws =>
      have hstep : (∀ i < n + 1, s.word (row + i) l = (w :: ws)[i]?) ↔
          s.word row l = some w ∧ ∀ i < n, s.word (row + 1 + i) l = ws[i]? := by
        constructor
        · intro h
          refine ⟨by simpa using h 0 (by omega), fun i hi => ?_⟩
          have := h (i + 1) (by omega)
          rwa [List.getElem?_cons_succ, show row + (i + 1) = row + 1 + i from by omega] at this
        · rintro ⟨h0, h1⟩ i hi
          cases i with
          | zero => simpa using h0
          | succ i =>
            rw [List.getElem?_cons_succ, show row + (i + 1) = row + 1 + i from by omega]
            exact h1 i (by omega)
      rw [hstep, List.length_cons]
      cases hw : s.word row l with
      | none => simp
      | some v =>
        cases hr : s.regionWords l (row + 1) n with
        | none =>
          simp only [reduceCtorEq, false_iff, not_and]
          intro hlen _ h
          have := (ih (row + 1) ws).mpr ⟨by omega, h⟩
          rw [hr] at this
          exact absurd this (by simp)
        | some vs =>
          have hvs := (ih (row + 1) vs).mp hr
          simp only [Option.some.injEq, List.cons.injEq]
          constructor
          · rintro ⟨rfl, rfl⟩
            exact ⟨by omega, rfl, hvs.2⟩
          · rintro ⟨hlen, rfl, h⟩
            refine ⟨rfl, ?_⟩
            have := (ih (row + 1) ws).mpr ⟨by omega, h⟩
            rw [hr] at this
            simpa using this

/-- A region is read as `⊥` exactly when one of its words is `⊥`. -/
theorem regionWords_eq_none_iff (s : State) (l : Nat) (n row : Nat) :
    s.regionWords l row n = none ↔ ∃ i < n, s.word (row + i) l = none := by
  induction n generalizing row with
  | zero => simp [State.regionWords]
  | succ n ih =>
    have hstep : (∃ i < n + 1, s.word (row + i) l = none) ↔
        s.word row l = none ∨ ∃ i < n, s.word (row + 1 + i) l = none := by
      constructor
      · rintro ⟨i, hi, h⟩
        cases i with
        | zero => exact Or.inl (by simpa using h)
        | succ i => exact Or.inr ⟨i, by omega, by rwa [show row + 1 + i = row + (i + 1) from by omega]⟩
      · rintro (h | ⟨i, hi, h⟩)
        · exact ⟨0, by omega, by simpa using h⟩
        · exact ⟨i + 1, by omega, by rwa [show row + (i + 1) = row + 1 + i from by omega]⟩
    rw [hstep, ← ih (row + 1), State.regionWords]
    cases s.word row l <;> cases s.regionWords l (row + 1) n <;> simp

/-- Two states (and two lanes) with the same words in a region read it alike. -/
theorem regionWords_congr {s s' : State} {l l' : Nat} (n row : Nat)
    (h : ∀ i < n, s.word (row + i) l = s'.word (row + i) l') : s.regionWords l row n = s'.regionWords l' row n := by
  induction n generalizing row with
  | zero => rfl
  | succ n ih =>
    have h0 := h 0 (by omega)
    rw [Nat.add_zero] at h0
    rw [State.regionWords, State.regionWords, h0, ih (row + 1) fun i hi => by
      have := h (i + 1) (by omega)
      rwa [show row + (i + 1) = row + 1 + i from by omega] at this]

theorem sourceWords_cons (s : State) (l : Nat) (g : Region) (gs : List Region) {ws : List Word} {rest : List (List Word)}
    (h : s.regionWords l g.row g.len = some ws) (hr : s.sourceWords l gs = some rest) :
    s.sourceWords l (g :: gs) = some (ws :: rest) := by
  rw [State.sourceWords, h, hr]

/-- One `⊥` word in one source region makes the sources `⊥`. -/
theorem sourceWords_eq_none_iff (s : State) (l : Nat) (gs : List Region) :
    s.sourceWords l gs = none ↔ ∃ g ∈ gs, s.regionWords l g.row g.len = none := by
  induction gs with
  | nil => simp [State.sourceWords]
  | cons g gs ih =>
    rw [State.sourceWords]
    simp only [List.mem_cons, exists_eq_or_imp, ← ih]
    cases s.regionWords l g.row g.len <;> cases s.sourceWords l gs <;> simp

theorem sourceWords_congr {s s' : State} {l l' : Nat} (gs : List Region)
    (h : ∀ g ∈ gs, ∀ i < g.len, s.word (g.row + i) l = s'.word (g.row + i) l') :
    s.sourceWords l gs = s'.sourceWords l' gs := by
  induction gs with
  | nil => rfl
  | cons g gs ih =>
    rw [State.sourceWords, State.sourceWords, regionWords_congr g.len g.row (h g (by simp)),
      ih fun g' hg' => h g' (by simp [hg'])]

/-! ### What Execute records -/

theorem mem_addFault {fs : List FaultEntry} {e e' : FaultEntry} : e' ∈ addFault fs e ↔ e' ∈ fs ∨ e' = e := by
  rw [addFault]
  split_ifs with h
  · constructor
    · exact Or.inl
    · rintro (h' | rfl)
      · exact h'
      · exact h
  · simp

theorem nodup_addFault {fs : List FaultEntry} (e : FaultEntry) (h : fs.Nodup) : (addFault fs e).Nodup := by
  rw [addFault]
  split_ifs with he
  · exact h
  · exact List.nodup_append.mpr ⟨h, by simp, fun a ha b hb => by simp at hb; subst hb; exact fun e => he (e ▸ ha)⟩

/-- Adding a list of entries to a record adds these entries and loses none. -/
theorem mem_keepFaults (old fs : List FaultEntry) (e : FaultEntry) : e ∈ keepFaults old fs ↔ e ∈ old ∨ e ∈ fs := by
  rw [keepFaults]
  induction fs generalizing old with
  | nil => simp
  | cons f fs ih => rw [List.foldl_cons, ih, mem_addFault, List.mem_cons, or_assoc]

theorem nodup_keepFaults {old : List FaultEntry} (fs : List FaultEntry) (h : old.Nodup) : (keepFaults old fs).Nodup := by
  rw [keepFaults]
  induction fs generalizing old with
  | nil => exact h
  | cons f fs ih => exact ih (nodup_addFault f h)

theorem mem_recordLanes (cmd : CmdWord) (res : Nat → LaneResult) (ls : List Nat) (fs : List FaultEntry)
    (e : FaultEntry) :
    e ∈ ls.foldl (fun fs l => recordLane cmd fs l (res l)) fs ↔
      e ∈ fs ∨ ∃ l ∈ ls, ∃ u, res l = .error u ∧ e = .command u cmd l := by
  induction ls generalizing fs with
  | nil => simp
  | cons l ls ih =>
    rw [List.foldl_cons, ih]
    have hl : e ∈ recordLane cmd fs l (res l) ↔ e ∈ fs ∨ ∃ u, res l = .error u ∧ e = .command u cmd l := by
      cases res l with
      | ok ws => simp [recordLane]
      | error u => simp [recordLane, mem_addFault]
    rw [hl]
    simp only [List.mem_cons, exists_eq_or_imp, or_assoc]

theorem nodup_recordLane (cmd : CmdWord) {fs : List FaultEntry} (l : Nat) (r : LaneResult) (h : fs.Nodup) :
    (recordLane cmd fs l r).Nodup := by
  cases r with
  | ok ws => exact h
  | error u => exact nodup_addFault _ h

theorem nodup_recordLanes (cmd : CmdWord) (res : Nat → LaneResult) (ls : List Nat) {fs : List FaultEntry}
    (h : fs.Nodup) : (ls.foldl (fun fs l => recordLane cmd fs l (res l)) fs).Nodup := by
  induction ls generalizing fs with
  | nil => exact h
  | cons l ls ih =>
    exact ih (nodup_recordLane cmd l (res l) h)

/-- FAULT after Execute: what it held, and one entry for each active lane whose result is a UB fault (R264). -/
theorem mem_execute_faults (s : State) (k : Latch) (sh : Shape) (rule : List (List Word) → LaneResult) (e : FaultEntry) :
    e ∈ (s.execute k sh rule).faults ↔
      e ∈ s.faults ∨ ∃ l, l < s.cfg.lanes ∧ k.mask.getLsbD l = true ∧
        ∃ u, laneResult s sh rule l = .error u ∧ e = .command u k.cmd l := by
  rw [State.execute, mem_recordLanes]
  simp only [mem_activeLanes, and_assoc]

/-- The destination word of an active lane after Execute. -/
theorem word_execute {s : State} {k : Latch} {sh : Shape} {rule : List (List Word) → LaneResult}
    (hm : s.dm.wf = true) {i l : Nat} (hi : i < sh.dst.len) (hl : l < s.cfg.lanes) (hb : k.mask.getLsbD l = true) :
    (s.execute k sh rule).word (sh.dst.row + i) l = resultWord (laneResult s sh rule l) i :=
  readWord_writeRegion hm hi hl hb

/-- Every other word keeps its value (R72, R74). -/
theorem word_execute_other {s : State} {k : Latch} {sh : Shape} {rule : List (List Word) → LaneResult}
    {r l : Nat} (hl : l < s.cfg.lanes) (h : k.mask.getLsbD l = false ∨ r < sh.dst.row ∨ sh.dst.row + sh.dst.len ≤ r) :
    (s.execute k sh rule).word r l = s.word r l :=
  readWord_writeRegion_other hl h

/-! ### The core's step for a command -/

/-- All that `runCommand` can answer. -/
theorem runCommand_cases (sh : Shape) (rule : List (List Word) → LaneResult) (s : State) :
    (s.latch = none ∧ runCommand sh rule s = .fault .latchEmpty) ∨
    (∃ k e, s.latch = some k ∧ sh.check s.cfg.rows = some e ∧ runCommand sh rule s = .next (s.complete (some e))) ∨
    (∃ k, s.latch = some k ∧ sh.check s.cfg.rows = none ∧
      runCommand sh rule s = .next ((s.execute k sh rule).complete none)) := by
  rw [runCommand]
  cases hl : s.latch with
  | none => exact Or.inl ⟨rfl, rfl⟩
  | some k =>
    cases hc : sh.check s.cfg.rows with
    | some e => exact Or.inr (Or.inl ⟨k, e, rfl, rfl, rfl⟩)
    | none => exact Or.inr (Or.inr ⟨k, rfl, rfl, rfl⟩)

/-- A command that passes its checks is executed. -/
theorem runCommand_of_ok {sh : Shape} {s : State} {k : Latch} (rule : List (List Word) → LaneResult)
    (hk : s.latch = some k) (hc : sh.check s.cfg.rows = none) :
    runCommand sh rule s = .next ((s.execute k sh rule).complete none) := by
  rw [runCommand, hk]
  simp only [hc]

/-- A command that fails one ends in that command error. -/
theorem runCommand_of_error {sh : Shape} {s : State} {k : Latch} {e : CmdError}
    (rule : List (List Word) → LaneResult) (hk : s.latch = some k) (hc : sh.check s.cfg.rows = some e) :
    runCommand sh rule s = .next (s.complete (some e)) := by
  rw [runCommand, hk]
  simp only [hc]

/-- The result of a lane whose sources are all read. -/
theorem laneResult_of_sources {s : State} {sh : Shape} {l : Nat} {ws : List (List Word)}
    (rule : List (List Word) → LaneResult) (h : s.sourceWords l sh.srcs = some ws) : laneResult s sh rule l = rule ws := by
  rw [laneResult, h]

/-- The result of a lane with a `⊥` source word (R71). -/
theorem laneResult_of_bot {s : State} {sh : Shape} {l : Nat} (rule : List (List Word) → LaneResult)
    (h : s.sourceWords l sh.srcs = none) : laneResult s sh rule l = .error .uninit := by
  rw [laneResult, h]

/-- The checks pass exactly when the fields are in range and every region lies below DM_ROWS. -/
theorem check_eq_none_iff (sh : Shape) (rows : Nat) :
    sh.check rows = none ↔ sh.fieldError = none ∧ sh.dst.row + sh.dst.len ≤ rows ∧
      ∀ g ∈ sh.srcs, g.row + g.len ≤ rows := by
  rw [Shape.check]
  cases sh.fieldError with
  | some e => simp
  | none => simp [Region.inRange]

/-- A command's meaning is `runCommand` of its operand table row with its instruction rule. -/
theorem exec_eq_runCommand (i : Instr) : ∃ rule, ∀ s, exec i s = runCommand (shape i) rule s := by
  cases i <;> exact ⟨_, fun _ => rfl⟩

end Sys2Proof.Machine
end

