-- ==== Sys2Proof/Laws/Decode.lean ====
section
/-! SUPPORT. The fields of an encoded word, and the word of the fields (spec 30_encoding.md R101). -/

namespace Sys2Proof

/-- An opcode number stands for one opcode. -/
@[simp] theorem ofCode_code (op : Opcode) : Opcode.ofCode op.code = some op := by cases op <;> rfl

/-- A number that stands for an opcode is that opcode's number. -/
theorem code_of_ofCode {n : BitVec 8} {op : Opcode} (h : Opcode.ofCode n = some op) : op.code = n := by
  revert n op; decide

theorem toNat_append_eq {m n : Nat} (x : BitVec m) (y : BitVec n) : (x ++ y).toNat = x.toNat * 2 ^ n + y.toNat := by
  rw [BitVec.toNat_append, ← Nat.shiftLeft_add_eq_or_of_lt y.isLt, Nat.shiftLeft_eq]

/-- The word as a number: each field at its bit position (R101). -/
theorem toWord_toNat (f : Fields) :
    f.toWord.toNat = f.opc.toNat + f.sz.toNat * 2 ^ 8 + f.sh.toNat * 2 ^ 16 + f.lx.toNat * 2 ^ 32 +
      f.lm.toNat * 2 ^ 40 + f.rd.toNat * 2 ^ 64 + f.ra.toNat * 2 ^ 80 + f.rb.toNat * 2 ^ 96 + f.rc.toNat * 2 ^ 112 := by
  simp only [Fields.toWord, toNat_append_eq, BitVec.toNat_ofNat]
  omega

theorem extract_toNat (w : CmdWord) (s n : Nat) : (w.extractLsb' s n).toNat = w.toNat / 2 ^ s % 2 ^ n := by
  rw [BitVec.extractLsb'_toNat, Nat.shiftRight_eq_div_pow]

/-- The fields of the word with these fields are these fields. -/
theorem ofWord_toWord (f : Fields) : Fields.ofWord f.toWord = f := by
  have hw := toWord_toNat f
  obtain ⟨opc, sz, sh, lx, lm, rd, ra, rb, rc⟩ := f
  have h1 := opc.isLt
  have h2 := sz.isLt
  have h3 := sh.isLt
  have h4 := lx.isLt
  have h5 := lm.isLt
  have h6 := rd.isLt
  have h7 := ra.isLt
  have h8 := rb.isLt
  have h9 := rc.isLt
  simp only [Fields.ofWord, Fields.mk.injEq]
  simp only at hw
  refine ⟨?_, ?_, ?_, ?_, ?_, ?_, ?_, ?_, ?_⟩ <;>
    · apply BitVec.eq_of_toNat_eq
      rw [extract_toNat, hw]
      omega

/-- The reserved bits of a word are 0 as numbers. -/
theorem reservedZero_iff (w : CmdWord) :
    reservedZero w = true ↔
      w.toNat / 2 ^ 11 % 2 ^ 5 = 0 ∧ w.toNat / 2 ^ 22 % 2 ^ 10 = 0 ∧ w.toNat / 2 ^ 48 % 2 ^ 16 = 0 := by
  have hz : ∀ s n, w.extractLsb' s n = 0#n ↔ w.toNat / 2 ^ s % 2 ^ n = 0 := by
    intro s n
    rw [← BitVec.toNat_inj, extract_toNat, BitVec.toNat_ofNat, Nat.zero_mod]
  simp only [reservedZero, Bool.and_eq_true, beq_iff_eq, hz, and_assoc]

/-- The reserved bits of the word with these fields are 0. -/
theorem reservedZero_toWord (f : Fields) : reservedZero f.toWord = true := by
  rw [reservedZero_iff, toWord_toNat]
  have h1 := f.opc.isLt
  have h2 := f.sz.isLt
  have h3 := f.sh.isLt
  have h4 := f.lx.isLt
  have h5 := f.lm.isLt
  have h6 := f.rd.isLt
  have h7 := f.ra.isLt
  have h8 := f.rb.isLt
  have h9 := f.rc.isLt
  omega

/-- A word whose reserved bits are 0 is the word of its fields. -/
theorem toWord_ofWord {w : CmdWord} (h : reservedZero w = true) : (Fields.ofWord w).toWord = w := by
  rw [reservedZero_iff] at h
  apply BitVec.eq_of_toNat_eq
  rw [toWord_toNat]
  simp only [Fields.ofWord, extract_toNat]
  have := w.isLt
  omega

end Sys2Proof
end

