-- ==== Sys2Proof/Laws/Digits.lean ====
section
/-! SUPPORT. The laws of digit arrays: their values, their digits, and normalised arrays (spec 00_scope.md R14). -/

namespace Sys2Proof.Machine

theorem normalised_iff (a : List Word) : normalised a = true ↔ ∀ w ∈ a, w.toNat < 2 ^ 52 := by
  simp [normalised]

@[simp] theorem digits_length (v n : Nat) : (digits v n).length = n := by
  induction n generalizing v with
  | zero => rfl
  | succ n ih => simp [digits, ih]

/-- Digit `i` of `Digits(v, n)`. -/
theorem digits_getElem? (v n i : Nat) :
    (digits v n)[i]? = if i < n then some (BitVec.ofNat 64 (v / 2 ^ (52 * i) % 2 ^ 52)) else none := by
  induction n generalizing v i with
  | zero => simp [digits]
  | succ n ih =>
    cases i with
    | zero => simp [digits]
    | succ i =>
      rw [digits, List.getElem?_cons_succ, ih, Nat.div_div_eq_div_mul, ← pow_add,
        show 52 + 52 * i = 52 * (i + 1) from by omega]
      simp

theorem toNat_ofNat_mod_digit (x : Nat) : (BitVec.ofNat 64 (x % 2 ^ 52)).toNat = x % 2 ^ 52 := by
  rw [BitVec.toNat_ofNat]
  exact Nat.mod_eq_of_lt (lt_of_lt_of_le (Nat.mod_lt _ (by norm_num)) (by norm_num))

theorem digits_normalised (v n : Nat) : normalised (digits v n) = true := by
  induction n generalizing v with
  | zero => rfl
  | succ n ih =>
    have := ih (v / 2 ^ 52)
    simp only [normalised, digits, List.all_cons, toNat_ofNat_mod_digit, Bool.and_eq_true, decide_eq_true_eq] at *
    exact ⟨Nat.mod_lt _ (by norm_num), this⟩

/-- The value of `Digits(v, n)` is `v mod 2^(52·n)`. -/
theorem val_digits (v n : Nat) : val (digits v n) = v % 2 ^ (52 * n) := by
  induction n generalizing v with
  | zero => simp [digits, val, Nat.mod_one]
  | succ n ih =>
    rw [digits, val, toNat_ofNat_mod_digit, ih, show 52 * (n + 1) = 52 + 52 * n from by omega, pow_add, Nat.mod_mul]

theorem val_digits_of_lt {v n : Nat} (h : v < 2 ^ (52 * n)) : val (digits v n) = v := by
  rw [val_digits, Nat.mod_eq_of_lt h]

/-- A normalised array of n digits is below `2^(52·n)`. -/
theorem val_lt {a : List Word} (h : normalised a = true) : val a < 2 ^ (52 * a.length) := by
  induction a with
  | nil => simp [val]
  | cons d ds ih =>
    rw [normalised, List.all_cons, Bool.and_eq_true, decide_eq_true_eq] at h
    have h2 := ih h.2
    rw [val, List.length_cons, show 52 * (ds.length + 1) = 52 + 52 * ds.length from by omega, pow_add]
    have := h.1
    generalize 2 ^ (52 * ds.length) = p at *
    norm_num at *
    nlinarith

/-- A normalised array is the digits of its value. -/
theorem digits_val {a : List Word} (h : normalised a = true) : digits (val a) a.length = a := by
  induction a with
  | nil => rfl
  | cons d ds ih =>
    rw [normalised, List.all_cons, Bool.and_eq_true, decide_eq_true_eq] at h
    have h1 : (d.toNat + 2 ^ 52 * val ds) % 2 ^ 52 = d.toNat := by
      rw [Nat.add_mul_mod_self_left, Nat.mod_eq_of_lt h.1]
    have h2 : (d.toNat + 2 ^ 52 * val ds) / 2 ^ 52 = val ds := by
      rw [Nat.add_mul_div_left _ _ (by norm_num), Nat.div_eq_of_lt h.1, Nat.zero_add]
    rw [List.length_cons, val, digits, h1, h2, ih h.2]
    simp

/-- `R^(n+1)` is the radix times `R^n`. -/
theorem radix_pow_succ (n : Nat) : 2 ^ (52 * (n + 1)) = 2 ^ 52 * 2 ^ (52 * n) := by
  rw [Nat.mul_add, Nat.add_comm (52 * n), pow_add]

theorem val_append (a b : List Word) : val (a ++ b) = val a + 2 ^ (52 * a.length) * val b := by
  induction a with
  | nil => simp [val]
  | cons d ds ih =>
    have aux : ∀ x p q y z : Nat, x + p * (y + q * z) = x + p * y + p * q * z := by intros; ring
    calc val (d :: ds ++ b) = d.toNat + 2 ^ 52 * (val ds + 2 ^ (52 * ds.length) * val b) := by
          rw [List.cons_append, val, ih]
      _ = d.toNat + 2 ^ 52 * val ds + 2 ^ 52 * 2 ^ (52 * ds.length) * val b := aux _ _ _ _ _
      _ = val (d :: ds) + 2 ^ (52 * (d :: ds).length) * val b :=
          congrArg (fun q => val (d :: ds) + q * val b) (radix_pow_succ ds.length).symm

/-- A value is that of its low digits and of the rest. -/
theorem val_take_add_drop (a : List Word) {n : Nat} (h : n ≤ a.length) :
    val a = val (a.take n) + 2 ^ (52 * n) * val (a.drop n) := by
  conv_lhs => rw [← List.take_append_drop n a]
  rw [val_append, List.length_take, Nat.min_eq_left h]

/-- The value is the sum of R14. -/
theorem val_eq_sum (a : List Word) :
    val a = ∑ i ∈ Finset.range a.length, (a.getD i 0#64).toNat * 2 ^ (52 * i) := by
  induction a with
  | nil => simp [val]
  | cons d ds ih =>
    rw [List.length_cons, Finset.sum_range_succ', val, ih, Finset.mul_sum, Nat.add_comm]
    refine congrArg₂ (· + ·) (Finset.sum_congr rfl fun i _ => ?_) (by simp)
    rw [List.getD_cons_succ, radix_pow_succ, Nat.mul_left_comm]

theorem val_eq_zero_iff (a : List Word) : val a = 0 ↔ ∀ w ∈ a, w = 0#64 := by
  induction a with
  | nil => simp [val]
  | cons d ds ih =>
    simp only [val, Nat.add_eq_zero_iff, Nat.mul_eq_zero, List.mem_cons, forall_eq_or_imp, ih]
    have : d.toNat = 0 ↔ d = 0#64 := by
      constructor
      · intro h; exact BitVec.eq_of_toNat_eq (by simpa using h)
      · rintro rfl; rfl
    rw [this]
    norm_num

/-! ### Significant digits and bit lengths -/

theorem sigDigits_le (a : List Word) : sigDigits a ≤ a.length := by
  induction a with
  | nil => simp [sigDigits]
  | cons d ds ih =>
    simp only [sigDigits, List.length_cons]
    split_ifs <;> omega

theorem sigDigits_eq_zero_iff (a : List Word) : sigDigits a = 0 ↔ val a = 0 := by
  induction a with
  | nil => simp [sigDigits, val]
  | cons d ds ih =>
    have hd : val (d :: ds) = 0 ↔ d = 0#64 ∧ val ds = 0 := by
      simp only [val_eq_zero_iff, List.mem_cons, forall_eq_or_imp]
    rw [hd, ← ih, sigDigits]
    split_ifs with h1 h2
    · exact ⟨fun _ => ⟨h2, h1⟩, fun _ => rfl⟩
    · simp [h2]
    · simp [h1]

/-- The significant digits have the whole value. -/
theorem val_take_sigDigits (a : List Word) : val (a.take (sigDigits a)) = val a := by
  induction a with
  | nil => rfl
  | cons d ds ih =>
    rw [sigDigits]
    split_ifs with h1 h2
    · simp [val, h2, (sigDigits_eq_zero_iff ds).mp h1]
    · simp [val, (sigDigits_eq_zero_iff ds).mp h1]
    · rw [List.take_succ_cons, val, val, ih]

/-- The top significant digit is not 0. -/
theorem sigDigits_top_ne_zero {a : List Word} (h : val a ≠ 0) : a.getD (sigDigits a - 1) 0#64 ≠ 0#64 := by
  induction a with
  | nil => simp [val] at h
  | cons d ds ih =>
    rw [sigDigits]
    split_ifs with h1 h2
    · simp [val, h2, (sigDigits_eq_zero_iff ds).mp h1] at h
    · simpa using h2
    · have := ih fun h => h1 ((sigDigits_eq_zero_iff ds).mpr h)
      rw [Nat.add_sub_cancel, show sigDigits ds = (sigDigits ds - 1) + 1 from by omega, List.getD_cons_succ]
      exact this

theorem bitlen_bounds {v : Nat} (h : v ≠ 0) : 2 ^ (bitlen v - 1) ≤ v ∧ v < 2 ^ bitlen v := by
  rw [bitlen, if_neg h]
  exact ⟨by simpa using Nat.log2_self_le h, Nat.lt_log2_self⟩

/-! ### The widths -/

/-- The digit counts and top bits of R8's table. -/
theorem width_table (w : Width) :
    (w.bits, w.digits, w.topbits) = match w with
      | .w512 => (512, 10, 44)
      | .w1024 => (1024, 20, 36)
      | .w1536 => (1536, 30, 28)
      | .w2048 => (2048, 40, 20)
      | .w3072 => (3072, 60, 4)
      | .w4096 => (4096, 79, 40) := by
  cases w <;> rfl

theorem width_digits_pos (w : Width) : 0 < w.digits := by cases w <;> decide

theorem width_digits_le (w : Width) : w.digits ≤ 79 := by cases w <;> decide

/-- Four times a W-bit value is below R (the headroom column of R8). -/
theorem width_headroom (w : Width) : w.bits + 8 ≤ 52 * w.digits := by cases w <;> decide

theorem digitCount_of_code {sz : SizeCode} {w : Width} (h : Width.ofCode sz = some w) : digitCount sz = w.digits := by
  simp [digitCount, h]

theorem widthBits_of_code {sz : SizeCode} {w : Width} (h : Width.ofCode sz = some w) : widthBits sz = w.bits := by
  simp [widthBits, h]

end Sys2Proof.Machine
end

