-- ==== Sys2Proof/Laws/State.lean ====
section
/-! SUPPORT. Each field of the state after each update of the state: the projections later proofs rewrite with, so that none
of them unfolds a record update. -/

namespace Sys2Proof.Machine

/-! ### A command that ends without a command error -/

@[simp] theorem completeOk_cfg (s : State) : (s.complete none).cfg = s.cfg := rfl

@[simp] theorem completeOk_dm (s : State) : (s.complete none).dm = s.dm := rfl

@[simp] theorem completeOk_ie (s : State) : (s.complete none).ie = s.ie := rfl

@[simp] theorem completeOk_busy (s : State) : (s.complete none).busy = false := rfl

@[simp] theorem completeOk_done (s : State) : (s.complete none).done = true := rfl

@[simp] theorem completeOk_err (s : State) : (s.complete none).err = s.err := rfl

@[simp] theorem completeOk_ovr (s : State) : (s.complete none).ovr = s.ovr := rfl

@[simp] theorem completeOk_errCode (s : State) : (s.complete none).errCode = s.errCode := rfl

@[simp] theorem completeOk_laneMask (s : State) : (s.complete none).laneMask = s.laneMask := rfl

@[simp] theorem completeOk_cmdLo (s : State) : (s.complete none).cmdLo = s.cmdLo := rfl

@[simp] theorem completeOk_cmdHi (s : State) : (s.complete none).cmdHi = s.cmdHi := rfl

@[simp] theorem completeOk_latch (s : State) : (s.complete none).latch = none := rfl

@[simp] theorem completeOk_faults (s : State) : (s.complete none).faults = s.faults := rfl

@[simp] theorem completeOk_earlierFaults (s : State) : (s.complete none).earlierFaults = s.earlierFaults := rfl

@[simp] theorem completeOk_inputs (s : State) : (s.complete none).inputs = s.inputs := rfl

@[simp] theorem completeOk_turns (s : State) : (s.complete none).turns = s.turns := rfl

@[simp] theorem completeOk_replies (s : State) : (s.complete none).replies = s.replies := rfl

/-! ### A command that ends in a command error -/

@[simp] theorem completeError_cfg (s : State) (c : CmdError) : (s.complete (some c)).cfg = s.cfg := rfl

@[simp] theorem completeError_dm (s : State) (c : CmdError) : (s.complete (some c)).dm = s.dm := rfl

@[simp] theorem completeError_ie (s : State) (c : CmdError) : (s.complete (some c)).ie = s.ie := rfl

@[simp] theorem completeError_busy (s : State) (c : CmdError) : (s.complete (some c)).busy = false := rfl

@[simp] theorem completeError_done (s : State) (c : CmdError) : (s.complete (some c)).done = true := rfl

@[simp] theorem completeError_err (s : State) (c : CmdError) : (s.complete (some c)).err = true := rfl

@[simp] theorem completeError_ovr (s : State) (c : CmdError) : (s.complete (some c)).ovr = s.ovr := rfl

@[simp] theorem completeError_errCode (s : State) (c : CmdError) : (s.complete (some c)).errCode = c.code := rfl

@[simp] theorem completeError_laneMask (s : State) (c : CmdError) : (s.complete (some c)).laneMask = s.laneMask := rfl

@[simp] theorem completeError_cmdLo (s : State) (c : CmdError) : (s.complete (some c)).cmdLo = s.cmdLo := rfl

@[simp] theorem completeError_cmdHi (s : State) (c : CmdError) : (s.complete (some c)).cmdHi = s.cmdHi := rfl

@[simp] theorem completeError_latch (s : State) (c : CmdError) : (s.complete (some c)).latch = none := rfl

@[simp] theorem completeError_faults (s : State) (c : CmdError) : (s.complete (some c)).faults = s.faults := rfl

@[simp] theorem completeError_earlierFaults (s : State) (c : CmdError) : (s.complete (some c)).earlierFaults = s.earlierFaults := rfl

@[simp] theorem completeError_inputs (s : State) (c : CmdError) : (s.complete (some c)).inputs = s.inputs := rfl

@[simp] theorem completeError_turns (s : State) (c : CmdError) : (s.complete (some c)).turns = s.turns := rfl

@[simp] theorem completeError_replies (s : State) (c : CmdError) : (s.complete (some c)).replies = s.replies := rfl

/-! ### Execute -/

@[simp] theorem execute_cfg (s : State) (k : Latch) (sh : Shape) (rule : List (List Word) → LaneResult) : (s.execute k sh rule).cfg = s.cfg := rfl

@[simp] theorem execute_dm (s : State) (k : Latch) (sh : Shape) (rule : List (List Word) → LaneResult) : (s.execute k sh rule).dm = s.dm.writeAll (regionWrites s.cfg k.mask sh.dst fun l i => resultWord (laneResult s sh rule l) i) := rfl

@[simp] theorem execute_ie (s : State) (k : Latch) (sh : Shape) (rule : List (List Word) → LaneResult) : (s.execute k sh rule).ie = s.ie := rfl

@[simp] theorem execute_busy (s : State) (k : Latch) (sh : Shape) (rule : List (List Word) → LaneResult) : (s.execute k sh rule).busy = s.busy := rfl

@[simp] theorem execute_done (s : State) (k : Latch) (sh : Shape) (rule : List (List Word) → LaneResult) : (s.execute k sh rule).done = s.done := rfl

@[simp] theorem execute_err (s : State) (k : Latch) (sh : Shape) (rule : List (List Word) → LaneResult) : (s.execute k sh rule).err = s.err := rfl

@[simp] theorem execute_ovr (s : State) (k : Latch) (sh : Shape) (rule : List (List Word) → LaneResult) : (s.execute k sh rule).ovr = s.ovr := rfl

@[simp] theorem execute_errCode (s : State) (k : Latch) (sh : Shape) (rule : List (List Word) → LaneResult) : (s.execute k sh rule).errCode = s.errCode := rfl

@[simp] theorem execute_laneMask (s : State) (k : Latch) (sh : Shape) (rule : List (List Word) → LaneResult) : (s.execute k sh rule).laneMask = s.laneMask := rfl

@[simp] theorem execute_cmdLo (s : State) (k : Latch) (sh : Shape) (rule : List (List Word) → LaneResult) : (s.execute k sh rule).cmdLo = s.cmdLo := rfl

@[simp] theorem execute_cmdHi (s : State) (k : Latch) (sh : Shape) (rule : List (List Word) → LaneResult) : (s.execute k sh rule).cmdHi = s.cmdHi := rfl

@[simp] theorem execute_latch (s : State) (k : Latch) (sh : Shape) (rule : List (List Word) → LaneResult) : (s.execute k sh rule).latch = s.latch := rfl

@[simp] theorem execute_faults (s : State) (k : Latch) (sh : Shape) (rule : List (List Word) → LaneResult) : (s.execute k sh rule).faults = (activeLanes s.cfg k.mask).foldl (fun fs l => recordLane k.cmd fs l (laneResult s sh rule l)) s.faults := rfl

@[simp] theorem execute_earlierFaults (s : State) (k : Latch) (sh : Shape) (rule : List (List Word) → LaneResult) : (s.execute k sh rule).earlierFaults = s.earlierFaults := rfl

@[simp] theorem execute_inputs (s : State) (k : Latch) (sh : Shape) (rule : List (List Word) → LaneResult) : (s.execute k sh rule).inputs = s.inputs := rfl

@[simp] theorem execute_turns (s : State) (k : Latch) (sh : Shape) (rule : List (List Word) → LaneResult) : (s.execute k sh rule).turns = s.turns := rfl

@[simp] theorem execute_replies (s : State) (k : Latch) (sh : Shape) (rule : List (List Word) → LaneResult) : (s.execute k sh rule).replies = s.replies := rfl

/-! ### The registers after a reset -/

@[simp] theorem resetRegisters_cfg (s : State) : (s.resetRegisters).cfg = s.cfg := rfl

@[simp] theorem resetRegisters_dm (s : State) : (s.resetRegisters).dm = s.dm := rfl

@[simp] theorem resetRegisters_ie (s : State) : (s.resetRegisters).ie = false := rfl

@[simp] theorem resetRegisters_busy (s : State) : (s.resetRegisters).busy = false := rfl

@[simp] theorem resetRegisters_done (s : State) : (s.resetRegisters).done = false := rfl

@[simp] theorem resetRegisters_err (s : State) : (s.resetRegisters).err = false := rfl

@[simp] theorem resetRegisters_ovr (s : State) : (s.resetRegisters).ovr = false := rfl

@[simp] theorem resetRegisters_errCode (s : State) : (s.resetRegisters).errCode = 0#8 := rfl

@[simp] theorem resetRegisters_laneMask (s : State) : (s.resetRegisters).laneMask = allLanes s.cfg := rfl

@[simp] theorem resetRegisters_cmdLo (s : State) : (s.resetRegisters).cmdLo = 0#64 := rfl

@[simp] theorem resetRegisters_cmdHi (s : State) : (s.resetRegisters).cmdHi = 0#64 := rfl

@[simp] theorem resetRegisters_latch (s : State) : (s.resetRegisters).latch = none := rfl

@[simp] theorem resetRegisters_faults (s : State) : (s.resetRegisters).faults = s.faults := rfl

@[simp] theorem resetRegisters_earlierFaults (s : State) : (s.resetRegisters).earlierFaults = s.earlierFaults := rfl

@[simp] theorem resetRegisters_inputs (s : State) : (s.resetRegisters).inputs = s.inputs := rfl

@[simp] theorem resetRegisters_turns (s : State) : (s.resetRegisters).turns = s.turns := rfl

@[simp] theorem resetRegisters_replies (s : State) : (s.resetRegisters).replies = s.replies := rfl

/-! ### The reset input -/

@[simp] theorem powerOnReset_cfg (s : State) : (s.powerOnReset).cfg = s.cfg := rfl

@[simp] theorem powerOnReset_dm (s : State) : (s.powerOnReset).dm = [] := rfl

@[simp] theorem powerOnReset_ie (s : State) : (s.powerOnReset).ie = false := rfl

@[simp] theorem powerOnReset_busy (s : State) : (s.powerOnReset).busy = false := rfl

@[simp] theorem powerOnReset_done (s : State) : (s.powerOnReset).done = false := rfl

@[simp] theorem powerOnReset_err (s : State) : (s.powerOnReset).err = false := rfl

@[simp] theorem powerOnReset_ovr (s : State) : (s.powerOnReset).ovr = false := rfl

@[simp] theorem powerOnReset_errCode (s : State) : (s.powerOnReset).errCode = 0#8 := rfl

@[simp] theorem powerOnReset_laneMask (s : State) : (s.powerOnReset).laneMask = allLanes s.cfg := rfl

@[simp] theorem powerOnReset_cmdLo (s : State) : (s.powerOnReset).cmdLo = 0#64 := rfl

@[simp] theorem powerOnReset_cmdHi (s : State) : (s.powerOnReset).cmdHi = 0#64 := rfl

@[simp] theorem powerOnReset_latch (s : State) : (s.powerOnReset).latch = none := rfl

@[simp] theorem powerOnReset_faults (s : State) : (s.powerOnReset).faults = [] := rfl

@[simp] theorem powerOnReset_earlierFaults (s : State) :
    (s.powerOnReset).earlierFaults = keepFaults s.earlierFaults s.faults := rfl

@[simp] theorem powerOnReset_inputs (s : State) : (s.powerOnReset).inputs = s.inputs := rfl

@[simp] theorem powerOnReset_turns (s : State) : (s.powerOnReset).turns = s.turns := rfl

@[simp] theorem powerOnReset_replies (s : State) : (s.powerOnReset).replies = s.replies := rfl

/-! ### A write to STATUS -/

@[simp] theorem writeStatus_cfg (s : State) (v : Word) : (s.writeStatus v).cfg = s.cfg := rfl

@[simp] theorem writeStatus_dm (s : State) (v : Word) : (s.writeStatus v).dm = s.dm := rfl

@[simp] theorem writeStatus_ie (s : State) (v : Word) : (s.writeStatus v).ie = s.ie := rfl

@[simp] theorem writeStatus_busy (s : State) (v : Word) : (s.writeStatus v).busy = s.busy := rfl

@[simp] theorem writeStatus_done (s : State) (v : Word) : (s.writeStatus v).done = (s.done && !v.getLsbD 1) := rfl

@[simp] theorem writeStatus_err (s : State) (v : Word) : (s.writeStatus v).err = (s.err && !v.getLsbD 2) := rfl

@[simp] theorem writeStatus_ovr (s : State) (v : Word) : (s.writeStatus v).ovr = (s.ovr && !v.getLsbD 3) := rfl

@[simp] theorem writeStatus_errCode (s : State) (v : Word) : (s.writeStatus v).errCode = if v.getLsbD 2 then 0#8 else s.errCode := rfl

@[simp] theorem writeStatus_laneMask (s : State) (v : Word) : (s.writeStatus v).laneMask = s.laneMask := rfl

@[simp] theorem writeStatus_cmdLo (s : State) (v : Word) : (s.writeStatus v).cmdLo = s.cmdLo := rfl

@[simp] theorem writeStatus_cmdHi (s : State) (v : Word) : (s.writeStatus v).cmdHi = s.cmdHi := rfl

@[simp] theorem writeStatus_latch (s : State) (v : Word) : (s.writeStatus v).latch = s.latch := rfl

@[simp] theorem writeStatus_faults (s : State) (v : Word) : (s.writeStatus v).faults = s.faults := rfl

@[simp] theorem writeStatus_earlierFaults (s : State) (v : Word) : (s.writeStatus v).earlierFaults = s.earlierFaults := rfl

@[simp] theorem writeStatus_inputs (s : State) (v : Word) : (s.writeStatus v).inputs = s.inputs := rfl

@[simp] theorem writeStatus_turns (s : State) (v : Word) : (s.writeStatus v).turns = s.turns := rfl

@[simp] theorem writeStatus_replies (s : State) (v : Word) : (s.writeStatus v).replies = s.replies := rfl

/-! ### A value returned to the host -/

@[simp] theorem reply_cfg (s : State) (v : Word) : (s.reply v).cfg = s.cfg := rfl

@[simp] theorem reply_dm (s : State) (v : Word) : (s.reply v).dm = s.dm := rfl

@[simp] theorem reply_ie (s : State) (v : Word) : (s.reply v).ie = s.ie := rfl

@[simp] theorem reply_busy (s : State) (v : Word) : (s.reply v).busy = s.busy := rfl

@[simp] theorem reply_done (s : State) (v : Word) : (s.reply v).done = s.done := rfl

@[simp] theorem reply_err (s : State) (v : Word) : (s.reply v).err = s.err := rfl

@[simp] theorem reply_ovr (s : State) (v : Word) : (s.reply v).ovr = s.ovr := rfl

@[simp] theorem reply_errCode (s : State) (v : Word) : (s.reply v).errCode = s.errCode := rfl

@[simp] theorem reply_laneMask (s : State) (v : Word) : (s.reply v).laneMask = s.laneMask := rfl

@[simp] theorem reply_cmdLo (s : State) (v : Word) : (s.reply v).cmdLo = s.cmdLo := rfl

@[simp] theorem reply_cmdHi (s : State) (v : Word) : (s.reply v).cmdHi = s.cmdHi := rfl

@[simp] theorem reply_latch (s : State) (v : Word) : (s.reply v).latch = s.latch := rfl

@[simp] theorem reply_faults (s : State) (v : Word) : (s.reply v).faults = s.faults := rfl

@[simp] theorem reply_earlierFaults (s : State) (v : Word) : (s.reply v).earlierFaults = s.earlierFaults := rfl

@[simp] theorem reply_inputs (s : State) (v : Word) : (s.reply v).inputs = s.inputs := rfl

@[simp] theorem reply_turns (s : State) (v : Word) : (s.reply v).turns = s.turns := rfl

@[simp] theorem reply_replies (s : State) (v : Word) : (s.reply v).replies = s.replies ++ [some v] := rfl

/-! ### A command word latched -/

@[simp] theorem latchWord_cfg (s : State) (w : CmdWord) : (s.latchWord w).cfg = s.cfg := rfl

@[simp] theorem latchWord_dm (s : State) (w : CmdWord) : (s.latchWord w).dm = s.dm := rfl

@[simp] theorem latchWord_ie (s : State) (w : CmdWord) : (s.latchWord w).ie = s.ie := rfl

@[simp] theorem latchWord_busy (s : State) (w : CmdWord) : (s.latchWord w).busy = true := rfl

@[simp] theorem latchWord_done (s : State) (w : CmdWord) : (s.latchWord w).done = false := rfl

@[simp] theorem latchWord_err (s : State) (w : CmdWord) : (s.latchWord w).err = false := rfl

@[simp] theorem latchWord_ovr (s : State) (w : CmdWord) : (s.latchWord w).ovr = s.ovr := rfl

@[simp] theorem latchWord_errCode (s : State) (w : CmdWord) : (s.latchWord w).errCode = 0#8 := rfl

@[simp] theorem latchWord_laneMask (s : State) (w : CmdWord) : (s.latchWord w).laneMask = s.laneMask := rfl

@[simp] theorem latchWord_cmdLo (s : State) (w : CmdWord) : (s.latchWord w).cmdLo = s.cmdLo := rfl

@[simp] theorem latchWord_cmdHi (s : State) (w : CmdWord) : (s.latchWord w).cmdHi = s.cmdHi := rfl

@[simp] theorem latchWord_latch (s : State) (w : CmdWord) : (s.latchWord w).latch = some ⟨w, s.laneMask⟩ := rfl

@[simp] theorem latchWord_faults (s : State) (w : CmdWord) : (s.latchWord w).faults = s.faults := rfl

@[simp] theorem latchWord_earlierFaults (s : State) (w : CmdWord) : (s.latchWord w).earlierFaults = s.earlierFaults := rfl

@[simp] theorem latchWord_inputs (s : State) (w : CmdWord) : (s.latchWord w).inputs = s.inputs := rfl

@[simp] theorem latchWord_turns (s : State) (w : CmdWord) : (s.latchWord w).turns = if s.inputs.isEmpty then s.turns else .core :: s.turns := rfl

@[simp] theorem latchWord_replies (s : State) (w : CmdWord) : (s.latchWord w).replies = s.replies := rfl

/-! ### Updates under a condition -/

@[simp] theorem hostFault_cfg (s : State) (r : HostReason) (a : Access) : (s.hostFault r a).cfg = s.cfg := rfl

@[simp] theorem hostFault_dm (s : State) (r : HostReason) (a : Access) : (s.hostFault r a).dm = s.dm := rfl

@[simp] theorem hostFault_ie (s : State) (r : HostReason) (a : Access) : (s.hostFault r a).ie = s.ie := rfl

@[simp] theorem hostFault_busy (s : State) (r : HostReason) (a : Access) : (s.hostFault r a).busy = s.busy := rfl

@[simp] theorem hostFault_done (s : State) (r : HostReason) (a : Access) : (s.hostFault r a).done = s.done := rfl

@[simp] theorem hostFault_err (s : State) (r : HostReason) (a : Access) : (s.hostFault r a).err = s.err := rfl

@[simp] theorem hostFault_ovr (s : State) (r : HostReason) (a : Access) : (s.hostFault r a).ovr = s.ovr := rfl

@[simp] theorem hostFault_errCode (s : State) (r : HostReason) (a : Access) : (s.hostFault r a).errCode = s.errCode := rfl

@[simp] theorem hostFault_laneMask (s : State) (r : HostReason) (a : Access) : (s.hostFault r a).laneMask = s.laneMask := rfl

@[simp] theorem hostFault_cmdLo (s : State) (r : HostReason) (a : Access) : (s.hostFault r a).cmdLo = s.cmdLo := rfl

@[simp] theorem hostFault_cmdHi (s : State) (r : HostReason) (a : Access) : (s.hostFault r a).cmdHi = s.cmdHi := rfl

@[simp] theorem hostFault_latch (s : State) (r : HostReason) (a : Access) : (s.hostFault r a).latch = s.latch := rfl

@[simp] theorem hostFault_inputs (s : State) (r : HostReason) (a : Access) : (s.hostFault r a).inputs = s.inputs := rfl

@[simp] theorem hostFault_turns (s : State) (r : HostReason) (a : Access) : (s.hostFault r a).turns = s.turns := rfl

@[simp] theorem hostFault_faults (s : State) (r : HostReason) (a : Access) :
    (s.hostFault r a).faults = addFault s.faults (.host r a) := rfl

@[simp] theorem hostFault_earlierFaults (s : State) (r : HostReason) (a : Access) :
    (s.hostFault r a).earlierFaults = s.earlierFaults := rfl

@[simp] theorem takeTurn_cfg (s : State) : s.takeTurn.cfg = s.cfg := by
  rw [State.takeTurn]; split <;> rfl

@[simp] theorem takeTurn_dm (s : State) : s.takeTurn.dm = s.dm := by
  rw [State.takeTurn]; split <;> rfl

@[simp] theorem takeTurn_ie (s : State) : s.takeTurn.ie = s.ie := by
  rw [State.takeTurn]; split <;> rfl

@[simp] theorem takeTurn_busy (s : State) : s.takeTurn.busy = s.busy := by
  rw [State.takeTurn]; split <;> rfl

@[simp] theorem takeTurn_done (s : State) : s.takeTurn.done = s.done := by
  rw [State.takeTurn]; split <;> rfl

@[simp] theorem takeTurn_err (s : State) : s.takeTurn.err = s.err := by
  rw [State.takeTurn]; split <;> rfl

@[simp] theorem takeTurn_ovr (s : State) : s.takeTurn.ovr = s.ovr := by
  rw [State.takeTurn]; split <;> rfl

@[simp] theorem takeTurn_errCode (s : State) : s.takeTurn.errCode = s.errCode := by
  rw [State.takeTurn]; split <;> rfl

@[simp] theorem takeTurn_laneMask (s : State) : s.takeTurn.laneMask = s.laneMask := by
  rw [State.takeTurn]; split <;> rfl

@[simp] theorem takeTurn_cmdLo (s : State) : s.takeTurn.cmdLo = s.cmdLo := by
  rw [State.takeTurn]; split <;> rfl

@[simp] theorem takeTurn_cmdHi (s : State) : s.takeTurn.cmdHi = s.cmdHi := by
  rw [State.takeTurn]; split <;> rfl

@[simp] theorem takeTurn_latch (s : State) : s.takeTurn.latch = s.latch := by
  rw [State.takeTurn]; split <;> rfl

@[simp] theorem takeTurn_faults (s : State) : s.takeTurn.faults = s.faults := by
  rw [State.takeTurn]; split <;> rfl

@[simp] theorem takeTurn_earlierFaults (s : State) : s.takeTurn.earlierFaults = s.earlierFaults := by
  rw [State.takeTurn]; split <;> rfl

@[simp] theorem takeTurn_inputs (s : State) : s.takeTurn.inputs = s.inputs := by
  rw [State.takeTurn]; split <;> rfl

@[simp] theorem takeTurn_replies (s : State) : s.takeTurn.replies = s.replies := by
  rw [State.takeTurn]; split <;> rfl

@[simp] theorem abandon_cfg (s : State) : s.abandon.cfg = s.cfg := by
  rw [State.abandon]; repeat (first | rfl | split)

@[simp] theorem abandon_ie (s : State) : s.abandon.ie = s.ie := by
  rw [State.abandon]; repeat (first | rfl | split)

@[simp] theorem abandon_busy (s : State) : s.abandon.busy = s.busy := by
  rw [State.abandon]; repeat (first | rfl | split)

@[simp] theorem abandon_done (s : State) : s.abandon.done = s.done := by
  rw [State.abandon]; repeat (first | rfl | split)

@[simp] theorem abandon_err (s : State) : s.abandon.err = s.err := by
  rw [State.abandon]; repeat (first | rfl | split)

@[simp] theorem abandon_ovr (s : State) : s.abandon.ovr = s.ovr := by
  rw [State.abandon]; repeat (first | rfl | split)

@[simp] theorem abandon_errCode (s : State) : s.abandon.errCode = s.errCode := by
  rw [State.abandon]; repeat (first | rfl | split)

@[simp] theorem abandon_laneMask (s : State) : s.abandon.laneMask = s.laneMask := by
  rw [State.abandon]; repeat (first | rfl | split)

@[simp] theorem abandon_cmdLo (s : State) : s.abandon.cmdLo = s.cmdLo := by
  rw [State.abandon]; repeat (first | rfl | split)

@[simp] theorem abandon_cmdHi (s : State) : s.abandon.cmdHi = s.cmdHi := by
  rw [State.abandon]; repeat (first | rfl | split)

@[simp] theorem abandon_latch (s : State) : s.abandon.latch = s.latch := by
  rw [State.abandon]; repeat (first | rfl | split)

@[simp] theorem abandon_faults (s : State) : s.abandon.faults = s.faults := by
  rw [State.abandon]; repeat (first | rfl | split)

@[simp] theorem abandon_earlierFaults (s : State) : s.abandon.earlierFaults = s.earlierFaults := by
  rw [State.abandon]; repeat (first | rfl | split)

@[simp] theorem abandon_inputs (s : State) : s.abandon.inputs = s.inputs := by
  rw [State.abandon]; repeat (first | rfl | split)

@[simp] theorem abandon_turns (s : State) : s.abandon.turns = s.turns := by
  rw [State.abandon]; repeat (first | rfl | split)

@[simp] theorem abandon_replies (s : State) : s.abandon.replies = s.replies := by
  rw [State.abandon]; repeat (first | rfl | split)

@[simp] theorem softReset_cfg (s : State) : s.softReset.cfg = s.cfg := by
  simp [State.softReset]

@[simp] theorem softReset_dm (s : State) : s.softReset.dm = s.abandon.dm := rfl

@[simp] theorem softReset_ie (s : State) : s.softReset.ie = false := rfl

@[simp] theorem softReset_busy (s : State) : s.softReset.busy = false := rfl

@[simp] theorem softReset_done (s : State) : s.softReset.done = false := rfl

@[simp] theorem softReset_err (s : State) : s.softReset.err = false := rfl

@[simp] theorem softReset_ovr (s : State) : s.softReset.ovr = false := rfl

@[simp] theorem softReset_errCode (s : State) : s.softReset.errCode = 0#8 := rfl

@[simp] theorem softReset_laneMask (s : State) : s.softReset.laneMask = allLanes s.cfg := by
  simp [State.softReset]

@[simp] theorem softReset_cmdLo (s : State) : s.softReset.cmdLo = 0#64 := rfl

@[simp] theorem softReset_cmdHi (s : State) : s.softReset.cmdHi = 0#64 := rfl

@[simp] theorem softReset_latch (s : State) : s.softReset.latch = none := rfl

@[simp] theorem softReset_faults (s : State) : s.softReset.faults = s.faults := by
  simp [State.softReset]

@[simp] theorem softReset_earlierFaults (s : State) : s.softReset.earlierFaults = s.earlierFaults := by
  simp [State.softReset]

@[simp] theorem softReset_inputs (s : State) : s.softReset.inputs = s.inputs := by
  simp [State.softReset]

@[simp] theorem softReset_turns (s : State) : s.softReset.turns = s.turns := by
  simp [State.softReset]

@[simp] theorem softReset_replies (s : State) : s.softReset.replies = s.replies := by
  simp [State.softReset]

theorem go_of_busy {s : State} (h : s.busy = true) : s.go = { s with ovr := true } := by
  rw [State.go, if_pos h]

theorem go_of_idle {s : State} (h : s.busy = false) :
    s.go = { s with latch := some ⟨s.cmdHi ++ s.cmdLo, s.laneMask⟩, done := false, err := false, errCode := 0#8, busy := true } := by
  rw [State.go, if_neg (by simp [h])]

end Sys2Proof.Machine
end

