-- ==== Sys2Proof/Laws/Step.lean ====
section
/-! SUPPORT. All that one step can answer, and the frame of a command (spec 10_state.md R52; 60_exceptions.md R271). -/

namespace Sys2Proof.Machine

theorem takeTurn_of_alone {s : State} (h : s.busy = false ∨ s.inputs = []) : s.takeTurn = s := by
  rw [State.takeTurn, if_neg]
  rcases h with h | h <;> simp [h]

/-- The core moves exactly when BUSY = 1 and the host does not go first. -/
theorem whoMoves_core_iff (s : State) :
    s.whoMoves = some .core ↔ s.busy = true ∧ (s.inputs = [] ∨ s.turns.headD .core = .core) := by
  rw [State.whoMoves]
  cases hb : s.busy <;> cases hi : s.inputs <;> simp

/-- The host moves exactly when it has an input and the core does not go first. -/
theorem whoMoves_host_iff (s : State) :
    s.whoMoves = some .host ↔ s.inputs ≠ [] ∧ (s.busy = false ∨ s.turns.headD .core = .host) := by
  rw [State.whoMoves]
  cases hb : s.busy <;> cases hi : s.inputs <;> simp

theorem whoMoves_none_iff (s : State) : s.whoMoves = none ↔ s.busy = false ∧ s.inputs = [] := by
  rw [State.whoMoves]
  cases hb : s.busy <;> cases hi : s.inputs <;> simp

/-- All that the core's step can answer: a stop on an empty LATCH, a command error, or an executed command. -/
theorem coreStep_cases (s : State) :
    (s.latch = none ∧ coreStep s = .fault .latchEmpty) ∨
    (∃ k e, s.latch = some k ∧ validate s.cfg k.cmd = some e ∧ coreStep s = .next (s.complete (some e))) ∨
    (∃ k i rule, s.latch = some k ∧ decode k.cmd = .ok i ∧ (shape i).check s.cfg.rows = none ∧
      (∀ s', exec i s' = runCommand (shape i) rule s') ∧
      coreStep s = .next ((s.execute k (shape i) rule).complete none)) := by
  cases hl : s.latch with
  | none => exact Or.inl ⟨rfl, by rw [coreStep, hl]⟩
  | some k =>
    refine Or.inr ?_
    cases hd : decode k.cmd with
    | error e =>
      exact Or.inl ⟨k, e, rfl, by rw [validate, hd], by rw [coreStep, hl]; simp only [hd]⟩
    | ok i =>
      obtain ⟨rule, hrule⟩ := exec_eq_runCommand i
      have hstep : coreStep s = runCommand (shape i) rule s := by rw [coreStep, hl]; simp only [hd, hrule]
      cases hc : (shape i).check s.cfg.rows with
      | some e =>
        exact Or.inl ⟨k, e, rfl, by rw [validate, hd]; exact hc, hstep.trans (runCommand_of_error rule hl hc)⟩
      | none =>
        exact Or.inr ⟨k, i, rule, rfl, hd, hc, hrule, hstep.trans (runCommand_of_ok rule hl hc)⟩

/-- All that one step can answer. -/
theorem step_cases (s : State) :
    (s.whoMoves = none ∧ step s = .next s) ∨
    (s.whoMoves = some .core ∧ step s = coreStep s.takeTurn) ∨
    (s.whoMoves = some .host ∧ step s = hostStep s.takeTurn) := by
  rw [step]
  cases hw : s.whoMoves with
  | none => exact Or.inl ⟨rfl, rfl⟩
  | some a =>
    cases a
    · exact Or.inr (Or.inr ⟨rfl, rfl⟩)
    · exact Or.inr (Or.inl ⟨rfl, rfl⟩)

/-- All that the host's step can answer when it has an input. -/
theorem hostStep_cases {s : State} {x : Input} {rest : List Input} (h : s.inputs = x :: rest) :
    (∃ a, x = .access a ∧ hostStep s = State.hostAccess { s with inputs := rest } a) ∨
    (x = .powerOn ∧ hostStep s = .next (State.powerOnReset { s with inputs := rest })) := by
  rw [hostStep, h]
  cases x with
  | access a => exact Or.inl ⟨a, rfl, rfl⟩
  | powerOn => exact Or.inr ⟨rfl, rfl⟩

/-- A command's next state differs from the state before it in DM, FAULT, LATCH and STATUS alone. -/
theorem runCommand_frame {sh : Shape} {rule : List (List Word) → LaneResult} {s t : State}
    (h : runCommand sh rule s = .next t) :
    t.cfg = s.cfg ∧ t.ie = s.ie ∧ t.ovr = s.ovr ∧ t.laneMask = s.laneMask ∧ t.cmdLo = s.cmdLo ∧ t.cmdHi = s.cmdHi ∧
      t.earlierFaults = s.earlierFaults ∧ t.inputs = s.inputs ∧ t.turns = s.turns ∧ t.replies = s.replies ∧ t.latch = none ∧ t.busy = false ∧ t.done = true := by
  obtain ⟨_, h'⟩ | ⟨_, _, _, _, h'⟩ | ⟨_, _, _, h'⟩ := runCommand_cases sh rule s <;> rw [h'] at h
  · cases h
  · cases h; simp
  · cases h; simp

/-- A command keeps the digit memory canonical. -/
theorem runCommand_wf {sh : Shape} {rule : List (List Word) → LaneResult} {s t : State}
    (h : runCommand sh rule s = .next t) (hm : s.dm.wf = true) : t.dm.wf = true := by
  obtain ⟨_, h'⟩ | ⟨_, _, _, _, h'⟩ | ⟨_, _, _, h'⟩ := runCommand_cases sh rule s <;> rw [h'] at h
  · cases h
  · cases h; simpa using hm
  · cases h; simpa using wf_writeRegion _ _ _ _ hm

/-- So does a soft reset. -/
theorem abandon_wf {s : State} (hm : s.dm.wf = true) : s.abandon.dm.wf = true := by
  rw [State.abandon]
  split
  · exact hm
  · split
    · exact hm
    · split
      · exact hm
      · exact wf_writeRegion _ _ _ _ hm

/-- So does every host access. -/
theorem accessAt_wf {s : State} (a : Access) (off : Nat) (hm : s.dm.wf = true) : (s.accessAt a off).dm.wf = true := by
  have hgo : ∀ s' : State, s'.go.dm = s'.dm := fun s' => by rw [State.go]; split <;> rfl
  rw [State.accessAt]
  split
  · simpa using hm
  · split
    · rw [State.dmAccess]
      split
      · simpa using hm
      · split
        · exact wf_writeWord _ _ hm
        · split
          · simpa using hm
          · simpa using hm
    · split
      · simpa using hm
      · unfold State.writeRegister
        split
        · rw [State.writeCtrl]
          split
          · simpa using abandon_wf hm
          · split
            · rw [hgo]; exact hm
            · exact hm
        · simpa using hm
        · rw [State.writeLaneMask]; split <;> exact hm
        · rw [State.writeCmdLo]; split <;> exact hm
        · rw [State.writeCmdHi]; split <;> exact hm
        · exact hm

end Sys2Proof.Machine
end

