-- ==== Sys2Proof/Laws/HostPort.lean ====
section
/-! SUPPORT. What a host access does, by where it falls in the window (spec 20_memory.md R75 to R80), and what issuing a
command amounts to (95_test_vectors.md section 3). -/

namespace Sys2Proof.Machine

theorem Config.lanes_eq (c : Config) : c.lanes = 4 ∨ c.lanes = 8 := by
  cases h : c.laneCount <;> simp [Config.lanes, LaneCount.toNat, h]

theorem Config.rows_le (c : Config) : c.rows ≤ 65536 := by
  have := c.rowsM1.isLt
  rw [Config.rows]
  omega

/-- The DM window ends inside the block's window, whatever the configuration (R75). -/
theorem dmWindow_le (c : Config) : 0x100000 + 8 * c.lanes * c.rows ≤ windowBytes := by
  have := Config.rows_le c
  rw [windowBytes]
  rcases Config.lanes_eq c with h | h <;> rw [h] <;> omega

theorem hostAccess_inside {s : State} {a : Access} {off : Nat} (ha : a.addr = s.cfg.pBase + off)
    (ho : off < windowBytes) : s.hostAccess a = .next (s.accessAt a off) := by
  rw [State.hostAccess, if_pos ⟨by omega, by omega⟩, ha, Nat.add_sub_cancel_left]

theorem hostAccess_outside {s : State} {a : Access}
    (h : a.addr < s.cfg.pBase ∨ s.cfg.pBase + windowBytes ≤ a.addr) : s.hostAccess a = .fault .outsideWindow := by
  rw [State.hostAccess, if_neg (by omega)]

theorem inDmWindow_iff (c : Config) (off : Nat) :
    inDmWindow c off = true ↔ 0x100000 ≤ off ∧ off < 0x100000 + 8 * c.lanes * c.rows := by simp [inDmWindow]

theorem inDmWindow_dmOffset {c : Config} {r l : Nat} (hr : r < c.rows) (hl : l < c.lanes) :
    inDmWindow c (dmOffset c r l) = true := by
  have := dmOffset_in_window hr hl
  rw [inDmWindow_iff]
  exact ⟨by rw [dmOffset]; omega, by omega⟩

/-- A malformed access is a host fault and nothing else (R76). -/
theorem accessAt_malformed {s : State} {a : Access} {off : Nat} (h : a.size ≠ 8 ∨ off % 8 ≠ 0) :
    s.accessAt a off = s.hostFault .access a := by
  rw [State.accessAt, if_pos h]

/-- A well-formed access to a DM word. -/
theorem accessAt_dm {s : State} {a : Access} {off : Nat} (h8 : a.size = 8) (ho : off % 8 = 0)
    (hd : inDmWindow s.cfg off = true) : s.accessAt a off = s.dmAccess a off := by
  rw [State.accessAt, if_neg (by omega), if_pos hd]

/-- A well-formed read outside the DM window. -/
theorem accessAt_read {s : State} {addr off : Nat} (ho : off % 8 = 0) (hd : inDmWindow s.cfg off = false) :
    s.accessAt { addr := addr, size := 8, kind := .read } off = s.reply (s.readRegister off) := by
  rw [State.accessAt, if_neg (by simp [ho]), hd]
  rfl

/-- A well-formed write outside the DM window. -/
theorem accessAt_write {s : State} {addr off : Nat} {v : Word} (ho : off % 8 = 0) (hd : inDmWindow s.cfg off = false) :
    s.accessAt { addr := addr, size := 8, kind := .write v } off = s.writeRegister off v := by
  rw [State.accessAt, if_neg (by simp [ho]), hd]
  rfl

/-- A host fault adds its entry to FAULT and, for a read, a reply without a value. -/
theorem mem_hostFault {s : State} {r : HostReason} {a : Access} {e : FaultEntry} :
    e ∈ (s.hostFault r a).faults ↔ e ∈ s.faults ∨ e = .host r a := by
  rw [State.hostFault]
  exact mem_addFault

theorem hostFault_idem (s : State) (r : HostReason) (a : Access) :
    addFault (addFault s.faults (.host r a)) (.host r a) = addFault s.faults (.host r a) := by
  conv_lhs => rw [addFault]
  rw [if_pos (mem_addFault.mpr (Or.inr rfl))]

/-- The host's write to an offset of the register page, as an input taken. -/
theorem hostStep_write {s : State} {rest : List Input} {off : Nat} {v : Word}
    (hi : s.inputs = hostWrite s.cfg off v :: rest) (ho : off < 0x100000) (h8 : off % 8 = 0) :
    hostStep s = .next (State.writeRegister { s with inputs := rest } off v) := by
  rw [hostStep, hi, hostWrite]
  have hd : inDmWindow s.cfg off = false := by
    rw [Bool.eq_false_iff, ne_eq, inDmWindow_iff]
    omega
  exact (hostAccess_inside (s := { s with inputs := rest }) rfl (by rw [windowBytes]; omega)).trans
    (congrArg _ (accessAt_write (s := { s with inputs := rest }) h8 hd))

/-- A command word put together from its two halves. -/
theorem cmd_halves (w : CmdWord) : w.extractLsb' 64 64 ++ w.extractLsb' 0 64 = w := by
  apply BitVec.eq_of_getLsbD_eq
  intro i hi
  rw [BitVec.getLsbD_append]
  by_cases h : i < 64
  · simp [h]
  · simp [h, show 64 + (i - 64) = i from by omega]
    omega

/-- The state in which the core takes up a command that the host has issued to an idle block. -/
def State.issued (s : State) (w : CmdWord) : State :=
  { s with
    inputs := [], cmdLo := w.extractLsb' 0 64, cmdHi := w.extractLsb' 64 64, ie := false
    latch := some { cmd := w, mask := s.laneMask }, done := false, err := false, errCode := 0#8, busy := true }

theorem stepN_next {s t : State} (k : Nat) (h : step s = .next t) : stepN (k + 1) s = stepN k t := by rw [stepN, h]

theorem stepN_one (s : State) : stepN 1 s = step s := by
  rw [stepN]
  cases step s <;> rfl

/-- The step that takes a write to the register page while BUSY = 0. -/
theorem step_write {s : State} {rest : List Input} {off : Nat} {v : Word} (hb : s.busy = false)
    (hi : s.inputs = hostWrite s.cfg off v :: rest) (ho : off < 0x100000) (h8 : off % 8 = 0) :
    step s = .next (State.writeRegister { s with inputs := rest } off v) := by
  rw [step, (whoMoves_host_iff s).mpr ⟨by simp [hi], Or.inl hb⟩]
  simp only
  rw [takeTurn_of_alone (Or.inl hb), hostStep_write hi ho h8]

/-- The step while BUSY = 1 and no input waits. -/
theorem step_core {s : State} (hb : s.busy = true) (hi : s.inputs = []) : step s = coreStep s := by
  rw [step, (whoMoves_core_iff s).mpr ⟨hb, Or.inl hi⟩]
  simp only
  rw [takeTurn_of_alone (Or.inr hi)]

/-- Issuing a command to an idle block is the core's step on the command, latched with the lanes of LANEMASK. -/
theorem issue_eq {s : State} (i : Instr) (hb : s.busy = false) : issue i s = coreStep (s.issued (encode i)) := by
  have e1 : step { s with inputs := issueInputs s.cfg (encode i) } = .next { s with
      inputs := (issueInputs s.cfg (encode i)).tail, cmdLo := (encode i).extractLsb' 0 64 } :=
    (step_write (s := { s with inputs := issueInputs s.cfg (encode i) }) (off := 0x020) hb rfl (by omega) (by omega)).trans
      (by simp [State.writeRegister, State.writeCmdLo, hb, issueInputs])
  have e2 : step { s with inputs := (issueInputs s.cfg (encode i)).tail, cmdLo := (encode i).extractLsb' 0 64 } =
      .next { s with
        inputs := (issueInputs s.cfg (encode i)).tail.tail, cmdLo := (encode i).extractLsb' 0 64
        cmdHi := (encode i).extractLsb' 64 64 } :=
    (step_write
      (s := { s with inputs := (issueInputs s.cfg (encode i)).tail, cmdLo := (encode i).extractLsb' 0 64 })
      (off := 0x028) hb rfl (by omega) (by omega)).trans
      (by simp [State.writeRegister, State.writeCmdHi, hb, issueInputs])
  have e3 : step { s with
      inputs := (issueInputs s.cfg (encode i)).tail.tail, cmdLo := (encode i).extractLsb' 0 64
      cmdHi := (encode i).extractLsb' 64 64 } = .next (s.issued (encode i)) :=
    (step_write
      (s := { s with
        inputs := (issueInputs s.cfg (encode i)).tail.tail, cmdLo := (encode i).extractLsb' 0 64
        cmdHi := (encode i).extractLsb' 64 64 })
      (off := 0x008) hb rfl (by omega) (by omega)).trans
      (by simp [State.writeRegister, State.writeCtrl, State.go, State.issued, hb, cmd_halves])
  exact (stepN_next 3 e1).trans ((stepN_next 2 e2).trans ((stepN_next 1 e3).trans
    ((stepN_one _).trans (step_core rfl rfl))))

end Sys2Proof.Machine
end

