-- ==== Sys2Proof/WellFormed.lean ====
section
/-! DEFINITION. Which commands have every operand field in its legal range, whatever the configuration
(spec 30_encoding.md R102 to R104). The machine does not consult this predicate: it raises the command errors of R262
by its own check (Machine/Operands.lean), and Laws/Operands.lean shows that the two agree. -/

namespace Sys2Proof

/-- SZ is one of the six size codes of R102. -/
def legalSize (sz : SizeCode) : Bool := sz.toNat < 6

/-- LX and LM are 1 to 255 (R104). -/
def legalLen (l : Len) : Bool := l != 0#8

/-- SH is 0 to 51 (R103). -/
def legalShift (sh : Shift) : Bool := sh.toNat < 52

/-- Every field the command uses is in range. -/
def Instr.wellFormed : Instr → Bool
  | .norm _ _ lx => legalLen lx
  | .normclr _ _ lx => legalLen lx
  | .normsqr sz _ _ => legalSize sz
  | .normtop sz _ _ => legalSize sz
  | .shl _ _ lx sh => legalLen lx && legalShift sh
  | .shr _ _ lx sh => legalLen lx && legalShift sh
  | .zero _ lx => legalLen lx
  | .copy _ _ lx => legalLen lx
  | .cmpge _ _ _ lx => legalLen lx
  | .addmul sz _ _ _ => legalSize sz
  | .amred sz _ _ _ _ => legalSize sz
  | .ams sz _ _ _ _ => legalSize sz
  | .modsub sz _ _ _ _ => legalSize sz
  | .estq _ _ _ => true
  | .mreduce _ _ lx lm => legalLen lx && legalLen lm
  | .montfactor _ _ => true
  | .montrr sz _ _ => legalSize sz

end Sys2Proof
end

