-- ==== Sys2Proof/Laws/Operands.lean ====
section
/-! SUPPORT. The machine's field checks agree with `Instr.wellFormed` (spec 60_exceptions.md R262). -/

namespace Sys2Proof.Machine

@[simp] theorem lengthError_eq_none (l : Len) : lengthError l = none ↔ legalLen l = true := by
  simp [lengthError, legalLen]

@[simp] theorem shiftError_eq_none (sh : Shift) : shiftError sh = none ↔ legalShift sh = true := by
  simp [shiftError, legalShift]

@[simp] theorem sizeError_eq_none (sz : SizeCode) : sizeError sz = none ↔ legalSize sz = true := by
  revert sz; decide

/-- A legal size code selects a width. -/
theorem exists_width_of_legalSize {sz : SizeCode} (h : legalSize sz = true) : ∃ w, Width.ofCode sz = some w := by
  rw [← Option.isSome_iff_exists]
  revert sz; decide

/-- A size code that selects a width passes the SIZE check. -/
theorem sizeError_of_code {sz : SizeCode} {w : Width} (h : Width.ofCode sz = some w) : sizeError sz = none := by
  rw [sizeError, h]

/-- The field checks pass exactly on the well-formed commands. -/
theorem fieldError_eq_none_iff (i : Instr) : (shape i).fieldError = none ↔ i.wellFormed = true := by
  cases i <;> simp [shape, Instr.wellFormed, Option.or_eq_none_iff]

end Sys2Proof.Machine
end

