-- ==== Sys2Proof/Laws/PerInstr.lean ====
section
/-! SUPPORT. Facts about every command, one lemma per constructor of `Instr`. Family `OneSpelling`: the fields of a
command name its opcode, leave every field the opcode does not use at 0, and give the command back (spec
30_encoding.md R106, R107). -/

namespace Sys2Proof.Laws.OneSpelling

/-- The fields of `i` name its opcode, have 0 in every field it does not use, and build `i`. -/
def Statement (i : Instr) : Prop :=
  i.fields.opc = i.opcode.code ∧ i.fields.unusedZero i.opcode = true ∧ i.opcode.build i.fields = i

theorem norm (rd ra : Row) (lx : Len) : Statement (.norm rd ra lx) := ⟨rfl, rfl, rfl⟩
theorem normclr (rd ra : Row) (lx : Len) : Statement (.normclr rd ra lx) := ⟨rfl, rfl, rfl⟩
theorem normsqr (sz : SizeCode) (rd ra : Row) : Statement (.normsqr sz rd ra) := ⟨rfl, rfl, rfl⟩
theorem normtop (sz : SizeCode) (rd ra : Row) : Statement (.normtop sz rd ra) := ⟨rfl, rfl, rfl⟩
theorem shl (rd ra : Row) (lx : Len) (sh : Shift) : Statement (.shl rd ra lx sh) := ⟨rfl, rfl, rfl⟩
theorem shr (rd ra : Row) (lx : Len) (sh : Shift) : Statement (.shr rd ra lx sh) := ⟨rfl, rfl, rfl⟩
theorem zero (rd : Row) (lx : Len) : Statement (.zero rd lx) := ⟨rfl, rfl, rfl⟩
theorem copy (rd ra : Row) (lx : Len) : Statement (.copy rd ra lx) := ⟨rfl, rfl, rfl⟩
theorem cmpge (rd ra rb : Row) (lx : Len) : Statement (.cmpge rd ra rb lx) := ⟨rfl, rfl, rfl⟩
theorem addmul (sz : SizeCode) (rd ra rb : Row) : Statement (.addmul sz rd ra rb) := ⟨rfl, rfl, rfl⟩
theorem amred (sz : SizeCode) (rd ra rb rc : Row) : Statement (.amred sz rd ra rb rc) := ⟨rfl, rfl, rfl⟩
theorem ams (sz : SizeCode) (rd ra rb rc : Row) : Statement (.ams sz rd ra rb rc) := ⟨rfl, rfl, rfl⟩
theorem modsub (sz : SizeCode) (rd ra rb rc : Row) : Statement (.modsub sz rd ra rb rc) := ⟨rfl, rfl, rfl⟩
theorem estq (rd ra rb : Row) : Statement (.estq rd ra rb) := ⟨rfl, rfl, rfl⟩
theorem mreduce (rd ra : Row) (lx lm : Len) : Statement (.mreduce rd ra lx lm) := ⟨rfl, rfl, rfl⟩
theorem montfactor (rd ra : Row) : Statement (.montfactor rd ra) := ⟨rfl, rfl, rfl⟩
theorem montrr (sz : SizeCode) (rd ra : Row) : Statement (.montrr sz rd ra) := ⟨rfl, rfl, rfl⟩

/-- The statement of every command. -/
theorem all (i : Instr) : Statement i := by
  cases i <;> exact ⟨rfl, rfl, rfl⟩

end Sys2Proof.Laws.OneSpelling
end

