-- ==== Sys2Proof/Machine/Assembler.lean ====
section
/-! DEFINITION. The assembler's spelling of a command (spec 30_encoding.md R112). -/

namespace Sys2Proof.Machine

/-- A row operand, `rN`. -/
def rowText (r : Row) : String := "r" ++ toString r.toNat

/-- A number operand, `#N`. -/
def numText (n : Nat) : String := "#" ++ toString n

/-- The width suffix, `.W`; a reserved size code has none. -/
def widthText (sz : SizeCode) : String :=
  match Width.ofCode sz with
  | some w => "." ++ toString w.bits
  | none => ""

/-- A mnemonic and its operands, separated by commas. -/
def lineText (mnemonic : String) (operands : List String) : String :=
  mnemonic ++ " " ++ String.intercalate ", " operands

/-- The line of assembler text of a command (R112). -/
def asmText : Instr → String
  | .norm rd ra lx => lineText "NORM" [rowText rd, rowText ra, numText lx.toNat]
  | .normclr rd ra lx => lineText "NORMCLR" [rowText rd, rowText ra, numText lx.toNat]
  | .normsqr sz rd ra => lineText ("NORMSQR" ++ widthText sz) [rowText rd, rowText ra]
  | .normtop sz rd ra => lineText ("NORMTOP" ++ widthText sz) [rowText rd, rowText ra]
  | .shl rd ra lx sh => lineText "SHL" [rowText rd, rowText ra, numText lx.toNat, numText sh.toNat]
  | .shr rd ra lx sh => lineText "SHR" [rowText rd, rowText ra, numText lx.toNat, numText sh.toNat]
  | .zero rd lx => lineText "ZERO" [rowText rd, numText lx.toNat]
  | .copy rd ra lx => lineText "COPY" [rowText rd, rowText ra, numText lx.toNat]
  | .cmpge rd ra rb lx => lineText "CMPGE" [rowText rd, rowText ra, rowText rb, numText lx.toNat]
  | .addmul sz rd ra rb => lineText ("ADDMUL" ++ widthText sz) [rowText rd, rowText ra, rowText rb]
  | .amred sz rd ra rb rc => lineText ("AMRED" ++ widthText sz) [rowText rd, rowText ra, rowText rb, rowText rc]
  | .ams sz rd ra rb rc => lineText ("AMS" ++ widthText sz) [rowText rd, rowText ra, rowText rb, rowText rc]
  | .modsub sz rd ra rb rc => lineText ("MODSUB" ++ widthText sz) [rowText rd, rowText ra, rowText rb, rowText rc]
  | .estq rd ra rb => lineText "ESTQ" [rowText rd, rowText ra, rowText rb]
  | .mreduce rd ra lx lm => lineText "MREDUCE" [rowText rd, rowText ra, numText lx.toNat, numText lm.toNat]
  | .montfactor rd ra => lineText "MONTFACTOR" [rowText rd, rowText ra]
  | .montrr sz rd ra => lineText ("MONTRR" ++ widthText sz) [rowText rd, rowText ra]

end Sys2Proof.Machine
end

