-- ==== Sys2Proof/Tests/Slice0.lean ====
section
/-! SUPPORT. The model's own tests. Expected words come from spec/95_test_vectors.md or from the rule named at the test,
worked out by hand. A `witness_…` theorem shows a state and operands that meet the hypotheses of the statement it names
together; where the statement has clauses, one witness or test for each clause, at the ends of its range. -/

namespace Sys2Proof.Tests

open Sys2Proof.Machine Sys2Proof.Claims

set_option Elab.async false

/-! ### Small states -/

/-- The eight bytes of a word at an offset, in front of the bytes after it. -/
def cell8 (off : Nat) (w : Word) (m : Memory) : Memory :=
  (off, w.extractLsb' 0 8) :: (off + 1, w.extractLsb' 8 8) :: (off + 2, w.extractLsb' 16 8) ::
  (off + 3, w.extractLsb' 24 8) :: (off + 4, w.extractLsb' 32 8) :: (off + 5, w.extractLsb' 40 8) ::
  (off + 6, w.extractLsb' 48 8) :: (off + 7, w.extractLsb' 56 8) :: m

/-- Words at offsets that rise by `step`, from `off` on. -/
def cellsFrom (step : Nat) : Nat → List Word → Memory
  | _, [] => []
  | off, w :: ws => cell8 off w (cellsFrom step (off + step) ws)

/-- Lane 0 of rows 0, 1, … of a block of four lanes. -/
def column (ws : List Word) : Memory := cellsFrom 32 0x100000 ws

/-- All four lanes of rows 0, 1, …, row by row. -/
def grid (ws : List Word) : Memory := cellsFrom 8 0x100000 ws

/-- A block of LANES = 4, DM_ROWS = 256 about to run a command word on a lane mask, with a digit memory. -/
def about (cmd : CmdWord) (mask : LaneMask) (m : Memory) : State :=
  { State.reset with busy := true, latch := some ⟨cmd, mask⟩, dm := m }

/-- An idle block whose host enables lane 0, with a digit memory. -/
def idle (m : Memory) : State := { State.reset with laneMask := 1#8, dm := m }

/-- The words of `n` rows in a lane after an outcome that is a next state. -/
def after (o : Host.Outcome State Fault Refusal) (l row n : Nat) : List (Option Word) :=
  match o with
  | .next t => (List.range n).map fun i => t.word (row + i) l
  | _ => []

/-- The FAULT entries of an outcome's next state, as (reason, lane). -/
def faultsAfter (o : Host.Outcome State Fault Refusal) : List (Option (UBReason × Nat)) :=
  match o with
  | .next t => t.faults.map fun e => match e with
    | .command u _ l => some (u, l)
    | .host _ _ => none
  | _ => []

/-- A test of an outcome's next state. -/
def nextIs (o : Host.Outcome State Fault Refusal) (p : State → Bool) : Bool :=
  match o with
  | .next t => p t
  | _ => false

/-- The largest digit, 2^52 − 1. -/
def dMax : Word := 0xFFFFFFFFFFFFF#64

/-- The least word that is no digit, 2^52. -/
def big : Word := 0x10000000000000#64

/-- 2^511 + 111 and its k0 (95_test_vectors.md, Conventions). -/
def m511 : List Word := [0x6F#64, 0#64, 0#64, 0#64, 0#64, 0#64, 0#64, 0#64, 0#64, 0x80000000000#64]
def k511 : Word := 0xA171024E6A171#64

theorem allDigits_iff (a : List Word) : AllDigits a ↔ normalised a = true := (normalised_iff a).symm

/-- A ten-digit array with one small value. -/
def small (v : Nat) : List Word := BitVec.ofNat 64 v :: List.replicate 9 0#64

/-! ### Well-formed terms: one ill-formed term for each check -/

theorem test_wellFormed_size : (Instr.addmul 6#3 30#16 10#16 20#16).wellFormed = false := by decide
theorem test_wellFormed_length_lx : (Instr.norm 30#16 10#16 0#8).wellFormed = false := by decide
theorem test_wellFormed_length_lm : (Instr.mreduce 0#16 4#16 4#8 0#8).wellFormed = false := by decide
theorem test_wellFormed_shift : (Instr.shl 10#16 0#16 2#8 52#6).wellFormed = false := by decide
theorem test_wellFormed_good : (Instr.shl 10#16 0#16 2#8 51#6).wellFormed = true := by decide

/-! ### Decoding: every constructor, from the words of 95_test_vectors.md section 2.1 -/

theorem test_decode_digit_ops :
    decode 0x000000000000000A0000000300000010#128 = .ok (.norm 10#16 0#16 3#8) ∧
    decode 0x000000000000000A0000000300000011#128 = .ok (.normclr 10#16 0#16 3#8) ∧
    decode 0x000000000000001E0000000000000012#128 = .ok (.normsqr 0#3 30#16 0#16) ∧
    decode 0x00000000000000640000000000000413#128 = .ok (.normtop 4#3 100#16 0#16) ∧
    decode 0x000000000000000A0000000200040014#128 = .ok (.shl 10#16 0#16 2#8 4#6) ∧
    decode 0x000000000000000A0000000200330015#128 = .ok (.shr 10#16 0#16 2#8 51#6) ∧
    decode 0x000000000000001E0000001400000018#128 = .ok (.zero 30#16 20#8) ∧
    decode 0x000000000046001E0000000A00000019#128 = .ok (.copy 30#16 70#16 10#8) ∧
    decode 0x000000020000000A000000020000001A#128 = .ok (.cmpge 10#16 0#16 2#16 2#8) := by decide +kernel

theorem test_decode_montgomery :
    decode 0x00000014000A001E0000000000000001#128 = .ok (.addmul 0#3 30#16 10#16 20#16) ∧
    decode 0x00320000001E003C0000000000000002#128 = .ok (.amred 0#3 60#16 30#16 0#16 50#16) ∧
    decode 0x00320000000A003C0000000000000003#128 = .ok (.ams 0#3 60#16 10#16 0#16 50#16) ∧
    decode 0x00000014000A003C0000000000000004#128 = .ok (.modsub 0#3 60#16 10#16 20#16 0#16) := by decide +kernel

theorem test_decode_division_and_precompute :
    decode 0x000000040000000A0000000000000008#128 = .ok (.estq 10#16 0#16 4#16) ∧
    decode 0x00000000000400000000030400000009#128 = .ok (.mreduce 0#16 4#16 4#8 3#8) ∧
    decode 0x0000000000000001000000000000000C#128 = .ok (.montfactor 1#16 0#16) ∧
    decode 0x00000000000000C8000000000000050D#128 = .ok (.montrr 5#3 200#16 0#16) := by decide +kernel

/-- A word written bit by bit from R101: RC 0, RB 20, RA 10, RD 30, LM 0, LX 0, SH 0, SZ 0, OPC 0x01 (R112's example). -/
theorem test_encode_example :
    encode (.addmul 0#3 30#16 10#16 20#16) =
      0#16 ++ 0b0000000000010100#16 ++ 0b0000000000001010#16 ++ 0b0000000000011110#16 ++ 0#16 ++ 0#8 ++ 0#8 ++ 0#10 ++
        0#6 ++ 0#5 ++ 0b000#3 ++ 0b00000001#8 ∧
    encodeWords (.addmul 0#3 30#16 10#16 20#16) = [0x0000000000000001#64, 0x00000014000A001E#64] := by decide +kernel

theorem test_asm_example : asmText (.addmul 0#3 30#16 10#16 20#16) = "ADDMUL.512 r30, r10, r20" := by decide +kernel

/-- Validate, in the order of R262 (95_test_vectors.md section 2.2; DM_ROWS = 256). -/
theorem test_validate_codes :
    ([0x0#128, 0x8FF#128, 0x00000014000A001E0000000000000001#128, 0x00000014000A001E0000000000000801#128,
      0x00010014000A001E0000000000000001#128, 0x00000014000A001E0000000000000601#128, 0x00000000000A001E0000000000000010#128,
      0x00000001000A001E0000000000000010#128, 0x00000000000400000000000400000009#128,
      0x000000000000000A0000000200340014#128, 0x000000000000000A0000000000340014#128,
      0x00000000000000FD0000000200010014#128, 0x00000000000000FE0000000200010014#128,
      0x00000000000000620000000000000501#128, 0x00000000000000630000000000000501#128].map fun w =>
        ((validate Config.reference w).map fun e => e.code.toNat, validateCode 256 w)) =
    [(some 1, 1), (some 1, 1), (none, 0), (some 2, 2), (some 2, 2), (some 3, 3), (some 4, 4), (some 2, 2), (some 4, 4),
      (some 5, 5), (some 4, 4), (none, 0), (some 6, 6), (none, 0), (some 6, 6)] := by decide +kernel

/-- The unassigned opcodes at the ends of their ranges (R109). -/
theorem witness_UnassignedOpcodeIsRefused :
    [0x00#128, 0x05#128, 0x0A#128, 0x0F#128, 0x16#128, 0x17#128, 0x1B#128, 0xFF#128].all (fun w =>
      (about w 1#8 []).latch == some ⟨w, 1#8⟩ && match decode w with | .error e => e == .illegalOpcode | .ok _ => false)
      = true := by decide +kernel

/-- `NORM r10, r0, #3`: its two sides of R108, and its one spelling. -/
theorem witness_DecodeFollowsMatchAndMask :
    decode 0x000000000000000A0000000300000010#128 = .ok (.norm 10#16 0#16 3#8) ∧
    0x000000000000000A0000000300000010#128 &&& mask .norm = pattern .norm ∧
    encode (.norm 10#16 0#16 3#8) = 0x000000000000000A0000000300000010#128 := by decide +kernel

/-! ### The instructions: what they give, and the hypotheses of their statements -/

/-- Lane 0: R141's example. Lane 1: top = 2^64 − 1. Lane 2: top = 2^64. Lane 3: not active. -/
def sNorm : State := about 0x000000000000000A0000000200000010#128 7#8 (grid
  [0x10000000000005#64, 0xFFFFFFFFFFFFFFFF#64, 0xFFFFFFFFFFFFFFFF#64, 1#64,
   0x2FFFFFFFFFFFFF#64, 0xFFFFFFFFFFFFF000#64, 0xFFFFFFFFFFFFF001#64, 1#64])

theorem witness_NormCarriesIntoTopWord :
    Ready sNorm ⟨0x000000000000000A0000000200000010#128, 7#8⟩ ∧ InRange sNorm 254#16 2 ∧ InRange sNorm 0#16 2 ∧
    Active sNorm ⟨0x000000000000000A0000000200000010#128, 7#8⟩ 2 ∧
    Present sNorm 0#16 1 [0xFFFFFFFFFFFFFFFF#64, 0xFFFFFFFFFFFFF000#64] ∧
    digitSum [0xFFFFFFFFFFFFFFFF#64, 0xFFFFFFFFFFFFF000#64] / 2 ^ 52 = 2 ^ 64 - 1 ∧
    Present sNorm 0#16 2 [0xFFFFFFFFFFFFFFFF#64, 0xFFFFFFFFFFFFF001#64] ∧
    digitSum [0xFFFFFFFFFFFFFFFF#64, 0xFFFFFFFFFFFFF001#64] / 2 ^ 52 = 2 ^ 64 := by decide +kernel

theorem test_norm :
    (List.range 4).map (after (exec (.norm 10#16 0#16 2#8) sNorm) · 10 2) =
      [[some 5#64, some 0x30000000000000#64], [some dMax, some 0xFFFFFFFFFFFFFFFF#64], [none, none], [none, none]] ∧
    faultsAfter (exec (.norm 10#16 0#16 2#8) sNorm) = [some (.range, 2)] := by decide +kernel

def sNormclr : State := about 0x11#128 1#8 (column [0x10000000000005#64, 0x2FFFFFFFFFFFFF#64, 0x10000000000007#64])

theorem witness_NormclrDiscardsTopCarry :
    Ready sNormclr ⟨0x11#128, 1#8⟩ ∧ InRange sNormclr 253#16 3 ∧ InRange sNormclr 0#16 3 ∧
    Active sNormclr ⟨0x11#128, 1#8⟩ 0 ∧
    Present sNormclr 0#16 0 [0x10000000000005#64, 0x2FFFFFFFFFFFFF#64, 0x10000000000007#64] := by decide +kernel

theorem test_normclr :
    after (exec (.normclr 10#16 0#16 3#8) sNormclr) 0 10 3 = [some 5#64, some 0#64, some 0xA#64] ∧
    faultsAfter (exec (.normclr 10#16 2#16 2#8) sNormclr) = [some (.uninit, 0)] := by decide +kernel

/-- Rows 0 to 19: R143's example. Row 20: 2^52. Row 21 and on: zeros, then 2^52 and 2^64 − 1, whose carry makes 2^64. -/
def sNormsqr : State := about 0x12#128 1#8 (column
  (List.replicate 10 1#64 ++ List.replicate 10 0x1000000000000000#64 ++ [big] ++ List.replicate 19 0#64 ++
    [big, 0xFFFFFFFFFFFFFFFF#64]))

theorem witness_NormsqrCarriesFromDigitN :
    Ready sNormsqr ⟨0x12#128, 1#8⟩ ∧ Width.ofCode 0#3 = some .w512 ∧ InRange sNormsqr 236#16 20 ∧
    Present sNormsqr 20#16 0 ((big :: List.replicate 9 0#64) ++ List.replicate 10 0#64) ∧
    ¬ AllDigits (big :: List.replicate 9 0#64) ∧ AllDigits (List.replicate 10 0#64) ∧
    Present sNormsqr 22#16 0 (List.replicate 10 0#64 ++ (List.replicate 8 0#64 ++ [big, 0xFFFFFFFFFFFFFFFF#64])) ∧
    digitSum (List.replicate 8 0#64 ++ [big, 0xFFFFFFFFFFFFFFFF#64]) / 2 ^ 468 = 2 ^ 64 := by
  simp only [allDigits_iff]; decide +kernel

theorem test_normsqr :
    after (exec (.normsqr 0#3 50#16 0#16) sNormsqr) 0 50 20 =
      (List.replicate 10 1#64 ++ [0#64] ++ List.replicate 8 0x100#64 ++ [0x1000000000000100#64]).map some ∧
    faultsAfter (exec (.normsqr 0#3 50#16 20#16) sNormsqr) = [some (.nonnorm, 0)] ∧
    faultsAfter (exec (.normsqr 0#3 50#16 22#16) sNormsqr) = [some (.range, 0)] := by decide +kernel

def sNormtop : State := about 0x13#128 1#8 (column (List.replicate 10 dMax))

theorem witness_NormtopMasksToWidth :
    Ready sNormtop ⟨0x13#128, 1#8⟩ ∧ Width.ofCode 0#3 = some .w512 ∧ InRange sNormtop 246#16 10 ∧
    Present sNormtop 0#16 0 (List.replicate 10 dMax) := by decide +kernel

theorem test_normtop :
    after (exec (.normtop 0#3 30#16 0#16) sNormtop) 0 30 10 =
      (List.replicate 9 dMax ++ [0xFFFFFFFFFFF#64]).map some := by decide +kernel

/-- Lane 0: R145's vector. Lane 1: a word of 2^52. -/
def sShift : State := about 0x14#128 3#8 (grid [dMax, big, 0#64, 0#64, dMax, 0#64, 0#64, 0#64])

theorem witness_ShlMultipliesByPower_ShrDividesByPower :
    Ready sShift ⟨0x14#128, 3#8⟩ ∧ InRange sShift 253#16 3 ∧ InRange sShift 0#16 2 ∧ (51#6).toNat < 52 ∧ 52 ≤ (52#6).toNat ∧
    Present sShift 0#16 0 [dMax, dMax] ∧ AllDigits [dMax, dMax] ∧
    Present sShift 0#16 1 [big, 0#64] ∧ ¬ AllDigits [big, 0#64] := by
  simp only [allDigits_iff]; decide +kernel

theorem test_shl :
    (List.range 2).map (after (exec (.shl 253#16 0#16 2#8 51#6) sShift) · 253 3) =
      [[some 0x8000000000000#64, some dMax, some 0x7FFFFFFFFFFFF#64], [none, none, none]] := by decide +kernel

theorem test_shr :
    (List.range 2).map (after (exec (.shr 10#16 0#16 2#8 51#6) sShift) · 10 2) =
      [[some dMax, some 1#64], [none, none]] ∧
    after (exec (.shr 10#16 0#16 2#8 0#6) sShift) 0 10 2 = [some dMax, some dMax] := by decide +kernel

theorem witness_ZeroWritesZeros :
    Ready (about 0x18#128 8#8 []) ⟨0x18#128, 8#8⟩ ∧ InRange (about 0x18#128 8#8 []) 253#16 3 := by decide +kernel

theorem test_zero :
    after (exec (.zero 5#16 3#8) (about 0x18#128 8#8 [])) 3 4 5 = [none, some 0#64, some 0#64, some 0#64, none] ∧
    after (exec (.zero 5#16 3#8) (about 0x18#128 8#8 [])) 2 4 5 = [none, none, none, none, none] := by decide +kernel

def sCopy : State := about 0x19#128 1#8 (column [0xA#64, 0xB#64, 0xFFFFFFFFFFFFFFFF#64])

theorem witness_CopyMovesWords :
    Ready sCopy ⟨0x19#128, 1#8⟩ ∧ InRange sCopy 253#16 3 ∧ InRange sCopy 0#16 3 ∧
    Present sCopy 0#16 0 [0xA#64, 0xB#64, 0xFFFFFFFFFFFFFFFF#64] := by decide +kernel

/-- The destination overlaps the source: all words are read first (R16). -/
theorem test_copy :
    after (exec (.copy 1#16 0#16 3#8) sCopy) 0 0 4 =
      [some 0xA#64, some 0xA#64, some 0xB#64, some 0xFFFFFFFFFFFFFFFF#64] := by decide +kernel

/-- Lane 0: a > b by the upper digit. Lane 1: equal. Lane 2: a < b though its low digit is larger. Lane 3: not normalised. -/
def sCmpge : State := about 0x1A#128 0xF#8 (grid
  [5#64, 5#64, dMax, 0#64, 1#64, 7#64, 0#64, 0#64, 6#64, 5#64, 0#64, 0#64, 0#64, 7#64, 1#64, big])

theorem witness_CmpgeComparesValues :
    Ready sCmpge ⟨0x1A#128, 0xF#8⟩ ∧ InRange sCmpge 255#16 1 ∧ InRange sCmpge 0#16 2 ∧ InRange sCmpge 2#16 2 ∧
    Present sCmpge 0#16 1 [5#64, 7#64] ∧ Present sCmpge 2#16 1 [5#64, 7#64] ∧ AllDigits [5#64, 7#64] ∧
    Present sCmpge 2#16 3 [0#64, big] ∧ ¬ AllDigits [0#64, big] := by
  simp only [allDigits_iff]; decide +kernel

theorem test_cmpge :
    (List.range 4).map (fun l => after (exec (.cmpge 10#16 0#16 2#16 2#8) sCmpge) l 10 1) =
      [[some 0xFFFFFFFFFFFFFFFF#64], [some 0xFFFFFFFFFFFFFFFF#64], [some 0#64], [none]] := by decide +kernel

/-- Normalised digits of W bits are their own normal form (R150). -/
theorem witness_NormalisationIsIdempotent :
    Ready (about 0x13#128 1#8 (column m511)) ⟨0x13#128, 1#8⟩ ∧ Active (about 0x13#128 1#8 (column m511)) ⟨0x13#128, 1#8⟩ 0 ∧
    AllDigits m511 ∧ Present (about 0x13#128 1#8 (column m511)) 0#16 0 m511 ∧ (10#8).toNat = m511.length ∧
    Width.w512.digits = m511.length ∧ (m511.getD 9 0#64).toNat < 2 ^ 44 := by
  simp only [allDigits_iff]; decide +kernel

/-- Rows 0 to 9: 1. Rows 10 to 19: 0. Rows 20 to 29: 2^52 − 1. Rows 30 to 49: 2^1040 − 1. Row 50 and on: 2^52, zeros. -/
def sAddmul : State := about 0x1#128 1#8 (column
  (small 1 ++ small 0 ++ small 0xFFFFFFFFFFFFF ++ List.replicate 20 dMax ++ [big] ++ List.replicate 19 0#64))

theorem witness_AddmulAccumulatesProduct :
    Ready sAddmul ⟨0x1#128, 1#8⟩ ∧ InRange sAddmul 30#16 20 ∧ InRange sAddmul 0#16 10 ∧
    Present sAddmul 30#16 0 (List.replicate 20 dMax) ∧ Present sAddmul 0#16 0 (small 1) ∧
    AllDigits (List.replicate 20 dMax) ∧ AllDigits (small 1) ∧
    digitSum (List.replicate 20 dMax) + digitSum (small 1) * digitSum (small 1) = 2 ^ 1040 ∧
    Present sAddmul 10#16 0 (small 0) ∧
    digitSum (List.replicate 20 dMax) + digitSum (small 1) * digitSum (small 0) = 2 ^ 1040 - 1 ∧
    ¬ AllDigits (big :: List.replicate 19 0#64) := by
  simp only [allDigits_iff]; decide +kernel

/-- R181's example, acc + a·b = 2^1040, and a word of 2^52. -/
theorem test_addmul :
    after (exec (.addmul 0#3 0#16 20#16 20#16) sAddmul) 0 0 20 =
      ([2#64, 0xFFFFFFFFFFFFE#64] ++ List.replicate 18 0#64).map some ∧
    faultsAfter (exec (.addmul 0#3 30#16 0#16 0#16) sAddmul) = [some (.range, 0)] ∧
    faultsAfter (exec (.addmul 0#3 50#16 0#16 0#16) sAddmul) = [some (.nonnorm, 0)] := by decide +kernel

/-- Rows 0 to 9: M511. Row 10: its k0. Row 11: that with bit 0 flipped. Row 12: 2^52. Rows 13 to 32: 5·2^520.
Rows 33 to 52: 2^1040 − 1. Rows 53 to 62: 7. Row 63: the k0 of 7. -/
def sAmred : State := about 0x2#128 1#8 (column
  (m511 ++ [k511, 0xA171024E6A170#64, big] ++ small 0 ++ small 5 ++ List.replicate 20 dMax ++ small 7 ++
    [0x9249249249249#64]))

theorem witness_AmredDividesByR_AmredStaysBelowTwiceModulus :
    Ready sAmred ⟨0x2#128, 1#8⟩ ∧ Active sAmred ⟨0x2#128, 1#8⟩ 0 ∧ InRange sAmred 246#16 10 ∧
    Present sAmred 13#16 0 (small 0 ++ small 5) ∧ Present sAmred 0#16 0 m511 ∧ Present sAmred 10#16 0 [k511] ∧
    AllDigits (small 0 ++ small 5) ∧ AllDigits m511 ∧ AllDigits [k511] ∧
    (k511.toNat * (digitSum m511 % 2 ^ 52)) % 2 ^ 52 = 2 ^ 52 - 1 ∧
    digitSum (small 0 ++ small 5) < 2 ^ 520 * digitSum m511 ∧
    digitSum (small 0 ++ small 5) < 2 ^ 520 * (2 ^ 520 - digitSum m511) ∧
    Present sAmred 11#16 0 [0xA171024E6A170#64] ∧
    (0xA171024E6A170 * (digitSum m511 % 2 ^ 52)) % 2 ^ 52 ≠ 2 ^ 52 - 1 ∧
    Present sAmred 12#16 0 [big] ∧ ¬ AllDigits [big] ∧
    Present sAmred 33#16 0 (List.replicate 20 dMax) ∧ Present sAmred 53#16 0 (small 7) ∧
    (0x9249249249249 * (digitSum (small 7) % 2 ^ 52)) % 2 ^ 52 = 2 ^ 52 - 1 := by
  simp only [allDigits_iff]; decide +kernel

/-- 5·R reduces to 5; a wrong k0; a word of 2^52; and (2^1040 − 1 + Y·7) / R, which is R or more. -/
theorem test_amred :
    after (exec (.amred 0#3 70#16 13#16 0#16 10#16) sAmred) 0 70 10 = (small 5).map some ∧
    faultsAfter (exec (.amred 0#3 70#16 13#16 0#16 11#16) sAmred) = [some (.k0, 0)] ∧
    faultsAfter (exec (.amred 0#3 70#16 13#16 0#16 12#16) sAmred) = [some (.nonnorm, 0)] ∧
    faultsAfter (exec (.amred 0#3 70#16 33#16 53#16 63#16) sAmred) = [some (.range, 0)] := by decide +kernel

/-- Rows 0 to 9: 2^260. Rows 10 to 19: 2^520 − 1. Rows 20 to 29: 2^520 − 3. Rows 30 to 32: their k0s, 1 and 1/3, and 2^52. -/
def sAms : State := about 0x3#128 1#8 (column
  ([0#64, 0#64, 0#64, 0#64, 0#64, 1#64, 0#64, 0#64, 0#64, 0#64] ++ List.replicate 10 dMax ++
    (0xFFFFFFFFFFFFD#64 :: List.replicate 9 dMax) ++ [1#64, 0xAAAAAAAAAAAAB#64, big]))

theorem witness_AmsReducesSquare :
    Ready sAms ⟨0x3#128, 1#8⟩ ∧ InRange sAms 246#16 10 ∧ Present sAms 10#16 0 (List.replicate 10 dMax) ∧
    Present sAms 30#16 0 [1#64] ∧ Present sAms 31#16 0 [0xAAAAAAAAAAAAB#64] ∧
    AllDigits (List.replicate 10 dMax) ∧
    (1 * (digitSum (List.replicate 10 dMax) % 2 ^ 52)) % 2 ^ 52 = 2 ^ 52 - 1 ∧
    (0xAAAAAAAAAAAAB * (digitSum (List.replicate 10 dMax) % 2 ^ 52)) % 2 ^ 52 ≠ 2 ^ 52 - 1 ∧
    Present sAms 32#16 0 [big] ∧ ¬ AllDigits [big] := by
  simp only [allDigits_iff]; decide +kernel

/-- (2^260)² = R reduces to 1; (R − 1)² modulo R − 1 to R − 1, the largest result; modulo R − 3 to more than that. -/
theorem test_ams :
    after (exec (.ams 0#3 40#16 0#16 10#16 30#16) sAms) 0 40 10 = (small 1).map some ∧
    after (exec (.ams 0#3 40#16 10#16 10#16 30#16) sAms) 0 40 10 = (List.replicate 10 dMax).map some ∧
    faultsAfter (exec (.ams 0#3 40#16 10#16 20#16 31#16) sAms) = [some (.range, 0)] ∧
    faultsAfter (exec (.ams 0#3 40#16 0#16 10#16 31#16) sAms) = [some (.k0, 0)] ∧
    faultsAfter (exec (.ams 0#3 40#16 0#16 10#16 32#16) sAms) = [some (.nonnorm, 0)] := by decide +kernel

/-- Rows 0, 10, 20, 30, 40: 0, 3, 5, 7 and 8. Rows 50 on: 2^52 and zeros. -/
def sModsub : State := about 0x4#128 1#8 (column
  (small 0 ++ small 3 ++ small 5 ++ small 7 ++ small 8 ++ small 0x10000000000000))

theorem witness_ModsubAddsBackOnce :
    Ready sModsub ⟨0x4#128, 1#8⟩ ∧ InRange sModsub 246#16 10 ∧ Present sModsub 0#16 0 (small 0) ∧
    Present sModsub 30#16 0 (small 7) ∧ Present sModsub 40#16 0 (small 8) ∧ AllDigits (small 8) ∧
    digitSum (small 0) + digitSum (small 7) < digitSum (small 8) ∧
    digitSum (small 7) ≤ digitSum (small 0) + digitSum (small 7) ∧
    Present sModsub 50#16 0 (small 0x10000000000000) ∧ ¬ AllDigits (small 0x10000000000000) := by
  simp only [allDigits_iff]; decide +kernel

/-- Modulo 7: 3 − 5 = 5; 0 − 7 = 0, the largest b; 0 − 8 is UB_RANGE; a word of 2^52. -/
theorem test_modsub :
    after (exec (.modsub 0#3 70#16 10#16 20#16 30#16) sModsub) 0 70 10 = (small 5).map some ∧
    after (exec (.modsub 0#3 70#16 0#16 30#16 30#16) sModsub) 0 70 10 = (small 0).map some ∧
    faultsAfter (exec (.modsub 0#3 70#16 0#16 40#16 30#16) sModsub) = [some (.range, 0)] ∧
    faultsAfter (exec (.modsub 0#3 70#16 50#16 0#16 30#16) sModsub) = [some (.nonnorm, 0)] := by decide +kernel

/-- Lane 0: q = 2. Lane 1: clamped from 2^52. Lane 2: v1 = 2^51 − 1. Lane 3: a word of 2^52. -/
def sEstq : State := about 0x8#128 0xF#8 (grid
  [0#64, 0#64, 0#64, 0#64, 0#64, 0#64, 0#64, 0#64, 1#64, 0x8000000000000#64, 1#64, big,
   0#64, 0#64, 0#64, 0#64, 0x8000000000000#64, 0x8000000000000#64, 0x7FFFFFFFFFFFF#64, 0x8000000000000#64])

theorem witness_EstqDividesThreeDigitsByTwo :
    Ready sEstq ⟨0x8#128, 0xF#8⟩ ∧ InRange sEstq 255#16 1 ∧ InRange sEstq 0#16 3 ∧ InRange sEstq 3#16 2 ∧
    Present sEstq 0#16 0 [0#64, 0#64, 1#64] ∧ Present sEstq 3#16 0 [0#64, 0x8000000000000#64] ∧
    AllDigits [0#64, 0#64, 1#64, 0#64, 0x8000000000000#64] ∧
    Present sEstq 3#16 2 [0#64, 0x7FFFFFFFFFFFF#64] ∧ AllDigits [0#64, 0#64, 1#64, 0#64, 0x7FFFFFFFFFFFF#64] ∧
    Present sEstq 0#16 3 [0#64, 0#64, big] ∧ ¬ AllDigits [0#64, 0#64, big, 0#64, 0x8000000000000#64] := by
  simp only [allDigits_iff]; decide +kernel

theorem test_estq :
    (List.range 4).map (fun l => after (exec (.estq 10#16 0#16 3#16) sEstq) l 10 1) =
      [[some 2#64], [some dMax], [none], [none]] ∧
    faultsAfter (exec (.estq 10#16 0#16 3#16) sEstq) = [some (.divisor, 2), some (.nonnorm, 3)] := by decide +kernel

/-- Lane 0: R212's example, with one correction. Lane 1: 2^156 modulo 2^104 + 1. Lane 2: a top digit of 0. Lane 3: a word of
2^52. -/
def sMreduce : State := about 0x9#128 0xF#8 (grid
  [0#64, 0#64, 0#64, big, 0#64, 0#64, 0#64, 0#64, 0#64, 0#64, 0#64, 0#64, 1#64, 1#64, 1#64, 0#64,
   1#64, 1#64, 7#64, 7#64, 0#64, 0#64, 1#64, 1#64, 0x8000000000000#64, 1#64, 0#64, 1#64])

theorem witness_MreduceIsRemainder :
    Ready sMreduce ⟨0x9#128, 0xF#8⟩ ∧ InRange sMreduce 0#16 4 ∧ InRange sMreduce 4#16 3 ∧
    Present sMreduce 0#16 0 [0#64, 0#64, 0#64, 1#64] ∧ Present sMreduce 4#16 0 [1#64, 0#64, 0x8000000000000#64] ∧
    AllDigits [0#64, 0#64, 0#64, 1#64] ∧ AllDigits [1#64, 0#64, 0x8000000000000#64] ∧
    Present sMreduce 4#16 2 [7#64, 1#64, 0#64] ∧ Present sMreduce 0#16 3 [big, 0#64, 0#64, 0#64] ∧
    ¬ AllDigits [big, 0#64, 0#64, 0#64] := by
  simp only [allDigits_iff]; decide +kernel

theorem test_mreduce :
    (List.range 3).map (fun l => after (exec (.mreduce 0#16 4#16 4#8 3#8) sMreduce) l 0 4) =
      [[some dMax, some dMax, some 0x7FFFFFFFFFFFF#64, some 0#64], [some 1#64, some dMax, some 0#64, some 0#64],
       [none, none, none, none]] ∧
    faultsAfter (exec (.mreduce 0#16 4#16 4#8 3#8) sMreduce) = [some (.topDigit, 2), some (.nonnorm, 3)] := by
  decide +kernel

/-- LX < LM leaves x; an even modulus of one digit; and R213's hypotheses at the first and the last position. -/
theorem witness_EstimateIsWithinOne :
    longDivide 1 2 [100#64] [7#64, 1#64] = [100#64] ∧ longDivide 2 1 [0#64, 1#64] [10#64] = [6#64, 0#64] ∧
    AllDigits [0#64, 0#64, 0#64, 1#64] ∧ AllDigits [1#64, 0#64, 0x8000000000000#64] ∧
    [1#64, 0#64, 0x8000000000000#64].getD 2 0#64 ≠ 0#64 ∧
    1 + [1#64, 0#64, 0x8000000000000#64].length ≤ [0#64, 0#64, 0#64, 1#64].length := by
  simp only [allDigits_iff]; decide +kernel

/-- Lane 0: m0 = 111. Lane 1: m0 = 2^52 − 1. Lane 2: m0 = 0. Lane 3: m0 = 2^52. -/
def sMontfactor : State := about 0xC#128 0xF#8 (grid [111#64, dMax, 0#64, big])

theorem witness_MontfactorIsNegatedInverse :
    Ready sMontfactor ⟨0xC#128, 0xF#8⟩ ∧ InRange sMontfactor 255#16 1 ∧ InRange sMontfactor 0#16 1 ∧
    Present sMontfactor 0#16 1 [dMax] ∧ Present sMontfactor 0#16 2 [0#64] ∧ Present sMontfactor 0#16 3 [big] := by
  decide +kernel

theorem test_montfactor :
    (List.range 4).map (fun l => after (exec (.montfactor 1#16 0#16) sMontfactor) l 1 1) =
      [[some k511], [some 1#64], [none], [none]] ∧
    faultsAfter (exec (.montfactor 1#16 0#16) sMontfactor) = [some (.evenModulus, 2), some (.nonnorm, 3)] := by
  decide +kernel

/-- Rows 0 to 9: M511. Rows 10, 20, 30 on: 7, 0 and 2^52. -/
def sMontrr : State := about 0xD#128 1#8 (column (m511 ++ small 7 ++ small 0 ++ small 0x10000000000000))

theorem witness_MontrrIsSquareOfR :
    Ready sMontrr ⟨0xD#128, 1#8⟩ ∧ InRange sMontrr 246#16 10 ∧ Present sMontrr 0#16 0 m511 ∧ AllDigits m511 ∧
    digitSum m511 = 2 ^ 511 + 111 ∧ Present sMontrr 20#16 0 (small 0) ∧ digitSum (small 0) = 0 ∧
    Present sMontrr 30#16 0 (small 0x10000000000000) := by
  simp only [allDigits_iff]; decide +kernel

theorem test_montrr :
    after (exec (.montrr 0#3 50#16 0#16) sMontrr) 0 50 10 = (small 0xC0840000).map some ∧
    after (exec (.montrr 0#3 50#16 10#16) sMontrr) 0 50 10 = (small 4).map some ∧
    faultsAfter (exec (.montrr 0#3 50#16 20#16) sMontrr) = [some (.topDigit, 0)] ∧
    faultsAfter (exec (.montrr 0#3 50#16 30#16) sMontrr) = [some (.nonnorm, 0)] := by decide +kernel

/-! ### Multiplication in the Montgomery domain -/

/-- Rows 0 to 9: M511. Row 10: its k0. Rows 11 to 20: M511 − 1 (a, below M). Rows 21 to 30: R² mod M. Rows 31 to 40:
2·M511 − 1, the largest almost reduced number. -/
def sMul : State := idle (column
  (m511 ++ [k511] ++ (0x6E#64 :: m511.drop 1) ++ small 0xC0840000 ++
    (0xDD#64 :: List.replicate 8 0#64 ++ [0x100000000000#64])))

theorem context_m511 : Context .w512 m511 k511 := by
  refine ⟨by decide, (allDigits_iff _).2 (by decide +kernel), ?_⟩
  decide +kernel

theorem witness_MmulStaysAlmostReduced :
    Idle sMul ∧ Enabled sMul 0 ∧ Context .w512 m511 k511 ∧ InRange sMul 50#16 10 ∧ InRange sMul 60#16 20 ∧
    Apart 60#16 20 31#16 10 ∧ Apart 60#16 20 0#16 10 ∧ Apart 60#16 20 10#16 1 ∧
    AllDigits (0xDD#64 :: List.replicate 8 0#64 ++ [0x100000000000#64]) ∧
    digitSum (0xDD#64 :: List.replicate 8 0#64 ++ [0x100000000000#64]) + 1 = 2 * digitSum m511 ∧
    Present sMul 31#16 0 (0xDD#64 :: List.replicate 8 0#64 ++ [0x100000000000#64]) ∧ Present sMul 0#16 0 m511 ∧
    Present sMul 10#16 0 [k511] := by
  refine ⟨?_, ?_, context_m511, ?_⟩
  · decide +kernel
  · decide +kernel
  · simp only [allDigits_iff]; decide +kernel

theorem witness_MontgomeryRoundTripIsExact :
    Idle sMul ∧ Enabled sMul 0 ∧ Context .w512 m511 k511 ∧ InRange sMul 50#16 10 ∧ InRange sMul 60#16 20 ∧
    InRange sMul 80#16 10 ∧ Apart 60#16 20 11#16 10 ∧ Apart 60#16 20 21#16 10 ∧ Apart 50#16 10 0#16 10 ∧
    Apart 50#16 10 10#16 1 ∧ AllDigits (0x6E#64 :: m511.drop 1) ∧ AllDigits (small 0xC0840000) ∧
    digitSum (0x6E#64 :: m511.drop 1) + 1 = digitSum m511 ∧
    digitSum (small 0xC0840000) = (2 ^ 520) ^ 2 % digitSum m511 ∧
    Present sMul 11#16 0 (0x6E#64 :: m511.drop 1) ∧ Present sMul 21#16 0 (small 0xC0840000) := by
  refine ⟨?_, ?_, context_m511, ?_⟩
  · decide +kernel
  · decide +kernel
  · simp only [allDigits_iff]; decide +kernel

theorem witness_SquaringEquivalence :
    Idle sMul ∧ sMul.faults = [] ∧ Enabled sMul 0 ∧ InRange sMul 50#16 10 ∧ InRange sMul 60#16 20 ∧
    Apart 60#16 20 11#16 10 ∧ Apart 60#16 20 0#16 10 ∧ Apart 60#16 20 10#16 1 ∧ AllDigits [k511] ∧
    Present sMul 11#16 0 (0x6E#64 :: m511.drop 1) ∧ Present sMul 0#16 0 m511 ∧ Present sMul 10#16 0 [k511] := by
  simp only [allDigits_iff]; decide +kernel

/-! ### Steps -/

/-- `ZERO r5, #1` latched for lane 0, row 0 of lane 0 written. -/
def sRun : State := about 0x00000000000000050000000100000018#128 1#8 (column [7#64])

/-- The same with a read of the host waiting and a turn drawn. -/
def sRace (first : Agent) : State := { sRun with inputs := [hostRead sRun.cfg 0x100000], turns := [first] }

theorem sRun_inv : sRun.Inv where
  memory := by decide +kernel
  words := by decide +kernel
  latched := by decide +kernel
  running := by decide +kernel
  code := by decide +kernel
  codeBound := by decide +kernel
  laneMask := by decide +kernel
  latchMask := by intro k h; cases h; decide +kernel
  faultsOnce := by decide +kernel
  earlierFaultsOnce := by decide +kernel

theorem witness_StepRunsDecodedCommand :
    sRun.busy = true ∧ sRun.latch = some ⟨0x00000000000000050000000100000018#128, 1#8⟩ ∧
    decode 0x00000000000000050000000100000018#128 = .ok (.zero 5#16 1#8) ∧ sRun.inputs = [] ∧
    (sRace .core).inputs ≠ [] ∧ (sRace .core).turns.head? ≠ some .host := by decide +kernel

theorem witness_StepRefusesUnreadableWord :
    (about 0x0#128 1#8 []).busy = true ∧ (about 0x0#128 1#8 []).latch = some ⟨0x0#128, 1#8⟩ ∧
    decode 0x0#128 = .error .illegalOpcode ∧ decode 0x801#128 = .error .reservedField ∧
    (about 0x801#128 1#8 []).inputs = [] := by decide +kernel

theorem witness_IdleBlockDoesNothing : State.reset.busy = false ∧ State.reset.inputs = [] := by decide

theorem witness_EitherAgentMayGoFirst :
    (sRace .host).busy = true ∧ (sRace .host).inputs = .access ⟨0x100000, 8, .read⟩ :: [] ∧
    (sRace .host).turns = .host :: [] ∧ (sRace .core).turns = .core :: [] := by decide

/-- The host's read first is HOST_RACE; the core's command first lets it return the word. -/
theorem test_turns :
    nextIs (stepN 2 (sRace .host)) (fun t => t.replies == [none] && t.faults == [.host .race ⟨0x100000, 8, .read⟩]) ∧
    nextIs (stepN 2 (sRace .core)) (fun t => t.replies == [some 7#64] && t.faults == []) := by decide +kernel

theorem witness_StepKeepsInvariant : sRun.Inv ∧ nextIs (step sRun) (fun t => !t.busy && t.done) = true :=
  ⟨sRun_inv, by decide +kernel⟩

/-- Below and above the window (R75): its last byte is inside. -/
theorem witness_StepStopsOnlyOutsideWindow :
    sRun.Inv ∧
    [0x500000, 0x600000].all (fun a =>
      match step { State.reset with inputs := [.access ⟨a, 8, .read⟩] } with
      | .fault .outsideWindow => true
      | _ => false) = true ∧
    nextIs (step { State.reset with inputs := [.access ⟨0x4FFFFF, 8, .read⟩] }) (fun _ => true) = true :=
  ⟨sRun_inv, by decide +kernel, by decide +kernel⟩

/-- `sRun` in a run that has met a fault, with inputs and turns. -/
def sFaulty (inputs : List Input) (turns : List Agent) : State :=
  { sRun with faults := [.command .k0 0#128 1], inputs, turns }

/-- A core step and a soft reset, which keep FAULT's entry, and the reset input, which moves it to the earlier ones. -/
theorem witness_FaultRecordIsKept :
    [([], []), ([hostWrite sRun.cfg 0x008 4#64], [.host])].all (fun p =>
      (sFaulty p.1 p.2).failed && (sFaulty p.1 p.2).inputs.head? != some .powerOn &&
      nextIs (step (sFaulty p.1 p.2)) (fun t => !t.busy && t.faults == [.command .k0 0#128 1])) = true ∧
    nextIs (step (sFaulty [.powerOn] [.host]))
      (fun t => t.faults == [] && t.earlierFaults == [.command .k0 0#128 1] && t.failed) = true := by decide +kernel

theorem witness_CommandFrame :
    sRun.latch = some ⟨0x00000000000000050000000100000018#128, 1#8⟩ ∧
    nextIs (exec (.zero 5#16 1#8) sRun) (fun t => t.word 0 0 == some 7#64) = true := by decide +kernel

theorem witness_CommandErrorLeavesMemory :
    sRun.latch.isSome = true ∧ validate sRun.cfg (encode (.addmul 6#3 0#16 0#16 0#16)) = some .size ∧
    validate sRun.cfg (encode (.mreduce 0#16 0#16 1#8 0#8)) = some .length ∧
    validate sRun.cfg (encode (.shl 0#16 0#16 1#8 52#6)) = some .shift ∧
    validate sRun.cfg (encode (.zero 255#16 2#8)) = some .address ∧
    validate sRun.cfg (encode (.zero 255#16 1#8)) = none := by decide +kernel

theorem witness_UnwrittenSourceFaults :
    Ready sNormclr ⟨0x11#128, 1#8⟩ ∧ validate sNormclr.cfg (encode (.copy 10#16 2#16 2#8)) = none ∧
    Active sNormclr ⟨0x11#128, 1#8⟩ 0 ∧ region 2#16 2 ∈ (shape (.copy 10#16 2#16 2#8)).srcs ∧
    sNormclr.word (2 + 1) 0 = none := by decide +kernel

/-- Four rows: the same words in lane 0 of one block and in lane 3 of another that holds more. -/
def tiny : Config := { laneCount := .four, rowsM1 := 3#16, pBase := 0 }

theorem witness_LanesAreIndependent :
    let s₁ : State := { State.resetWith tiny with busy := true, latch := some ⟨0x19#128, 1#8⟩, dm := grid [9#64] }
    let s₂ : State := { State.resetWith tiny with
      busy := true, latch := some ⟨0x19#128, 0xA#8⟩, dm := grid [1#64, 2#64, 3#64, 9#64] }
    s₁.cfg = s₂.cfg ∧ Ready s₁ ⟨0x19#128, 1#8⟩ ∧ Ready s₂ ⟨0x19#128, 0xA#8⟩ ∧ Active s₁ ⟨0x19#128, 1#8⟩ 0 ∧
    Active s₂ ⟨0x19#128, 0xA#8⟩ 3 ∧ (∀ r, r < s₁.cfg.rows → s₁.word r 0 = s₂.word r 3) ∧
    nextIs (exec (.copy 3#16 0#16 1#8) s₁) (fun t => t.word 3 0 == some 9#64) = true ∧
    nextIs (exec (.copy 3#16 0#16 1#8) s₂) (fun t => t.word 3 3 == some 9#64) = true := by decide +kernel

theorem witness_NoActiveLaneTouchesNothing :
    (about 0x18#128 0#8 []).latch = some ⟨0x18#128, 0#8⟩ ∧ (∀ l, ¬ Active (about 0x18#128 0#8 []) ⟨0x18#128, 0#8⟩ l) ∧
    validate (about 0x18#128 0#8 []).cfg (encode (.zero 5#16 1#8)) = none :=
  ⟨by decide, fun l h => absurd h.2 (by simp), by decide +kernel⟩

/-- A placed word runs as the first step after reset: `ZERO r2, #3`, on all four lanes. -/
theorem test_withFetchWord :
    decodeTableWord 128 0x00000000000000020000000300000018 = some (.zero 2#16 3#8) ∧
    after (step (State.reset.withFetchWord 128 0x00000000000000020000000300000018)) 3 1 5 =
      [none, some 0#64, some 0#64, some 0#64, none] := by decide +kernel

/-! ### The host's port (95_test_vectors.md section 2.7) -/

/-- What the host's reads have returned after `k` steps from reset with these inputs and turns. -/
def repliesAfter (k : Nat) (inputs : List Input) (turns : List Agent) : List (Option Word) :=
  match stepN k { State.reset with inputs, turns } with
  | .next t => t.replies
  | _ => []

/-- A write and a read of the reference block, P_BASE = 0. -/
def wr (off : Nat) (v : Word) : Input := hostWrite Config.reference off v
def rd (off : Nat) : Input := hostRead Config.reference off

theorem test_register_reads :
    repliesAfter 6 [rd 0x000, rd 0x010, rd 0x018, wr 0x018 0xFFFFFFFFFFFFFFF5#64, rd 0x018, rd 0x0F8] [] =
      [some 0x32354D4D00FF0401#64, some 0#64, some 0xF#64, some 0x5#64, some 0#64] := by decide +kernel

/-- `ZERO r0, #1`, then the reset value of CMD: STATUS reads DONE; DONE, ERR and code 1; then as its bits are cleared. -/
theorem test_status_reads :
    repliesAfter 5 [wr 0x020 0x0000000100000018#64, wr 0x008 1#64, rd 0x010, wr 0x010 2#64] [] = [some 2#64] ∧
    repliesAfter 7 [wr 0x008 1#64, rd 0x010, wr 0x010 2#64, rd 0x010, wr 0x010 4#64, rd 0x010] [] =
      [some 0x106#64, some 0x104#64, some 0#64] := by decide +kernel

/-- While BUSY = 1: a write to CMD_LO and a second GO are lost with OVR; CMD_LO keeps its value; DM reads are HOST_RACE. -/
theorem test_busy_accesses :
    repliesAfter 4 [wr 0x008 1#64, wr 0x020 0x18#64, rd 0x010, rd 0x020] [.host, .host, .host] = [some 9#64, some 0#64] ∧
    repliesAfter 3 [wr 0x008 1#64, wr 0x008 1#64, rd 0x010] [.host, .host] = [some 9#64] ∧
    repliesAfter 2 [wr 0x008 1#64, rd 0x100000] [.host] = [none] := by decide +kernel

theorem test_host_faults :
    nextIs (stepN 1 { State.reset with inputs := [rd 0x100004] })
      (fun t => t.faults == [.host .access ⟨0x100004, 8, .read⟩]) = true ∧
    nextIs (stepN 1 { State.reset with inputs := [rd 0x100000] })
      (fun t => t.faults == [.host .uninit ⟨0x100000, 8, .read⟩]) = true := by decide +kernel

theorem test_interrupt :
    nextIs (stepN 3 { State.reset with inputs := [wr 0x008 2#64, wr 0x008 3#64] }) (fun t => irq t) = true ∧
    nextIs (stepN 4 { State.reset with inputs := [wr 0x008 2#64, wr 0x008 3#64, wr 0x010 2#64] }) (fun t => !irq t) = true ∧
    nextIs (stepN 3 { State.reset with inputs := [wr 0x008 2#64, wr 0x008 1#64] }) (fun t => !irq t && t.done) = true := by
  decide +kernel

/-- SRST before the core's step: `ZERO r5, #2` has made rows 5 and 6 of the latched lanes `⊥`, and every register is reset. -/
theorem test_soft_reset :
    nextIs (State.hostAccess (about 0x00000000000000050000000200000018#128 1#8 (column (List.replicate 8 7#64)))
        ⟨0x008, 8, .write 4#64⟩)
      (fun t => (List.range 4).map (fun i => t.word (4 + i) 0) == [some 7#64, none, none, some 7#64] && statusWord t == 0#64 &&
        t.laneMask == 0xF#8 && t.latch == none && !t.ie) = true := by decide +kernel

theorem witness_CtrlWriteEffect :
    (4#64).getLsbD 2 = true ∧ (2#64).getLsbD 2 = false ∧ (2#64).getLsbD 0 = false ∧ (1#64).getLsbD 2 = false ∧
    (1#64).getLsbD 0 = true ∧ sRun.busy = true ∧ State.reset.busy = false := by decide

theorem witness_BusyIgnoresRegisterWrites : sRun.busy = true ∧ 0x028 ∈ [0x018, 0x020, 0x028] := by decide

theorem witness_LaneMaskKeepsItsBits_CmdReadsBackAsWritten : State.reset.busy = false := by decide

theorem witness_ReservedOffsetsReadZero :
    [0x030, 0x0FFFF8, 0x102000, 0x4FFFF8].all (fun off => off % 8 = 0 && off < 0x500000 &&
      !([0x000, 0x008, 0x010, 0x018, 0x020, 0x028].contains off) &&
      (off < 0x100000 || 0x100000 + 8 * State.reset.cfg.lanes * State.reset.cfg.rows ≤ off)) = true := by decide

theorem witness_MalformedAccessFaults :
    State.reset.cfg.pBase + 0x4FFFFC = 0x4FFFFC ∧ 0x4FFFFC < 0x500000 ∧ 0x4FFFFC % 8 ≠ 0 ∧ 4 ≠ 8 := by decide

theorem witness_BusyWindowAccessFaults :
    sRun.busy = true ∧ 255 < sRun.cfg.rows ∧ 3 < sRun.cfg.lanes ∧
    sRun.cfg.pBase + (0x100000 + 8 * (sRun.cfg.lanes * 255 + 3)) = 0x101FF8 := by decide

theorem witness_HostReadsAndWritesWords :
    (idle (column [7#64])).busy = false ∧ (idle (column [7#64])).dm.wf = true ∧ 255 < (idle (column [7#64])).cfg.rows ∧
    3 < (idle (column [7#64])).cfg.lanes ∧ (idle (column [7#64])).word 0 0 = some 7#64 ∧
    (idle (column [7#64])).word 255 3 = none := by decide +kernel

theorem witness_ReadsHaveNoSideEffect :
    nextIs (State.hostAccess State.reset ⟨0x100000, 8, .read⟩) (fun t => t.replies == [none]) = true ∧
    State.reset.dm.wf = true ∧ nextIs (writeAt State.reset 0x100000 7#64) (fun t => t.word 0 0 == some 7#64) = true := by
  decide +kernel

theorem witness_SoftResetEffect :
    (4#64).getLsbD 2 = true ∧ sRun.dm.wf = true ∧ State.reset.latch = none ∧ validate sRun.cfg 0x801#128 ≠ none ∧
    sRun.latch = some ⟨0x00000000000000050000000100000018#128, 1#8⟩ ∧
    decode 0x00000000000000050000000100000018#128 = .ok (.zero 5#16 1#8) ∧
    validate sRun.cfg 0x00000000000000050000000100000018#128 = none := by decide +kernel

theorem witness_PowerOnResetEffect :
    ({ sRun with inputs := [.powerOn], turns := [.host] } : State).inputs = .powerOn :: [] ∧
    ({ sRun with inputs := [.powerOn], turns := [.host] } : State).whoMoves = some .host := by decide

theorem witness_IrqFollowsDone :
    nextIs (coreStep { sRun with ie := true }) (fun t => irq t) = true ∧ (2#64).getLsbD 1 = true ∧
    nextIs (writeAt { State.reset with ie := true, done := true } 0x010 2#64) (fun t => !irq t) = true ∧
    nextIs (writeAt { State.reset with done := true } 0x008 3#64) (fun t => t.ie && !irq t) = true := by decide +kernel

end Sys2Proof.Tests
end

section
/-! PROOFS. Scope: the size codes and the widths they select (spec 00_scope.md R8; 30_encoding.md R102). -/

namespace Sys2Proof.Machine

/-- R102: the size codes number the supported widths in rising order, and the codes past the last one are reserved. -/
theorem ofCode_eq_getElem? (sz : SizeCode) :
    Width.ofCode sz = [Width.w512, .w1024, .w1536, .w2048, .w3072, .w4096][sz.toNat]? := by
  revert sz; decide

/-- Settles O6: a size code indexes the list of widths, and each width has its row of R8's table. -/
theorem sizeCodesSelectWidths : Obligations.SizeCodesSelectWidths := by
  intro sz
  rw [ofCode_eq_getElem?, ← List.getElem?_map]
  simp only [List.map_cons, List.map_nil, width_table]

end Sys2Proof.Machine
end

section
/-! PROOFS. Scope: what a write to the digit memory leaves of its whole words (spec 10_state.md R32; 20_memory.md R75,
R77). -/

namespace Sys2Proof.Machine

/-- Each byte of a written word has the value that the write gives it. -/
theorem getByte_writeAll_mem {ws : List (Nat × Option Word)} {m : Memory} (hr : WordsRising ws) (hm : m.wf = true)
    {w : Nat × Option Word} (hw : w ∈ ws) {k : Nat} (hk : k < 8) :
    (m.writeAll ws).getByte (w.1 + k) = w.2.map fun x => x.extractLsb' (8 * k) 8 :=
  getByte_update_mem (flatMap_wordBytes_rising hr) hm (u := (w.1 + k, w.2.map fun x : Word => x.extractLsb' (8 * k) 8))
    (List.mem_flatMap.mpr ⟨w, hw, mem_wordBytes.mpr ⟨k, hk, rfl⟩⟩)

/-- A written word one of whose bytes has a value afterwards was not written `⊥`. -/
theorem isSome_of_getByte_writeAll {ws : List (Nat × Option Word)} {m : Memory} (hr : WordsRising ws)
    (hm : m.wf = true) {w : Nat × Option Word} (hw : w ∈ ws) {k : Nat} (hk : k < 8) {b : Byte}
    (hb : (m.writeAll ws).getByte (w.1 + k) = some b) : w.2.isSome = true := by
  rw [getByte_writeAll_mem hr hm hw hk] at hb
  cases hv : w.2 with
  | none => rw [hv] at hb; cases hb
  | some x => rfl

theorem wholeWords_iff (c : Config) (m : Memory) :
    wholeWords c m = true ↔ ∀ p ∈ m, 0x100000 ≤ p.1 ∧ p.1 < 0x100000 + 8 * c.lanes * c.rows ∧
      (m.readWord (p.1 - p.1 % 8)).isSome = true := by
  simp only [wholeWords, List.all_eq_true, Bool.and_eq_true, decide_eq_true_eq, and_assoc]

/-- Writes of words of the DM window keep a memory of whole words one (R32): a listed byte belongs to a written word, which
is a value then, or to one that no write meets. -/
theorem wholeWords_writeAll {c : Config} {ws : List (Nat × Option Word)} {m : Memory} (hr : WordsRising ws)
    (hm : m.wf = true) (hin : ∀ w ∈ ws, ∃ r l, r < c.rows ∧ l < c.lanes ∧ w.1 = dmOffset c r l)
    (hw : wholeWords c m = true) : wholeWords c (m.writeAll ws) = true := by
  rw [wholeWords_iff] at hw ⊢
  intro p hp
  have hbyte : (m.writeAll ws).getByte p.1 = some p.2 := getByte_of_mem (wf_writeAll hr hm) hp
  by_cases hmeet : ∃ w ∈ ws, w.1 = p.1 - p.1 % 8
  · obtain ⟨w, hmem, hbase⟩ := hmeet
    obtain ⟨r, l, hrow, hlane, hoff⟩ := hin w hmem
    have hhi := dmOffset_in_window hrow hlane
    have hlo : 0x100000 ≤ dmOffset c r l := by simp [dmOffset]
    have hvalue : w.2.isSome = true := isSome_of_getByte_writeAll hr hm hmem (Nat.mod_lt p.1 (by decide))
      (by rwa [show w.1 + p.1 % 8 = p.1 by omega])
    exact ⟨by omega, by omega, by rwa [← hbase, readWord_writeAll_mem hr hm hmem]⟩
  · have hapart : ∀ w ∈ ws, p.1 - p.1 % 8 + 8 ≤ w.1 ∨ w.1 + 8 ≤ p.1 - p.1 % 8 := by
      intro w hmem
      obtain ⟨r, l, -, -, hoff⟩ := hin w hmem
      have := dmOffset_mod c r l
      have hne : w.1 ≠ p.1 - p.1 % 8 := fun h => hmeet ⟨w, hmem, h⟩
      omega
    have hold : p ∈ m := mem_of_getByte <| by
      rw [← hbyte, getByte_writeAll_other ws m]
      intro w hmem
      have := hapart w hmem
      omega
    rw [readWord_writeAll_other ws m hapart]
    exact hw p hold

/-- Writing a region below DM_ROWS keeps whole words. -/
theorem wholeWords_writeRegion {c : Config} {m : Memory} {g : Region} (mask : LaneMask)
    (f : Nat → Nat → Option Word) (hg : g.row + g.len ≤ c.rows) (hm : m.wf = true) (hw : wholeWords c m = true) :
    wholeWords c (m.writeAll (regionWrites c mask g f)) = true := by
  refine wholeWords_writeAll (regionWrites_rising c mask g f) hm (fun w hmem => ?_) hw
  obtain ⟨i, hi, l, hl, -, rfl⟩ := mem_regionWrites.mp hmem
  exact ⟨g.row + i, l, by omega, hl, rfl⟩

/-- Writing one word of the DM window keeps whole words. -/
theorem wholeWords_writeWord {c : Config} {m : Memory} {r l : Nat} (v : Option Word) (hr : r < c.rows)
    (hl : l < c.lanes) (hm : m.wf = true) (hw : wholeWords c m = true) :
    wholeWords c (m.writeWord (dmOffset c r l) v) = true := by
  rw [writeWord_eq_writeAll]
  exact wholeWords_writeAll (by simp [WordsRising]) hm (by simpa using ⟨r, hr, l, hl, rfl⟩) hw

end Sys2Proof.Machine
end

section
/-! PROOFS. Scope: what one step can do to the state, said once (spec 10_state.md R50 to R53; 20_memory.md R75 to R80;
60_exceptions.md R266, R271). -/

namespace Sys2Proof.Machine

/-! ### The effects of a host access -/

/-- What a host access can make of the state `s`. -/
inductive HostEffect (s : State) : State → Prop where
  /-- A write to ID or to a reserved offset (R38, R44). -/
  | ignored : HostEffect s s
  | faulted (r : HostReason) (a : Access) : HostEffect s (s.hostFault r a)
  | replied (v : Word) : HostEffect s (s.reply v)
  | wroteWord {r l : Nat} (v : Word) (hb : s.busy = false) (hr : r < s.cfg.rows) (hl : l < s.cfg.lanes) :
      HostEffect s { s with dm := s.dm.writeWord (dmOffset s.cfg r l) (some v) }
  | softReset : HostEffect s s.softReset
  | wroteIe (ie : Bool) : HostEffect s { s with ie }
  /-- A write that BUSY = 1 makes void (R43); if it was to CTRL, it has set IE (R50). -/
  | overrun (ie : Bool) (hb : s.busy = true) : HostEffect s { s with ie, ovr := true }
  | started (ie : Bool) (hb : s.busy = false) : HostEffect s { s with
      ie, latch := some ⟨s.cmdHi ++ s.cmdLo, s.laneMask⟩, done := false, err := false, errCode := 0#8, busy := true }
  | clearedStatus (v : Word) : HostEffect s (s.writeStatus v)
  | wroteLaneMask (v : Word) (hb : s.busy = false) :
      HostEffect s { s with laneMask := v.setWidth 8 &&& allLanes s.cfg }
  | wroteCmdLo (v : Word) (hb : s.busy = false) : HostEffect s { s with cmdLo := v }
  | wroteCmdHi (v : Word) (hb : s.busy = false) : HostEffect s { s with cmdHi := v }

theorem go_effect (s : State) (ie : Bool) : HostEffect s (State.go { s with ie }) := by
  by_cases hb : s.busy = true
  · rw [go_of_busy (s := { s with ie }) hb]
    exact .overrun ie hb
  · rw [Bool.not_eq_true] at hb
    rw [go_of_idle (s := { s with ie }) hb]
    exact .started ie hb

theorem writeCtrl_effect (s : State) (v : Word) : HostEffect s (s.writeCtrl v) := by
  rw [State.writeCtrl]
  split
  · exact .softReset
  · split
    · exact go_effect s _
    · exact .wroteIe _

theorem writeLaneMask_effect (s : State) (v : Word) : HostEffect s (s.writeLaneMask v) := by
  rw [State.writeLaneMask]
  split
  · next hb => exact .overrun s.ie hb
  · next hb => exact .wroteLaneMask v (Bool.eq_false_of_not_eq_true hb)

theorem writeCmdLo_effect (s : State) (v : Word) : HostEffect s (s.writeCmdLo v) := by
  rw [State.writeCmdLo]
  split
  · next hb => exact .overrun s.ie hb
  · next hb => exact .wroteCmdLo v (Bool.eq_false_of_not_eq_true hb)

theorem writeCmdHi_effect (s : State) (v : Word) : HostEffect s (s.writeCmdHi v) := by
  rw [State.writeCmdHi]
  split
  · next hb => exact .overrun s.ie hb
  · next hb => exact .wroteCmdHi v (Bool.eq_false_of_not_eq_true hb)

theorem writeRegister_effect (s : State) (off : Nat) (v : Word) : HostEffect s (s.writeRegister off v) := by
  unfold State.writeRegister
  split
  · exact writeCtrl_effect s v
  · exact .clearedStatus v
  · exact writeLaneMask_effect s v
  · exact writeCmdLo_effect s v
  · exact writeCmdHi_effect s v
  · exact .ignored

theorem dmAccess_effect {s : State} {r l : Nat} (a : Access) (hr : r < s.cfg.rows) (hl : l < s.cfg.lanes) :
    HostEffect s (s.dmAccess a (dmOffset s.cfg r l)) := by
  rw [State.dmAccess]
  split
  · exact .faulted _ a
  · next hb =>
    split
    · exact .wroteWord _ (Bool.eq_false_of_not_eq_true hb) hr hl
    · split
      · exact .replied _
      · exact .faulted _ a

theorem accessAt_effect (s : State) (a : Access) (off : Nat) : HostEffect s (s.accessAt a off) := by
  rw [State.accessAt]
  split
  · exact .faulted _ a
  · next hform =>
    split
    · next hd =>
      obtain ⟨hlo, hhi⟩ := (inDmWindow_iff s.cfg off).mp hd
      obtain ⟨r, l, hr, hl, rfl⟩ := exists_dmOffset hlo hhi (by omega)
      exact dmAccess_effect a hr hl
    · split
      · exact .replied _
      · exact writeRegister_effect s off _

theorem hostAccess_effect {s t : State} {a : Access} (h : s.hostAccess a = .next t) : HostEffect s t := by
  rw [State.hostAccess] at h
  split at h
  · cases h; exact accessAt_effect s a _
  · cases h

/-! ### The effects of a step -/

/-- What a step other than the reset input can make of the state `s`, from which the turn and the input it takes have been
struck off. -/
inductive Effect (s : State) : State → Prop where
  | idle : Effect s s
  | refused (e : CmdError) : Effect s (s.complete (some e))
  | executed (k : Latch) (i : Instr) (rule : List (List Word) → LaneResult)
      (hcheck : (shape i).check s.cfg.rows = none) : Effect s ((s.execute k (shape i) rule).complete none)
  | host {t : State} (h : HostEffect s t) : Effect s t

theorem takeTurn_eq (s : State) :
    s.takeTurn = { s with turns := if s.busy && !s.inputs.isEmpty then s.turns.tail else s.turns } := by
  rw [State.takeTurn]
  split <;> rfl

theorem coreStep_effect {s t : State} (h : coreStep s = .next t) : Effect s t := by
  obtain ⟨-, h'⟩ | ⟨-, e, -, -, h'⟩ | ⟨k, i, rule, -, -, hcheck, -, h'⟩ := coreStep_cases s
  all_goals rw [h'] at h; cases h
  · exact .refused e
  · exact .executed k i rule hcheck

/-- All that a step which answers a next state can do: an effect of the core or of a host access, or the reset input. -/
theorem step_effect {s t : State} (h : step s = .next t) :
    (∃ inputs turns, Effect { s with inputs, turns } t) ∨
    (s.whoMoves = some .host ∧ s.inputs.head? = some .powerOn ∧
      ∃ inputs turns, t = State.powerOnReset { s with inputs, turns }) := by
  obtain ⟨-, h'⟩ | ⟨-, h'⟩ | ⟨hwho, h'⟩ := step_cases s
  all_goals rw [h'] at h
  · cases h
    exact .inl ⟨s.inputs, s.turns, .idle⟩
  · rw [takeTurn_eq] at h
    exact .inl ⟨s.inputs, _, coreStep_effect h⟩
  · obtain ⟨hne, -⟩ := (whoMoves_host_iff s).mp hwho
    obtain ⟨x, rest, hx⟩ := List.exists_cons_of_ne_nil hne
    obtain ⟨a, -, h''⟩ | ⟨rfl, h''⟩ := hostStep_cases (s := s.takeTurn) (by rw [takeTurn_inputs, hx])
    all_goals rw [h'', takeTurn_eq] at h
    · exact .inl ⟨rest, _, .host (hostAccess_effect h)⟩
    · cases h
      exact .inr ⟨hwho, by rw [hx, List.head?_cons], rest, _, rfl⟩

end Sys2Proof.Machine
end

section
/-! PROOFS. Scope: the invariant of the block's state (spec 10_state.md R32, R40, R41, R46, R48, R50 to R53). -/

namespace Sys2Proof.Machine

/-! ### Lane masks and error codes -/

theorem allLanes_toNat (c : Config) : (allLanes c).toNat = 2 ^ c.lanes - 1 := by
  rcases Config.lanes_eq c with h | h <;> simp [allLanes, h]

/-- Masking a written word leaves its bits [LANES-1:0] (R41). -/
theorem and_allLanes_toNat (c : Config) (v : Word) :
    (v.setWidth 8 &&& allLanes c).toNat = v.toNat % 2 ^ c.lanes := by
  rw [BitVec.toNat_and, BitVec.toNat_setWidth, allLanes_toNat, Nat.and_two_pow_sub_one_eq_mod,
    Nat.mod_mod_of_dvd _ (Nat.pow_dvd_pow 2 ?_)]
  rcases Config.lanes_eq c with h | h <;> omega

/-- R261: the codes of the command errors are 1 to 6. -/
theorem code_bounds (e : CmdError) : e.code ≠ 0#8 ∧ e.code.toNat ≤ 6 := by cases e <;> decide

/-! ### What keeps the invariant -/

theorem resetWith_inv (c : Config) : (State.resetWith c).Inv where
  memory := rfl
  words := rfl
  latched := rfl
  running := nofun
  code := by simp [State.resetWith]
  codeBound := Nat.zero_le 6
  laneMask := by
    rw [State.resetWith, allLanes_toNat]
    exact Nat.sub_lt (Nat.two_pow_pos _) Nat.one_pos
  latchMask := nofun
  faultsOnce := List.nodup_nil
  earlierFaultsOnce := List.nodup_nil

namespace State.Inv

variable {s : State}

/-- The invariant says nothing of the inputs that wait, nor of the turns. -/
theorem waiting (h : s.Inv) (inputs : List Input) (turns : List Agent) : State.Inv { s with inputs, turns } := { h with }

theorem refused (h : s.Inv) (e : CmdError) : (s.complete (some e)).Inv :=
  { h with
    latched := rfl
    running := nofun
    code := by simpa using (code_bounds e).1
    codeBound := (code_bounds e).2
    latchMask := nofun }

theorem completed (h : s.Inv) : (s.complete none).Inv :=
  { h with latched := rfl, running := nofun, latchMask := nofun }

theorem executed (h : s.Inv) (k : Latch) {sh : Shape} (rule : List (List Word) → LaneResult)
    (hcheck : sh.check s.cfg.rows = none) : (s.execute k sh rule).Inv :=
  { h with
    memory := wf_writeRegion _ _ _ _ h.memory
    words := wholeWords_writeRegion _ _ ((check_eq_none_iff sh _).mp hcheck).2.1 h.memory h.words
    faultsOnce := nodup_recordLanes _ _ _ h.faultsOnce }

theorem abandoned (h : s.Inv) : s.abandon.Inv := by
  rw [State.abandon]
  split
  · exact h
  · split
    · exact h
    · split
      · exact h
      · next i _ hcheck =>
        exact { h with
          memory := wf_writeRegion _ _ _ _ h.memory
          words := wholeWords_writeRegion _ _ ((check_eq_none_iff _ _).mp hcheck).2.1 h.memory h.words }

/-- The registers' reset values meet the invariant, whatever DM and FAULT hold. -/
theorem resetRegisters (h : s.Inv) : s.resetRegisters.Inv :=
  { h with
    latched := rfl
    running := nofun
    code := (resetWith_inv s.cfg).code
    codeBound := Nat.zero_le 6
    laneMask := (resetWith_inv s.cfg).laneMask
    latchMask := nofun }

theorem softReset (h : s.Inv) : s.softReset.Inv := h.abandoned.resetRegisters

theorem powerOnReset (h : s.Inv) : s.powerOnReset.Inv :=
  { h.resetRegisters with
    memory := rfl
    words := rfl
    faultsOnce := List.nodup_nil
    earlierFaultsOnce := nodup_keepFaults _ h.earlierFaultsOnce }

theorem started (h : s.Inv) (ie : Bool) : State.Inv { s with
    ie, latch := some ⟨s.cmdHi ++ s.cmdLo, s.laneMask⟩, done := false, err := false, errCode := 0#8, busy := true } :=
  { h with
    latched := rfl
    running := fun _ => ⟨rfl, rfl⟩
    code := by simp
    codeBound := Nat.zero_le 6
    latchMask := fun k hk => by cases hk; exact h.laneMask }

theorem writeStatus (h : s.Inv) (v : Word) : (s.writeStatus v).Inv :=
  { h with
    running := fun hb => by
      obtain ⟨hdone, herr⟩ := h.running hb
      simp [hdone, herr]
    code := by
      simp only [writeStatus_err, writeStatus_errCode]
      cases v.getLsbD 2 <;> simp [h.code]
    codeBound := by
      rw [writeStatus_errCode]
      split
      · exact Nat.zero_le 6
      · exact h.codeBound }

theorem wroteLaneMask (h : s.Inv) (v : Word) : State.Inv { s with laneMask := v.setWidth 8 &&& allLanes s.cfg } :=
  { h with
    laneMask := by
      show (v.setWidth 8 &&& allLanes s.cfg).toNat < 2 ^ s.cfg.lanes
      rw [and_allLanes_toNat]
      exact Nat.mod_lt _ (Nat.two_pow_pos _) }

/-- A host access keeps the invariant. -/
theorem hostEffect {t : State} (h : s.Inv) (he : HostEffect s t) : t.Inv := by
  cases he with
  | ignored => exact h
  | faulted r a => exact { h with faultsOnce := nodup_addFault _ h.faultsOnce }
  | replied v => exact { h with }
  | wroteWord v _ hr hl =>
    exact { h with
      memory := wf_writeWord _ _ h.memory
      words := wholeWords_writeWord _ hr hl h.memory h.words }
  | softReset => exact h.softReset
  | wroteIe ie => exact { h with }
  | overrun ie _ => exact { h with }
  | started ie _ => exact h.started ie
  | clearedStatus v => exact h.writeStatus v
  | wroteLaneMask v _ => exact h.wroteLaneMask v
  | wroteCmdLo v _ => exact { h with }
  | wroteCmdHi v _ => exact { h with }

theorem effect {t : State} (h : s.Inv) (he : Effect s t) : t.Inv := by
  cases he with
  | idle => exact h
  | refused e => exact h.refused e
  | executed k i rule hcheck => exact (h.executed k rule hcheck).completed
  | host hh => exact h.hostEffect hh

end State.Inv

/-! ### The configuration -/

theorem HostEffect.cfg {s t : State} (h : HostEffect s t) : t.cfg = s.cfg := by
  cases h with
  | softReset => exact softReset_cfg s
  | _ => rfl

theorem Effect.cfg {s t : State} (h : Effect s t) : t.cfg = s.cfg := by
  cases h with
  | host hh => exact hh.cfg
  | _ => rfl

/-! ### The obligations -/

/-- Settles O13: every register stands at its reset value, and DM and the two records are empty. -/
theorem resetHasInvariant : Obligations.ResetHasInvariant := resetWith_inv

/-- Settles O12: each effect that a step can have keeps the invariant and the configuration, and so does the reset input. -/
theorem stepKeepsInvariant : Obligations.StepKeepsInvariant := by
  intro s t hinv hstep
  obtain ⟨inputs, turns, he⟩ | ⟨-, -, inputs, turns, rfl⟩ := step_effect hstep
  · exact ⟨(hinv.waiting inputs turns).effect he, he.cfg⟩
  · exact ⟨(hinv.waiting inputs turns).powerOnReset, rfl⟩

end Sys2Proof.Machine
end

section
/-! PROOFS. Scope: FAULT and the record of its earlier entries along a step (spec 10_state.md R48; 70_reset_and_hazards.md
R300, R312). -/

namespace Sys2Proof.Machine

/-- `t` holds every entry of FAULT that `s` holds, and the same record of earlier entries. -/
def KeepsFaults (s t : State) : Prop := (∀ e ∈ s.faults, e ∈ t.faults) ∧ t.earlierFaults = s.earlierFaults

theorem keepsFaults_of_eq {s t : State} (hf : t.faults = s.faults) (he : t.earlierFaults = s.earlierFaults) :
    KeepsFaults s t := ⟨fun _ h => hf ▸ h, he⟩

theorem HostEffect.keepsFaults {s t : State} (h : HostEffect s t) : KeepsFaults s t := by
  cases h with
  | faulted r a => exact ⟨fun e he => mem_hostFault.mpr (.inl he), rfl⟩
  | softReset => exact keepsFaults_of_eq (softReset_faults s) (softReset_earlierFaults s)
  | _ => exact keepsFaults_of_eq rfl rfl

theorem Effect.keepsFaults {s t : State} (h : Effect s t) : KeepsFaults s t := by
  cases h with
  | idle => exact keepsFaults_of_eq rfl rfl
  | refused e => exact keepsFaults_of_eq rfl rfl
  | executed k i rule _ => exact ⟨fun e he => (mem_execute_faults s k (shape i) rule e).mpr (.inl he), rfl⟩
  | host hh => exact hh.keepsFaults

theorem failed_iff (s : State) : s.failed = true ↔ ∃ e, e ∈ s.faults ∨ e ∈ s.earlierFaults := by
  simp [State.failed, exists_or, List.eq_nil_iff_forall_not_mem]

/-- A step keeps every entry of the run in one of the two records. -/
theorem step_keeps_entries {s t : State} (h : step s = .next t) {e : FaultEntry}
    (he : e ∈ s.faults ∨ e ∈ s.earlierFaults) : e ∈ t.faults ∨ e ∈ t.earlierFaults := by
  obtain ⟨inputs, turns, heff⟩ | ⟨-, -, inputs, turns, rfl⟩ := step_effect h
  · obtain ⟨hfaults, hearlier⟩ := heff.keepsFaults
    rw [hearlier]
    exact he.imp_left (hfaults e)
  · exact .inr ((mem_keepFaults s.earlierFaults s.faults e).mpr he.symm)

/-- Settles O16: the effects of core and host keep FAULT's entries in FAULT; the reset input moves them to the record of
earlier ones. -/
theorem faultRecordIsKept : Obligations.FaultRecordIsKept := by
  intro s t hstep
  refine ⟨fun e => step_keeps_entries hstep, fun hfailed => ?_, fun hreset => ?_⟩
  · obtain ⟨e, he⟩ := (failed_iff s).mp hfailed
    exact (failed_iff t).mpr ⟨e, step_keeps_entries hstep he⟩
  · obtain ⟨inputs, turns, heff⟩ | ⟨hwho, hhead, -⟩ := step_effect hstep
    · exact heff.keepsFaults
    · exact absurd ⟨hwho, hhead⟩ hreset

end Sys2Proof.Machine
end

section
/-! PROOFS. Scope: the core's step as the latched command's meaning, and what every command leaves unchanged (spec
10_state.md R41, R52; 20_memory.md R72, R74; 60_exceptions.md R262 to R264). -/

namespace Sys2Proof.Machine

open Sys2Proof.Claims

/-! ### Reading command words -/

/-- A command uses no field but those of its opcode. -/
theorem unusedZero_fields (i : Instr) : i.fields.unusedZero i.opcode = true := by cases i <;> rfl

theorem opc_fields (i : Instr) : i.fields.opc = i.opcode.code := by cases i <;> rfl

theorem build_fields (i : Instr) : i.opcode.build i.fields = i := by cases i <;> rfl

/-- A command's word reads as the command (R107). -/
theorem decode_encode (i : Instr) : decode (encode i) = .ok i := by
  simp [decode, encode, ofWord_toWord, opc_fields, reservedZero_toWord, unusedZero_fields, build_fields]

/-- A word that reads as no command does so for one of two reasons (R262). -/
theorem decode_error {w : CmdWord} {e : CmdError} (h : decode w = .error e) :
    e = .illegalOpcode ∨ e = .reservedField := by
  rw [decode] at h
  split at h
  · cases h; exact .inl rfl
  · split at h
    · cases h
    · cases h; exact .inr rfl

/-- Validate of a command's own word is the check of its operands. -/
theorem validate_encode (c : Config) (i : Instr) : validate c (encode i) = (shape i).check c.rows := by
  rw [validate, decode_encode]

/-! ### The core's step -/

theorem coreStep_of_ok {s : State} {k : Latch} {i : Instr} (hk : s.latch = some k) (hd : decode k.cmd = .ok i) :
    coreStep s = exec i s := by
  rw [coreStep, hk]
  simp only [hd]

theorem coreStep_of_error {s : State} {k : Latch} {e : CmdError} (hk : s.latch = some k)
    (hd : decode k.cmd = .error e) : coreStep s = .next (s.complete (some e)) := by
  rw [coreStep, hk]
  simp only [hd]

/-- With BUSY = 1 and no input waiting or no turn of the host's, the step is the core's, and it strikes off a turn where an
input waits (assumption log 3). -/
theorem step_core_of_turn {s : State} (hb : s.busy = true) (hturn : s.inputs = [] ∨ s.turns.head? ≠ some .host) :
    step s = coreStep { s with turns := if s.inputs = [] then s.turns else s.turns.tail } := by
  have hhead : s.inputs = [] ∨ s.turns.headD .core = .core := hturn.imp_right fun h => by
    cases ht : s.turns with
    | nil => rfl
    | cons a ts => cases a <;> simp [ht] at h ⊢
  have hstruck : s.takeTurn = { s with turns := if s.inputs = [] then s.turns else s.turns.tail } := by
    rw [takeTurn_eq]
    cases s.inputs <;> simp [hb]
  rw [step, (whoMoves_core_iff s).mpr ⟨hb, hhead⟩, ← hstruck]

/-- Settles O8: the core moves, and the latched word reads as the command. -/
theorem stepRunsDecodedCommand : Obligations.StepRunsDecodedCommand := by
  intro s k i hb hk hd hturn
  rw [step_core_of_turn hb hturn]
  exact coreStep_of_ok hk hd

/-- Settles O9: the core moves, and completes with the error that names why the word reads as no command. -/
theorem stepRefusesUnreadableWord : Obligations.StepRefusesUnreadableWord := by
  intro s k e hb hk hd hturn
  rw [step_core_of_turn hb hturn, coreStep_of_error (hd := hd)]
  · obtain rfl | rfl := decode_error hd <;> rfl
  · exact hk

/-! ### The frame of a command -/

/-- FAULT after a command: what it held, and entries of the latched word in active lanes (R264). -/
theorem runCommand_faults {sh : Shape} {rule : List (List Word) → LaneResult} {s t : State} {k : Latch}
    (hk : s.latch = some k) (h : runCommand sh rule s = .next t) :
    (∀ e ∈ s.faults, e ∈ t.faults) ∧
      ∀ e ∈ t.faults, e ∈ s.faults ∨ ∃ u l, Active s k l ∧ e = .command u k.cmd l := by
  cases hc : sh.check s.cfg.rows with
  | some e =>
    rw [runCommand_of_error rule hk hc] at h
    cases h
    exact ⟨fun _ => id, fun _ => .inl⟩
  | none =>
    rw [runCommand_of_ok rule hk hc] at h
    cases h
    refine ⟨fun e he => (mem_execute_faults s k sh rule e).mpr (.inl he), fun e he => ?_⟩
    obtain hold | ⟨l, hl, hbit, u, -, rfl⟩ := (mem_execute_faults s k sh rule e).mp he
    · exact .inl hold
    · exact .inr ⟨u, l, ⟨hl, hbit⟩, rfl⟩

/-- A command keeps the bytes outside its destination's words in the active lanes (R72, R74). -/
theorem getByte_runCommand_other {sh : Shape} {rule : List (List Word) → LaneResult} {s t : State} {k : Latch}
    (hk : s.latch = some k) (h : runCommand sh rule s = .next t) {a : Nat}
    (ha : ∀ l j, Active s k l → j < sh.dst.len →
      a < dmOffset s.cfg (sh.dst.row + j) l ∨ dmOffset s.cfg (sh.dst.row + j) l + 8 ≤ a) :
    t.dm.getByte a = s.dm.getByte a := by
  cases hc : sh.check s.cfg.rows with
  | some e =>
    rw [runCommand_of_error rule hk hc] at h
    cases h
    rfl
  | none =>
    rw [runCommand_of_ok rule hk hc] at h
    cases h
    exact getByte_writeRegion_other fun j hj l hl hbit => ha l j ⟨hl, hbit⟩ hj

/-- Settles O17: the frame of the operation that all commands share. -/
theorem commandFrame : Obligations.CommandFrame := by
  intro i s t k hk h
  obtain ⟨rule, hrule⟩ := exec_eq_runCommand i
  rw [hrule] at h
  obtain ⟨hcfg, hie, hovr, hmask, hlo, hhi, hearlier, hinputs, hturns, hreplies, hlatch, hbusy, hdone⟩ :=
    runCommand_frame h
  obtain ⟨hkept, hnew⟩ := runCommand_faults hk h
  exact ⟨hcfg, hie, hovr, hmask, hlo, hhi, hearlier, hinputs, hturns, hreplies, hlatch, hbusy, hdone, hkept, hnew,
    fun _ ha => getByte_runCommand_other hk h ha⟩

/-! ### No active lane -/

theorem activeLanes_eq_nil {s : State} {k : Latch} (h : ∀ l, ¬ Active s k l) : activeLanes s.cfg k.mask = [] :=
  List.eq_nil_iff_forall_not_mem.mpr fun l hl => h l (mem_activeLanes.mp hl)

theorem regionWrites_eq_nil {c : Config} {mask : LaneMask} (g : Region) (f : Nat → Nat → Option Word)
    (h : activeLanes c mask = []) : regionWrites c mask g f = [] :=
  List.flatMap_eq_nil_iff.mpr fun i _ => by rw [h, List.map_nil]

/-- With no active lane Execute writes nothing and records nothing. -/
theorem execute_of_no_active {s : State} {k : Latch} (sh : Shape) (rule : List (List Word) → LaneResult)
    (h : ∀ l, ¬ Active s k l) : s.execute k sh rule = s := by
  have hlanes := activeLanes_eq_nil h
  rw [State.execute, regionWrites_eq_nil _ _ hlanes, hlanes]
  rfl

/-- Settles O21: the command passes Validate, so it is executed, and Execute does nothing. -/
theorem noActiveLaneTouchesNothing : Obligations.NoActiveLaneTouchesNothing := by
  intro i s k hk hnone hvalid
  obtain ⟨rule, hrule⟩ := exec_eq_runCommand i
  rw [validate_encode] at hvalid
  rw [hrule, runCommand_of_ok rule hk hvalid, execute_of_no_active _ _ hnone, State.complete]

end Sys2Proof.Machine
end

section
/-! PROOFS. Scope: the registers at the host's port, and the offsets that are reserved (spec 10_state.md R38 to R44, R50,
R51, R53; 20_memory.md R75). -/

namespace Sys2Proof.Machine

open Sys2Proof.Claims

/-! ### Accesses outside the DM window -/

theorem not_inDmWindow {c : Config} {off : Nat} (h : off < 0x100000 ∨ 0x100000 + 8 * c.lanes * c.rows ≤ off) :
    inDmWindow c off = false := by
  rw [Bool.eq_false_iff, ne_eq, inDmWindow_iff]
  omega

theorem writeAt_outside_dm {s : State} {off : Nat} (v : Word) (h8 : off % 8 = 0) (ho : off < 0x500000)
    (h : off < 0x100000 ∨ 0x100000 + 8 * s.cfg.lanes * s.cfg.rows ≤ off) :
    writeAt s off v = .next (s.writeRegister off v) :=
  (hostAccess_inside rfl ho).trans (congrArg _ (accessAt_write h8 (not_inDmWindow h)))

theorem reads_outside_dm {s : State} {off : Nat} (h8 : off % 8 = 0) (ho : off < 0x500000)
    (h : off < 0x100000 ∨ 0x100000 + 8 * s.cfg.lanes * s.cfg.rows ≤ off) : Reads s off (s.readRegister off) :=
  (hostAccess_inside rfl ho).trans (congrArg _ (accessAt_read h8 (not_inDmWindow h)))

/-- A write to an offset of the register page. -/
theorem writeAt_page (s : State) {off : Nat} (v : Word) (ho : off < 0x100000) (h8 : off % 8 = 0) :
    writeAt s off v = .next (s.writeRegister off v) :=
  writeAt_outside_dm v h8 (by omega) (.inl ho)

/-- A read of an offset of the register page. -/
theorem reads_page (s : State) {off : Nat} (ho : off < 0x100000) (h8 : off % 8 = 0) :
    Reads s off (s.readRegister off) :=
  reads_outside_dm h8 (by omega) (.inl ho)

/-! ### Reserved offsets -/

theorem readRegister_reserved (s : State) {off : Nat} (h : off ∉ [0x000, 0x008, 0x010, 0x018, 0x020, 0x028]) :
    s.readRegister off = 0#64 := by
  unfold State.readRegister
  split
  case h_7 => rfl
  all_goals exact absurd (by decide) h

theorem writeRegister_reserved (s : State) {off : Nat} (v : Word)
    (h : off ∉ [0x000, 0x008, 0x010, 0x018, 0x020, 0x028]) : s.writeRegister off v = s := by
  unfold State.writeRegister
  split
  case h_6 => rfl
  all_goals exact absurd (by decide) h

/-- Settles O52: such an offset lies outside the DM window and names no register. -/
theorem reservedOffsetsReadZero : Obligations.ReservedOffsetsReadZero := by
  intro s off v h8 ho hreg hdm
  have hread := reads_outside_dm (s := s) h8 ho hdm
  rw [readRegister_reserved s hreg] at hread
  exact ⟨hread, by rw [writeAt_outside_dm v h8 ho hdm, writeRegister_reserved s v hreg]⟩

/-! ### CTRL and STATUS -/

theorem writeCtrl_softReset (s : State) {v : Word} (h2 : v.getLsbD 2 = true) : s.writeCtrl v = s.softReset := by
  rw [State.writeCtrl, if_pos h2]

theorem writeCtrl_ie (s : State) {v : Word} (h2 : v.getLsbD 2 = false) (h0 : v.getLsbD 0 = false) :
    s.writeCtrl v = { s with ie := v.getLsbD 1 } := by
  rw [State.writeCtrl, if_neg (ne_true_of_eq_false h2), if_neg (ne_true_of_eq_false h0)]

theorem writeCtrl_go (s : State) {v : Word} (h2 : v.getLsbD 2 = false) (h0 : v.getLsbD 0 = true) :
    s.writeCtrl v = State.go { s with ie := v.getLsbD 1 } := by
  rw [State.writeCtrl, if_neg (ne_true_of_eq_false h2), if_pos h0]

theorem writeAt_ctrl (s : State) (v : Word) : writeAt s 0x008 v = .next (s.writeCtrl v) :=
  writeAt_page s v (by decide) (by decide)

/-- Settles O45: the branches of a write to CTRL. -/
theorem ctrlWriteEffect : Obligations.CtrlWriteEffect := by
  intro s v
  rw [writeAt_ctrl]
  refine ⟨fun h2 => ?_, fun h2 h0 => ?_, fun h2 h0 hb => ?_, fun h2 h0 hb => ?_⟩
  · rw [writeCtrl_softReset s h2]
  · rw [writeCtrl_ie s h2 h0]
  · rw [writeCtrl_go s h2 h0, go_of_busy]
    exact hb
  · rw [writeCtrl_go s h2 h0, go_of_idle]
    exact hb

/-- Settles O46: a bit of the written value clears its status bit. -/
theorem statusWriteClears : Obligations.StatusWriteClears := by
  intro s v
  have hclear : ∀ b c : Bool, (b && !c) = if c then false else b := by decide
  rw [writeAt_page s v (by decide) (by decide), State.writeRegister, State.writeStatus, hclear, hclear, hclear]

/-! ### LANEMASK, CMD_LO and CMD_HI -/

/-- While BUSY = 1 a write to one of the three is lost with OVR (R43). -/
theorem writeRegister_busy {s : State} {off : Nat} (v : Word) (hb : s.busy = true)
    (hoff : off ∈ [0x018, 0x020, 0x028]) : s.writeRegister off v = { s with ovr := true } := by
  simp only [List.mem_cons, List.not_mem_nil, or_false] at hoff
  obtain rfl | rfl | rfl := hoff
  · rw [State.writeRegister, State.writeLaneMask, if_pos hb]
  · rw [State.writeRegister, State.writeCmdLo, if_pos hb]
  · rw [State.writeRegister, State.writeCmdHi, if_pos hb]

/-- Settles O47: the three registers check BUSY before they take a write, and no read does. -/
theorem busyIgnoresRegisterWrites : Obligations.BusyIgnoresRegisterWrites := by
  have hpage : ∀ off ∈ [0x000, 0x008, 0x010, 0x018, 0x020, 0x028], off < 0x100000 ∧ off % 8 = 0 := by decide
  refine ⟨fun s v off hb hoff => ?_, fun s off hoff => ?_⟩
  · obtain ⟨ho, h8⟩ := hpage off (List.mem_of_mem_drop (i := 3) hoff)
    rw [writeAt_page s v ho h8, writeRegister_busy v hb hoff]
  · obtain ⟨ho, h8⟩ := hpage off hoff
    exact ⟨_, reads_page s ho h8⟩

/-- Settles O50: the write is masked with LANEMASK's reset value. -/
theorem laneMaskKeepsItsBits : Obligations.LaneMaskKeepsItsBits := by
  intro s v hb
  refine ⟨{ s with laneMask := v.setWidth 8 &&& allLanes s.cfg }, ?_, rfl, and_allLanes_toNat s.cfg v⟩
  rw [writeAt_page s v (by decide) (by decide), State.writeRegister, State.writeLaneMask,
    if_neg (ne_true_of_eq_false hb)]

/-- Settles O51: an idle block takes the whole word, and a read returns the register. -/
theorem cmdReadsBackAsWritten : Obligations.CmdReadsBackAsWritten := by
  refine ⟨fun s v hb => ⟨⟨{ s with cmdLo := v }, ?_, rfl, ?_⟩, ⟨{ s with cmdHi := v }, ?_, rfl, ?_⟩⟩,
    fun c => ⟨rfl, rfl⟩⟩
  · rw [writeAt_page s v (by decide) (by decide), State.writeRegister, State.writeCmdLo,
      if_neg (ne_true_of_eq_false hb)]
  · exact reads_page { s with cmdLo := v } (by decide) (by decide)
  · rw [writeAt_page s v (by decide) (by decide), State.writeRegister, State.writeCmdHi,
      if_neg (ne_true_of_eq_false hb)]
  · exact reads_page { s with cmdHi := v } (by decide) (by decide)

/-! ### The values of reads -/

theorem bit_toNat (b : Bool) : (bit b).toNat = b.toNat := by cases b <;> rfl

/-- A field set above all bits of the rest adds its value at its position. -/
theorem or_shiftLeft_toNat {x y : Word} {n : Nat} (hx : x.toNat < 2 ^ n) (hy : y.toNat * 2 ^ n < 2 ^ 64) :
    (x ||| y <<< n).toNat = x.toNat + y.toNat * 2 ^ n := by
  rw [BitVec.toNat_or, BitVec.toNat_shiftLeft, Nat.shiftLeft_eq, Nat.mod_eq_of_lt hy, Nat.or_comm,
    ← Nat.shiftLeft_eq, ← Nat.shiftLeft_add_eq_or_of_lt hx, Nat.add_comm]

/-- STATUS as the sum of its fields (R40). -/
theorem statusWord_toNat (s : State) : (statusWord s).toNat =
    s.busy.toNat + 2 * s.done.toNat + 4 * s.err.toNat + 8 * s.ovr.toNat + 256 * s.errCode.toNat := by
  have hbusy := s.busy.toNat_le
  have hdone := s.done.toNat_le
  have herr := s.err.toNat_le
  have hovr := s.ovr.toNat_le
  have hcode := s.errCode.isLt
  have hwide : (s.errCode.setWidth 64).toNat = s.errCode.toNat := by
    rw [BitVec.toNat_setWidth, Nat.mod_eq_of_lt (by omega)]
  have h1 : (bit s.busy ||| bit s.done <<< 1).toNat = s.busy.toNat + s.done.toNat * 2 ^ 1 := by
    rw [or_shiftLeft_toNat] <;> simp only [bit_toNat] <;> omega
  have h2 : (bit s.busy ||| bit s.done <<< 1 ||| bit s.err <<< 2).toNat =
      s.busy.toNat + s.done.toNat * 2 ^ 1 + s.err.toNat * 2 ^ 2 := by
    rw [or_shiftLeft_toNat] <;> simp only [bit_toNat, h1] <;> omega
  have h3 : (bit s.busy ||| bit s.done <<< 1 ||| bit s.err <<< 2 ||| bit s.ovr <<< 3).toNat =
      s.busy.toNat + s.done.toNat * 2 ^ 1 + s.err.toNat * 2 ^ 2 + s.ovr.toNat * 2 ^ 3 := by
    rw [or_shiftLeft_toNat] <;> simp only [bit_toNat, h2] <;> omega
  rw [statusWord, or_shiftLeft_toNat] <;> simp only [hwide, h3] <;> omega

/-- CTRL reads as IE alone: GO and SRST read as 0 (R39). -/
theorem ctrlWord_toNat (s : State) : (ctrlWord s).toNat = 2 * s.ie.toNat := by
  rw [ctrlWord]
  cases s.ie <;> rfl

/-- ID as the sum of its fields (R38). -/
theorem idWord_toNat (c : Config) :
    (idWord c).toNat = 0x01 + c.lanes * 2 ^ 8 + (c.rows - 1) * 2 ^ 16 + 0x32354D4D * 2 ^ 32 := by
  have hlanes : (BitVec.ofNat 8 c.lanes).toNat = c.lanes := by
    rcases Config.lanes_eq c with h | h <;> rw [h] <;> rfl
  simp only [idWord, toNat_append_eq, hlanes, Config.rows, BitVec.toNat_ofNat]
  omega

/-- Settles O48: ID's word is the sum of its fields, and a write to it has no arm. -/
theorem idReadsConfiguration : Obligations.IdReadsConfiguration := fun s v =>
  ⟨writeAt_page s v (by decide) (by decide), idWord s.cfg, reads_page s (by decide) (by decide), idWord_toNat s.cfg⟩

/-- Settles O49: each register's word is the sum of its fields. -/
theorem registersReadTheirFields : Obligations.RegistersReadTheirFields := fun s =>
  ⟨⟨ctrlWord s, reads_page s (by decide) (by decide), ctrlWord_toNat s⟩,
    ⟨statusWord s, reads_page s (by decide) (by decide), statusWord_toNat s⟩,
    ⟨s.laneMask.setWidth 64, reads_page s (by decide) (by decide), BitVec.toNat_setWidth_of_le (by decide)⟩,
    reads_page s (by decide) (by decide), reads_page s (by decide) (by decide)⟩

/-! ### The state after a power-on reset -/

/-- Settles O14: the registers by definition; an empty DM has no word; CTRL and ID read as at any other time. -/
theorem resetValues : Obligations.ResetValues := fun c =>
  ⟨fun _ _ => rfl, rfl, reads_page _ (by decide) (by decide), rfl, rfl, rfl, rfl, rfl, allLanes_toNat c, rfl, rfl,
    rfl, rfl, rfl, rfl, idWord c, reads_page _ (by decide) (by decide), idWord_toNat c⟩

end Sys2Proof.Machine
end

section
/-! PROOFS. Scope: what stops the machine (spec 10_state.md R50, R52; 20_memory.md R75; 60_exceptions.md R272). -/

namespace Sys2Proof.Machine

/-- With LATCH full the core's step answers a next state, whatever word is latched (R52). -/
theorem coreStep_next_of_latch {s : State} (h : s.latch.isSome = true) : ∃ t, coreStep s = .next t := by
  obtain ⟨hnone, -⟩ | ⟨_, e, -, -, h'⟩ | ⟨k, i, rule, -, -, -, -, h'⟩ := coreStep_cases s
  · rw [hnone] at h
    cases h
  · exact ⟨_, h'⟩
  · exact ⟨_, h'⟩

/-- A host access is the block's, or it lies outside the window and stops the machine (R75). -/
theorem hostAccess_next_or_outside (s : State) (a : Access) :
    (∃ t, s.hostAccess a = .next t) ∨
    (s.hostAccess a = .fault .outsideWindow ∧ (a.addr < s.cfg.pBase ∨ s.cfg.pBase + 0x500000 ≤ a.addr)) := by
  by_cases h : a.addr < s.cfg.pBase ∨ s.cfg.pBase + 0x500000 ≤ a.addr
  · exact .inr ⟨hostAccess_outside h, h⟩
  · exact .inl ⟨_, hostAccess_inside (off := a.addr - s.cfg.pBase) (by omega) (by rw [windowBytes]; omega)⟩

/-- Settles O15: the invariant fills LATCH while BUSY = 1, so the core's step never stops; of the host's inputs only an
access outside the window does. -/
theorem stepStopsOnlyOutsideWindow : Obligations.StepStopsOnlyOutsideWindow := by
  intro s hinv
  obtain ⟨-, hstep⟩ | ⟨hwho, hstep⟩ | ⟨hwho, hstep⟩ := step_cases s
  all_goals rw [hstep]
  · exact .inl ⟨s, rfl⟩
  · obtain ⟨hb, -⟩ := (whoMoves_core_iff s).mp hwho
    exact .inl (coreStep_next_of_latch (by rw [takeTurn_latch, ← hinv.latched, hb]))
  · obtain ⟨hne, -⟩ := (whoMoves_host_iff s).mp hwho
    obtain ⟨x, rest, hx⟩ := List.exists_cons_of_ne_nil hne
    obtain ⟨a, rfl, hhost⟩ | ⟨-, hhost⟩ := hostStep_cases (s := s.takeTurn) (by rw [takeTurn_inputs, hx])
    all_goals rw [hhost]
    · obtain hnext | ⟨hfault, hout⟩ := hostAccess_next_or_outside { s.takeTurn with inputs := rest } a
      · exact .inl hnext
      · exact .inr ⟨hfault, hwho, a, rest, hx, by simpa using hout⟩
    · exact .inl ⟨_, rfl⟩

end Sys2Proof.Machine
end

section
/-! PROOFS. Scope: what a command does in one of its active lanes (spec 10_state.md R52; 20_memory.md R71, R74;
42_montgomery.md R190; 60_exceptions.md R264). -/

namespace Sys2Proof.Machine

open Sys2Proof.Claims

/-! ### One active lane -/

/-- The entries of an active lane after Execute: those it had, and the UB fault of its result (R264). -/
theorem command_mem_execute_faults {s : State} {k : Latch} {l : Nat} (hl : Active s k l) (sh : Shape)
    (rule : List (List Word) → LaneResult) (u : UBReason) :
    .command u k.cmd l ∈ (s.execute k sh rule).faults ↔
      .command u k.cmd l ∈ s.faults ∨ laneResult s sh rule l = .error u := by
  rw [mem_execute_faults]
  refine or_congr_right ⟨?_, fun hu => ⟨l, hl.1, hl.2, u, hu, rfl⟩⟩
  rintro ⟨l', -, -, u', hu, he⟩
  cases he
  exact hu

/-- An executed command ends in normal completion (R52). -/
theorem completed_execute (s : State) (k : Latch) (sh : Shape) (rule : List (List Word) → LaneResult) :
    Completed s ((s.execute k sh rule).complete none) := ⟨rfl, rfl, rfl, rfl, rfl, rfl, rfl, rfl, rfl, rfl⟩

/-- A command that passes Validate is executed, by its instruction rule. -/
theorem exec_of_valid {i : Instr} {s : State} {k : Latch} (hk : s.latch = some k)
    (hvalid : validate s.cfg (encode i) = none) :
    ∃ rule, exec i s = .next ((s.execute k (shape i) rule).complete none) := by
  obtain ⟨rule, hrule⟩ := exec_eq_runCommand i
  rw [validate_encode] at hvalid
  exact ⟨rule, by rw [hrule, runCommand_of_ok rule hk hvalid]⟩

/-! ### Unwritten sources -/

/-- A `⊥` word in a source region is a lane's result, before its instruction rule (R71). -/
theorem laneResult_of_unwritten {s : State} {sh : Shape} {g : Region} {l j : Nat}
    (rule : List (List Word) → LaneResult) (hg : g ∈ sh.srcs) (hj : j < g.len) (h : s.word (g.row + j) l = none) :
    laneResult s sh rule l = .error .uninit :=
  laneResult_of_bot rule <| (sourceWords_eq_none_iff s l sh.srcs).mpr
    ⟨g, hg, (regionWords_eq_none_iff s l g.len g.row).mpr ⟨j, hj, h⟩⟩

/-- Settles O19: the lane's result is UB_UNINIT, which FAULT records alone and which gives the destination no value. -/
theorem unwrittenSourceFaults : Obligations.UnwrittenSourceFaults := by
  intro i s k l j g ⟨hk, hm⟩ hvalid hl hg hj hbot
  obtain ⟨rule, hexec⟩ := exec_of_valid hk hvalid
  have hres := laneResult_of_unwritten rule hg hj hbot
  have hfaults := command_mem_execute_faults hl (shape i) rule
  refine ⟨_, hexec, completed_execute s k (shape i) rule, (hfaults _).mpr (.inr hres), fun u hu he => ?_,
    fun n hn => ?_⟩
  · refine ((hfaults u).mp he).resolve_right fun hother => hu ?_
    rw [hres] at hother
    cases hother
    rfl
  · exact (word_execute hm hn hl.1 hl.2).trans (by rw [hres, resultWord])

/-! ### Two lanes with the same words -/

section TwoLanes

variable {s₁ s₂ : State} {l₁ l₂ : Nat} (hwords : ∀ r, r < s₁.cfg.rows → s₁.word r l₁ = s₂.word r l₂)
include hwords

/-- A lane's result depends on the words of its source regions alone. -/
theorem laneResult_congr {sh : Shape} (rule : List (List Word) → LaneResult) (hcheck : sh.check s₁.cfg.rows = none) :
    laneResult s₁ sh rule l₁ = laneResult s₂ sh rule l₂ := by
  obtain ⟨-, -, hsrcs⟩ := (check_eq_none_iff sh _).mp hcheck
  rw [laneResult, laneResult, sourceWords_congr sh.srcs fun g hg i hi => hwords _ (by have := hsrcs g hg; omega)]

/-- After Execute the two lanes hold the same words again: their results in the destination, what they held elsewhere. -/
theorem word_execute_congr {k₁ k₂ : Latch} {sh : Shape} {rule : List (List Word) → LaneResult}
    (hm₁ : s₁.dm.wf = true) (hm₂ : s₂.dm.wf = true) (hl₁ : Active s₁ k₁ l₁) (hl₂ : Active s₂ k₂ l₂)
    (hcheck : sh.check s₁.cfg.rows = none) {r : Nat} (hr : r < s₁.cfg.rows) :
    (s₁.execute k₁ sh rule).word r l₁ = (s₂.execute k₂ sh rule).word r l₂ := by
  by_cases hdst : sh.dst.row ≤ r ∧ r < sh.dst.row + sh.dst.len
  · obtain ⟨i, rfl⟩ := Nat.exists_eq_add_of_le hdst.1
    rw [word_execute hm₁ (by omega) hl₁.1 hl₁.2, word_execute hm₂ (by omega) hl₂.1 hl₂.2,
      laneResult_congr hwords rule hcheck]
  · rw [word_execute_other hl₁.1 (by omega), word_execute_other hl₂.1 (by omega), hwords r hr]

end TwoLanes

/-- Settles O20: the two commands end in one command error, or the two lanes have one result. -/
theorem lanesAreIndependent : Obligations.LanesAreIndependent := by
  intro i s₁ s₂ t₁ t₂ k₁ k₂ l₁ l₂ hcfg ⟨hk₁, hm₁⟩ ⟨hk₂, hm₂⟩ hl₁ hl₂ hwords h₁ h₂
  obtain ⟨rule, hrule⟩ := exec_eq_runCommand i
  rw [hrule] at h₁ h₂
  cases hcheck : (shape i).check s₁.cfg.rows with
  | some e =>
    rw [runCommand_of_error rule hk₁ hcheck] at h₁
    rw [runCommand_of_error rule hk₂ (hcfg ▸ hcheck)] at h₂
    cases h₁
    cases h₂
    exact ⟨hwords, fun _ => .inl⟩
  | none =>
    rw [runCommand_of_ok rule hk₁ hcheck] at h₁
    rw [runCommand_of_ok rule hk₂ (hcfg ▸ hcheck)] at h₂
    cases h₁
    cases h₂
    have hres := laneResult_congr hwords rule hcheck
    refine ⟨fun r hr => word_execute_congr hwords hm₁ hm₂ hl₁ hl₂ hcheck hr, fun u hu => ?_⟩
    exact ((command_mem_execute_faults hl₁ (shape i) rule u).mp hu).imp_right fun hu₁ =>
      (command_mem_execute_faults hl₂ (shape i) rule u).mpr (.inr (hres.symm.trans hu₁))

end Sys2Proof.Machine
end

section
/-! PROOFS. Scope: the host's accesses as host faults and as accesses to DM words, and what a second access finds (spec
20_memory.md R75 to R81; 60_exceptions.md R266). -/

namespace Sys2Proof.Machine

open Sys2Proof.Claims

/-! ### Host faults -/

/-- A host fault adds its entry to FAULT, gives a read no value and changes nothing else (R266). -/
theorem hostFaultOnly_hostFault (s : State) (r : HostReason) (a : Access) : HostFaultOnly s (s.hostFault r a) r a := by
  refine ⟨fun _ => mem_hostFault, ?_⟩
  rw [State.hostFault]
  cases a.kind <;> rfl

/-- A faulting write adds nothing the second time. -/
theorem hostFault_hostFault_of_write (s : State) (r : HostReason) {a : Access} {v : Word} (hk : a.kind = .write v) :
    (s.hostFault r a).hostFault r a = s.hostFault r a := by
  simp only [State.hostFault, hk, hostFault_idem]

/-- Settles O53: the form of an access is judged before anything else. -/
theorem malformedAccessFaults : Obligations.MalformedAccessFaults := by
  intro s a off ha ho hform
  exact ⟨_, by rw [hostAccess_inside ha ho, accessAt_malformed hform], hostFaultOnly_hostFault s .access a⟩

/-! ### Accesses to DM words -/

/-- An aligned 64-bit access at the address of a DM word is an access to the word (R75). -/
theorem hostAccess_word {s : State} {a : Access} {r l : Nat} (hr : r < s.cfg.rows) (hl : l < s.cfg.lanes)
    (ha : a.addr = s.cfg.pBase + dmOffset s.cfg r l) (h8 : a.size = 8) :
    s.hostAccess a = .next (s.dmAccess a (dmOffset s.cfg r l)) := by
  have hend := dmOffset_in_window hr hl
  have hle := dmWindow_le s.cfg
  rw [hostAccess_inside ha (by omega), accessAt_dm h8 (dmOffset_mod _ _ _) (inDmWindow_dmOffset hr hl)]

theorem dmAccess_busy {s : State} (a : Access) (off : Nat) (hb : s.busy = true) :
    s.dmAccess a off = s.hostFault .race a := by
  rw [State.dmAccess, if_pos hb]

theorem dmAccess_write {s : State} {a : Access} {v : Word} (off : Nat) (hb : s.busy = false) (hk : a.kind = .write v) :
    s.dmAccess a off = { s with dm := s.dm.writeWord off (some v) } := by
  simp only [State.dmAccess, hb, hk, Bool.false_eq_true, if_false]

theorem dmAccess_read {s : State} {a : Access} {off : Nat} {x : Word} (hb : s.busy = false) (hk : a.kind = .read)
    (hx : s.dm.readWord off = some x) : s.dmAccess a off = s.reply x := by
  simp only [State.dmAccess, hb, hk, hx, Bool.false_eq_true, if_false]

theorem dmAccess_read_unwritten {s : State} {a : Access} {off : Nat} (hb : s.busy = false) (hk : a.kind = .read)
    (hx : s.dm.readWord off = none) : s.dmAccess a off = s.hostFault .uninit a := by
  simp only [State.dmAccess, hb, hk, hx, Bool.false_eq_true, if_false]

/-- Settles O54: BUSY is judged before what a well-formed access to a DM word asks for. -/
theorem busyWindowAccessFaults : Obligations.BusyWindowAccessFaults := by
  intro s a r l hb hr hl ha h8
  exact ⟨_, by rw [hostAccess_word hr hl ha h8, dmAccess_busy a _ hb], hostFaultOnly_hostFault s .race a⟩

/-- Settles O55: an access of the idle block to a DM word writes the word, returns it, or finds it unwritten. -/
theorem hostReadsAndWritesWords : Obligations.HostReadsAndWritesWords := by
  intro s r l v hb hm hr hl off
  refine ⟨⟨{ s with dm := s.dm.writeWord off (some v) }, ?_, rfl, ?_, fun b hbyte => ?_⟩, fun x hx => ?_,
    fun hx => ?_⟩
  · exact (hostAccess_word hr hl rfl rfl).trans (congrArg _ (dmAccess_write _ hb rfl))
  · exact readWord_writeWord_same off (some v) hm
  · exact getByte_writeWord_other s.dm (some v) hbyte
  · exact (hostAccess_word hr hl rfl rfl).trans (congrArg _ (dmAccess_read hb rfl hx))
  · exact ⟨_, (hostAccess_word hr hl rfl rfl).trans (congrArg _ (dmAccess_read_unwritten hb rfl hx)),
      hostFaultOnly_hostFault s .uninit _⟩

/-! ### An access made again -/

/-- An access that is answered with a next state falls in the window. -/
theorem hostAccess_next {s t : State} {a : Access} (h : s.hostAccess a = .next t) :
    ∃ off, a.addr = s.cfg.pBase + off ∧ off < windowBytes ∧ t = s.accessAt a off := by
  rw [State.hostAccess] at h
  split at h
  · cases h
    exact ⟨a.addr - s.cfg.pBase, by omega, by omega, rfl⟩
  · cases h

/-- The read `a` of an offset of the window answers `x` (`none`: a host fault), whatever FAULT holds and whatever the host
has read before, and changes nothing else than these two. -/
def ReadAnswers (s : State) (a : Access) (off : Nat) (x : Option Word) : Prop :=
  ∀ faults replies, ∃ faults', State.accessAt { s with faults, replies } a off =
    { s with faults := faults', replies := replies ++ [x] }

/-- A read that returns a value, whatever the two records hold. -/
theorem readAnswers_value {s : State} {a : Access} {off : Nat} {v : Word}
    (h : ∀ faults replies, State.accessAt { s with faults, replies } a off = State.reply { s with faults, replies } v) :
    ReadAnswers s a off (some v) := fun faults replies => ⟨faults, h faults replies⟩

/-- A read that is a host fault, whatever the two records hold. -/
theorem readAnswers_fault {s : State} {a : Access} {off : Nat} (hk : a.kind = .read) {r : HostReason}
    (h : ∀ faults replies,
      State.accessAt { s with faults, replies } a off = State.hostFault { s with faults, replies } r a) :
    ReadAnswers s a off none := fun faults replies =>
  ⟨addFault faults (.host r a), by rw [h, State.hostFault, hk]⟩

/-- Every read has one answer: its form, BUSY, DM and the registers decide it, and not the two records (R76, R79, R80). -/
theorem exists_readAnswers (s : State) {a : Access} (off : Nat) (hk : a.kind = .read) : ∃ x, ReadAnswers s a off x := by
  by_cases hform : a.size ≠ 8 ∨ off % 8 ≠ 0
  · exact ⟨_, readAnswers_fault hk fun _ _ => accessAt_malformed hform⟩
  · obtain ⟨h8, ho⟩ : a.size = 8 ∧ off % 8 = 0 := by omega
    obtain hd | hd := Bool.eq_false_or_eq_true (inDmWindow s.cfg off)
    · have hword (faults replies) := accessAt_dm (s := { s with faults, replies }) h8 ho hd
      obtain hb | hb := Bool.eq_false_or_eq_true s.busy
      · exact ⟨_, readAnswers_fault hk fun _ _ => (hword _ _).trans (dmAccess_busy a off hb)⟩
      · cases hx : s.dm.readWord off with
        | some x => exact ⟨_, readAnswers_value fun _ _ => (hword _ _).trans (dmAccess_read hb hk hx)⟩
        | none => exact ⟨_, readAnswers_fault hk fun _ _ => (hword _ _).trans (dmAccess_read_unwritten hb hk hx)⟩
    · obtain ⟨addr, size, kind⟩ := a
      subst hk h8
      exact ⟨some (s.readRegister off), readAnswers_value fun _ _ => accessAt_read ho hd⟩

/-- A read changes FAULT and what the host has read alone, and made again it returns the same (R81). -/
theorem hostAccess_read_again {s t : State} {a : Access} (hk : a.kind = .read) (h : s.hostAccess a = .next t) :
    t = { s with faults := t.faults, replies := t.replies } ∧
      ∀ t', t.hostAccess a = .next t' → t'.replies.getLast? = t.replies.getLast? := by
  obtain ⟨off, ha, ho, rfl⟩ := hostAccess_next h
  obtain ⟨x, hx⟩ := exists_readAnswers s off hk
  obtain ⟨faults, h₁⟩ := hx s.faults s.replies
  obtain ⟨faults', h₂⟩ := hx faults (s.replies ++ [x])
  rw [h₁]
  refine ⟨rfl, fun t' h' => ?_⟩
  rw [hostAccess_inside (s := { s with faults, replies := s.replies ++ [x] }) ha ho, h₂] at h'
  cases h'
  simp

/-- Two memories in canonical form with the same bytes are the same. -/
theorem memory_ext {m m' : Memory} (hm : m.wf = true) (hm' : m'.wf = true)
    (h : ∀ a, m.getByte a = m'.getByte a) : m = m' := by
  have hmem : ∀ {n : Memory}, n.wf = true → ∀ p, p ∈ n ↔ n.getByte p.1 = some p.2 := fun hn _ =>
    ⟨getByte_of_mem hn, mem_of_getByte⟩
  have : Std.Irrefl fun p q : Host.Cell => p.1 < q.1 := ⟨fun _ => Nat.lt_irrefl _⟩
  have : Std.Antisymm fun p q : Host.Cell => p.1 < q.1 := ⟨fun _ _ h h' => absurd h (Nat.lt_asymm h')⟩
  refine ((wf_iff_pairwise m).mp hm).eq_of_mem_iff ((wf_iff_pairwise m').mp hm') fun p => ?_
  rw [hmem hm, hmem hm', h]

/-- Each byte of a written word is the value's. -/
theorem getByte_writeWord_same {m : Memory} (a : Nat) (v : Option Word) (hm : m.wf = true) {k : Nat} (hk : k < 8) :
    (m.writeWord a v).getByte (a + k) = v.map fun x => x.extractLsb' (8 * k) 8 := by
  rw [writeWord_eq_writeAll]
  exact getByte_writeAll_mem (w := (a, v)) (by simp [WordsRising]) hm (by simp) hk

/-- A word written twice alike is written once. -/
theorem writeWord_writeWord {m : Memory} (a : Nat) (v : Option Word) (hm : m.wf = true) :
    (m.writeWord a v).writeWord a v = m.writeWord a v := by
  have hm' := wf_writeWord a v hm
  refine memory_ext (wf_writeWord a v hm') hm' fun b => ?_
  by_cases hb : b < a ∨ a + 8 ≤ b
  · exact getByte_writeWord_other _ v hb
  · obtain ⟨k, rfl⟩ := Nat.exists_eq_add_of_le (show a ≤ b by omega)
    rw [getByte_writeWord_same a v hm' (by omega), getByte_writeWord_same a v hm (by omega)]

/-- A write to a DM word is idempotent, as a host fault too. -/
theorem dmAccess_write_again {s : State} {a : Access} {v : Word} (off : Nat) (hk : a.kind = .write v)
    (hm : s.dm.wf = true) : (s.dmAccess a off).dmAccess a off = s.dmAccess a off := by
  obtain hb | hb := Bool.eq_false_or_eq_true s.busy
  · rw [dmAccess_busy a off hb, dmAccess_busy a off (by rw [hostFault_busy, hb]), hostFault_hostFault_of_write s _ hk]
  · rw [dmAccess_write off hb hk]
    refine (dmAccess_write off (s := { s with dm := s.dm.writeWord off (some v) }) hb hk).trans ?_
    rw [writeWord_writeWord off _ hm]

theorem writeStatus_writeStatus (s : State) (v : Word) : (s.writeStatus v).writeStatus v = s.writeStatus v := by
  simp only [State.writeStatus, Bool.and_assoc, Bool.and_self]
  split <;> rfl

/-- A write `f` that BUSY = 1 makes void with OVR (R43) is idempotent if what it does while BUSY = 0 is. -/
theorem idem_of_busy_guard {f g : State → State} (hf : ∀ s, f s = if s.busy then { s with ovr := true } else g s)
    (hbusy : ∀ s, (g s).busy = s.busy) (hg : ∀ s, g (g s) = g s) (s : State) : f (f s) = f s := by
  obtain hb | hb := Bool.eq_false_or_eq_true s.busy
  · have hfs : f s = { s with ovr := true } := by rw [hf, if_pos hb]
    rw [hfs, hf, if_pos hb]
  · have hfs : f s = g s := by rw [hf, if_neg (ne_true_of_eq_false hb)]
    rw [hfs, hf, hbusy, if_neg (ne_true_of_eq_false hb), hg]

/-- A write to a register other than CTRL is idempotent. -/
theorem writeRegister_writeRegister (s : State) {off : Nat} (v : Word) (h : off ≠ 0x008) :
    (s.writeRegister off v).writeRegister off v = s.writeRegister off v := by
  by_cases hreg : off ∈ [0x000, 0x008, 0x010, 0x018, 0x020, 0x028]
  · simp only [List.mem_cons, List.not_mem_nil, or_false, h, false_or] at hreg
    obtain rfl | rfl | rfl | rfl | rfl := hreg
    · rfl
    · exact writeStatus_writeStatus s v
    · exact idem_of_busy_guard (f := (State.writeLaneMask · v)) (fun _ => rfl) (fun _ => rfl) (fun _ => rfl) s
    · exact idem_of_busy_guard (f := (State.writeCmdLo · v)) (fun _ => rfl) (fun _ => rfl) (fun _ => rfl) s
    · exact idem_of_busy_guard (f := (State.writeCmdHi · v)) (fun _ => rfl) (fun _ => rfl) (fun _ => rfl) s
  · rw [writeRegister_reserved s v hreg, writeRegister_reserved s v hreg]

/-- A write to any offset but CTRL's is idempotent: its fault is recorded once, and its word or register holds the value
already. -/
theorem accessAt_write_again {s : State} {a : Access} {off : Nat} {v : Word} (hk : a.kind = .write v)
    (hm : s.dm.wf = true) (h : off ≠ 0x008) : (s.accessAt a off).accessAt a off = s.accessAt a off := by
  have hcfg : (s.accessAt a off).cfg = s.cfg := (accessAt_effect s a off).cfg
  by_cases hform : a.size ≠ 8 ∨ off % 8 ≠ 0
  · rw [accessAt_malformed hform, accessAt_malformed hform, hostFault_hostFault_of_write s _ hk]
  · obtain ⟨h8, ho⟩ : a.size = 8 ∧ off % 8 = 0 := by omega
    obtain hd | hd := Bool.eq_false_or_eq_true (inDmWindow s.cfg off)
    · rw [accessAt_dm (s := s.accessAt a off) h8 ho (hcfg ▸ hd), accessAt_dm h8 ho hd, dmAccess_write_again off hk hm]
    · obtain ⟨addr, size, kind⟩ := a
      subst hk h8
      rw [accessAt_write (s := s.accessAt _ off) ho (hcfg ▸ hd), accessAt_write ho hd,
        writeRegister_writeRegister s v h]

/-- Settles O56: a read answers the same whatever it recorded, and a write but one to CTRL is idempotent. -/
theorem readsHaveNoSideEffect : Obligations.ReadsHaveNoSideEffect := by
  refine ⟨fun s t a hk h => hostAccess_read_again hk h, fun s t off v hm hctrl h => ?_⟩
  obtain ⟨off', ha, ho, rfl⟩ := hostAccess_next h
  obtain rfl : off = off' := Nat.add_left_cancel ha
  have hcfg := (hostAccess_effect h).cfg
  rw [writeAt, hcfg, hostAccess_inside (by rw [hcfg]) ho, accessAt_write_again rfl hm hctrl]

end Sys2Proof.Machine
end

section
/-! PROOFS. Scope: the decoder and the encoder as inverses, the match and mask of every opcode, and the unassigned opcodes
(spec 30_encoding.md R101, R106 to R109, R112). -/

namespace Sys2Proof.Machine

open Sys2Proof.Claims

/-! ### Fields and commands -/

theorem opcode_build (op : Opcode) (f : Fields) : (op.build f).opcode = op := by cases op <;> rfl

/-- The command built from fields has these fields, if they hold its opcode and 0 in every field it does not use (R106). -/
theorem fields_build {op : Opcode} {f : Fields} (hopc : f.opc = op.code) (hunused : f.unusedZero op = true) :
    (op.build f).fields = f := by
  obtain ⟨opc, sz, sh, lx, lm, rd, ra, rb, rc⟩ := f
  obtain rfl : opc = op.code := hopc
  cases op <;> simp_all [Fields.unusedZero, Opcode.build, Instr.fields]

/-- Fields are those of some command of the opcode exactly when they hold its number and 0 in every field it does not
use. -/
theorem exists_fields_iff (op : Opcode) (f : Fields) :
    (∃ i : Instr, f = i.fields ∧ i.opcode = op) ↔ f.opc = op.code ∧ f.unusedZero op = true := by
  constructor
  · rintro ⟨i, rfl, rfl⟩
    exact ⟨opc_fields i, unusedZero_fields i⟩
  · rintro ⟨hopc, hunused⟩
    exact ⟨op.build f, (fields_build hopc hunused).symm, opcode_build op f⟩

/-! ### Words and fields -/

/-- The word of some fields is the one word that has these fields and 0 in every reserved bit (R101). -/
theorem eq_toWord_iff (w : CmdWord) (f : Fields) : w = f.toWord ↔ reservedZero w = true ∧ Fields.ofWord w = f := by
  constructor
  · rintro rfl
    exact ⟨reservedZero_toWord f, ofWord_toWord f⟩
  · rintro ⟨hw, rfl⟩
    exact (toWord_ofWord hw).symm

/-- Decoding and encoding are inverse to each other (R107). -/
theorem decode_eq_ok_iff (w : CmdWord) (i : Instr) : decode w = .ok i ↔ encode i = w := by
  constructor
  · intro h
    rw [decode] at h
    split at h
    next => cases h
    next op hop =>
      split at h
      next hzero =>
        obtain ⟨hreserved, hunused⟩ := Bool.and_eq_true_iff.mp hzero
        cases h
        rw [encode, fields_build (code_of_ofCode hop).symm hunused, toWord_ofWord hreserved]
      next => cases h
  · rintro rfl
    exact decode_encode i

/-- Settles O1: the fields of a command's word are the command's fields, and they name it. -/
theorem decodeAfterEncode : Obligations.DecodeAfterEncode := decode_encode

/-- Settles O2: the word is that of its own fields, and these are the fields of the command it reads as. -/
theorem oneSpellingPerCommand : Obligations.OneSpellingPerCommand := fun w i => (decode_eq_ok_iff w i).mp

/-- Settles O5: each word is the bit layout of the command's fields. -/
theorem writtenWordsDecode : Obligations.WrittenWordsDecode := by
  refine ⟨?_, ?_, ?_, ?_⟩
  all_goals
    rw [decode_eq_ok_iff]
    rfl

/-! ### Match and mask -/

/-- The fields of two words ANDed with each other, field by field. -/
def fieldsAnd (f g : Fields) : Fields where
  opc := f.opc &&& g.opc
  sz := f.sz &&& g.sz
  sh := f.sh &&& g.sh
  lx := f.lx &&& g.lx
  lm := f.lm &&& g.lm
  rd := f.rd &&& g.rd
  ra := f.ra &&& g.ra
  rb := f.rb &&& g.rb
  rc := f.rc &&& g.rc

theorem ofWord_and (w m : CmdWord) : Fields.ofWord (w &&& m) = fieldsAnd (Fields.ofWord w) (Fields.ofWord m) := by
  simp only [Fields.ofWord, fieldsAnd, BitVec.extractLsb'_and]

/-- Every mask covers the reserved bits. -/
theorem reservedZero_and_mask (w : CmdWord) (op : Opcode) : reservedZero (w &&& mask op) = reservedZero w := by
  have h1 : (mask op).extractLsb' 11 5 = BitVec.allOnes 5 := by cases op <;> rfl
  have h2 : (mask op).extractLsb' 22 10 = BitVec.allOnes 10 := by cases op <;> rfl
  have h3 : (mask op).extractLsb' 48 16 = BitVec.allOnes 16 := by cases op <;> rfl
  simp only [reservedZero, BitVec.extractLsb'_and, h1, h2, h3, BitVec.and_allOnes]

/-- `match` is the opcode with 0 in every other bit. -/
theorem pattern_eq_toWord (op : Opcode) : pattern op = Fields.toWord { opc := op.code } := by cases op <;> rfl

/-- Of a word's fields the mask keeps the opcode and those that the opcode does not use, and `match` asks that the
latter be 0 (R106, R108). -/
theorem fieldsAnd_mask_iff (op : Opcode) (f : Fields) :
    fieldsAnd f (Fields.ofWord (mask op)) = { opc := op.code } ↔ f.opc = op.code ∧ f.unusedZero op = true := by
  -- a field of a mask is all ones, and keeps the word's field, or it is 0
  have hones3 (x : BitVec 3) : x &&& 7#3 = x := BitVec.and_allOnes
  have hones6 (x : BitVec 6) : x &&& 63#6 = x := BitVec.and_allOnes
  have hones8 (x : BitVec 8) : x &&& 255#8 = x := BitVec.and_allOnes
  have hones16 (x : BitVec 16) : x &&& 65535#16 = x := BitVec.and_allOnes
  cases op <;> simp [fieldsAnd, Fields.ofWord, mask, Fields.unusedZero, hones3, hones6, hones8, hones16, and_assoc]

/-- Settles O3: both sides say that the reserved bits are 0, the opcode is the opcode's number, and every field it does not
use is 0. -/
theorem decodeFollowsMatchAndMask : Obligations.DecodeFollowsMatchAndMask := by
  intro w op
  calc (∃ i, decode w = .ok i ∧ i.opcode = op)
    _ ↔ reservedZero w = true ∧ ∃ i : Instr, Fields.ofWord w = i.fields ∧ i.opcode = op := by
      simp only [decode_eq_ok_iff, encode, eq_comm (b := w), eq_toWord_iff, and_assoc, exists_and_left]
    _ ↔ reservedZero (w &&& mask op) = true ∧ Fields.ofWord (w &&& mask op) = { opc := op.code } := by
      rw [exists_fields_iff, ← fieldsAnd_mask_iff, ofWord_and, reservedZero_and_mask]
    _ ↔ w &&& mask op = pattern op := by rw [← eq_toWord_iff, pattern_eq_toWord]

/-! ### Unassigned opcodes -/

/-- The numbers that stand for no opcode (R109). -/
theorem ofCode_eq_none_iff (n : BitVec 8) : Opcode.ofCode n = none ↔
    n.toNat ∈ [0x00, 0x05, 0x06, 0x07, 0x0A, 0x0B, 0x0E, 0x0F, 0x16, 0x17] ∨ 0x1B ≤ n.toNat := by
  revert n; decide

/-- ILLEGAL_OPCODE is the first check: it looks at the opcode alone (R262). -/
theorem decode_eq_illegalOpcode_iff (w : CmdWord) :
    decode w = .error .illegalOpcode ↔ Opcode.ofCode (Fields.ofWord w).opc = none := by
  rw [decode]
  cases Opcode.ofCode (Fields.ofWord w).opc with
  | none => simp
  | some op => simp only [ite_eq_iff, reduceCtorEq, Except.error.injEq, and_false, or_self]

/-- Settles O4: decoding refuses the numbers that stand for no opcode, and the core completes with the error. -/
theorem unassignedOpcodeIsRefused : Obligations.UnassignedOpcodeIsRefused := by
  refine ⟨fun w => ?_, fun s k hk hd => coreStep_of_error hk hd⟩
  have hopc : (Fields.ofWord w).opc.toNat = w.toNat % 256 := by
    simp only [Fields.ofWord, extract_toNat, pow_zero, Nat.div_one, Nat.reducePow]
  rw [decode_eq_illegalOpcode_iff, ofCode_eq_none_iff, hopc]

end Sys2Proof.Machine
end

section
/-! PROOFS. Scope: what a command that passes its checks leaves in one active lane, from its instruction rule (spec
10_state.md R52; 20_memory.md R71, R73; 60_exceptions.md R260, R264), and its word as a number (30_encoding.md R101). -/

namespace Sys2Proof.Machine

open Sys2Proof.Claims

/-! ### Command words and checks -/

/-- A command's word as a number: each field at its bit position (R101). -/
theorem encode_toNat (i : Instr) : (encode i).toNat = i.fields.opc.toNat + i.fields.sz.toNat * 2 ^ 8 +
    i.fields.sh.toNat * 2 ^ 16 + i.fields.lx.toNat * 2 ^ 32 + i.fields.lm.toNat * 2 ^ 40 + i.fields.rd.toNat * 2 ^ 64 +
    i.fields.ra.toNat * 2 ^ 80 + i.fields.rb.toNat * 2 ^ 96 + i.fields.rc.toNat * 2 ^ 112 :=
  toWord_toNat i.fields

theorem lengthError_of_ne {lx : Len} (h : lx ≠ 0#8) : lengthError lx = none := if_neg h

theorem toNat_pos_of_ne {lx : Len} (h : lx ≠ 0#8) : 0 < lx.toNat :=
  Nat.pos_of_ne_zero fun h0 => h (BitVec.eq_of_toNat_eq h0)

theorem check_of_fieldError {sh : Shape} {e : CmdError} (rows : Nat) (h : sh.fieldError = some e) :
    sh.check rows = some e := by
  rw [Shape.check, h]

/-! ### Reading the sources -/

theorem regionWords_of_present {s : State} {r : Row} {l n : Nat} {a : List Word} (hlen : a.length = n)
    (ha : Present s r l a) : s.regionWords l (region r n).row (region r n).len = some a :=
  (regionWords_eq_some_iff s l n r.toNat a).mpr ⟨hlen, hlen ▸ ha⟩

theorem sourceWords_of_forall₂ {s : State} {l : Nat} {gs : List Region} {ws : List (List Word)}
    (h : List.Forall₂ (fun g a => s.regionWords l g.row g.len = some a) gs ws) : s.sourceWords l gs = some ws := by
  induction h with
  | nil => rfl
  | cons hg _ ih => exact sourceWords_cons s l _ _ hg ih

/-! ### One active lane after a normal completion -/

/-- What a lane's result leaves in the state `t` after a command: its words in the `len` rows from `rd` on and no new entry
in FAULT, or its UB fault (R264). -/
def LaneEnds (s t : State) (k : Latch) (rd : Row) (len l : Nat) : LaneResult → Prop
  | .ok ws => NoNewFault s t k l ∧ ∀ i, i < len → t.word (rd.toNat + i) l = ws[i]?
  | .error u => EndsInFault s t k rd len l u

/-- Execute leaves an active lane as the lane's result says. -/
theorem laneEnds_execute {s : State} {k : Latch} {l : Nat} (hready : Ready s k) (hl : Active s k l) {sh : Shape} {rd : Row}
    {len : Nat} (hdst : sh.dst = region rd len) (rule : List (List Word) → LaneResult) :
    LaneEnds s ((s.execute k sh rule).complete none) k rd len l (laneResult s sh rule l) := by
  have hfaults := command_mem_execute_faults hl sh rule
  have hwords : ∀ i, i < len → ((s.execute k sh rule).complete none).word (rd.toNat + i) l =
      resultWord (laneResult s sh rule l) i := fun i hi => by
    have := word_execute (k := k) (sh := sh) (rule := rule) hready.2 (i := i) (by rwa [hdst]) hl.1 hl.2
    rwa [hdst] at this
  cases hres : laneResult s sh rule l with
  | ok ws =>
    rw [hres] at hfaults hwords
    exact ⟨fun u hu => ((hfaults u).mp hu).resolve_right nofun, hwords⟩
  | error u =>
    rw [hres] at hfaults hwords
    refine ⟨(hfaults u).mpr (.inr rfl), fun u' hne hu' => ((hfaults u').mp hu').resolve_right fun heq => hne ?_, hwords⟩
    cases heq
    rfl

/-- A command that passes its checks completes normally, and its instruction rule says how each active lane ends whose
sources are all written. -/
theorem runCommand_lanes {s : State} {k : Latch} (hready : Ready s k) {sh : Shape} {rd : Row} {len : Nat}
    (rule : List (List Word) → LaneResult) (hdst : sh.dst = region rd len) (hcheck : sh.check s.cfg.rows = none) :
    ∃ t, runCommand sh rule s = .next t ∧ Completed s t ∧
      ∀ l ws, Active s k l → List.Forall₂ (fun g a => s.regionWords l g.row g.len = some a) sh.srcs ws →
        LaneEnds s t k rd len l (rule ws) := by
  refine ⟨_, runCommand_of_ok rule hready.1 hcheck, completed_execute s k sh rule, fun l ws hl hsrcs => ?_⟩
  rw [← laneResult_of_sources rule (sourceWords_of_forall₂ hsrcs)]
  exact laneEnds_execute hready hl hdst rule

/-- The same for a command with one source region. -/
theorem runCommand_unary {s : State} {k : Latch} {rd ra : Row} {len n : Nat} {e : Option CmdError} (hready : Ready s k)
    (rule : List Word → LaneResult) (he : e = none) (hrd : InRange s rd len) (hra : InRange s ra n) :
    ∃ t, runCommand ⟨e, region rd len, [region ra n]⟩ (fun ws => rule (source ws 0)) s = .next t ∧ Completed s t ∧
      ∀ (l : Nat) (a : List Word), Active s k l → a.length = n → Present s ra l a → LaneEnds s t k rd len l (rule a) := by
  have hcheck : Shape.check ⟨e, region rd len, [region ra n]⟩ s.cfg.rows = none :=
    (check_eq_none_iff _ _).mpr ⟨he, hrd, List.forall_mem_singleton.mpr hra⟩
  obtain ⟨t, hrun, hdone, hlanes⟩ := runCommand_lanes hready (fun ws => rule (source ws 0)) rfl hcheck
  exact ⟨t, hrun, hdone, fun l a hl hlen ha => hlanes l [a] hl (.cons (regionWords_of_present hlen ha) .nil)⟩

/-! ### Words as digits -/

theorem digitSum_eq_val (a : List Word) : digitSum a = val a := (val_eq_sum a).symm

/-- A lane whose words are digits of `v`, one by one, holds these digits. -/
theorem holdsDigits_of_words {t : State} {row l n v : Nat}
    (h : ∀ i, i < n → t.word (row + i) l = some (BitVec.ofNat 64 (v / 2 ^ (52 * i) % 2 ^ 52))) :
    HoldsDigits t row l n v := fun i hi => by
  rw [h i hi, Option.map_some, toNat_ofNat_mod_digit]

/-- A lane that ends with `Digits(v, n)` holds these digits, without a fault. -/
theorem LaneEnds.holdsDigits {s t : State} {k : Latch} {rd : Row} {l n v : Nat}
    (h : LaneEnds s t k rd n l (.ok (digits v n))) : NoNewFault s t k l ∧ HoldsDigits t rd.toNat l n v := by
  obtain ⟨hclean, hwords⟩ := h
  exact ⟨hclean, holdsDigits_of_words fun i hi => by rw [hwords i hi, digits_getElem?, if_pos hi]⟩

end Sys2Proof.Machine
end

section
/-! PROOFS. Scope: digit normalisation, shifts and lane primitives (spec 41_digit_ops.md R141 to R150): what each
instruction rule gives a lane, and the obligations about the commands. -/

namespace Sys2Proof.Machine

open Sys2Proof.Claims

/-! ### NORM and NORMCLR -/

theorem keepTop_length {len : Nat} (v : Nat) (hpos : 0 < len) : (keepTop v len).length = len := by
  rw [keepTop, List.length_append, digits_length, List.length_singleton, Nat.sub_add_cancel hpos]

/-- The digits below the top word. -/
theorem keepTop_getElem?_low {v len i : Nat} (h : i < len - 1) :
    (keepTop v len)[i]? = some (BitVec.ofNat 64 (v / 2 ^ (52 * i) % 2 ^ 52)) := by
  rw [keepTop, List.getElem?_append_left (by rwa [digits_length]), digits_getElem?, if_pos h]

/-- The top word. -/
theorem keepTop_getElem?_top (v len : Nat) :
    (keepTop v len)[len - 1]? = some (BitVec.ofNat 64 (v / 2 ^ (52 * (len - 1)))) := by
  simp [keepTop]

theorem laneNorm_fits {len : Nat} {a : List Word} (h : digitSum a / 2 ^ (52 * (len - 1)) < 2 ^ 64) :
    laneNorm len a = .ok (keepTop (digitSum a) len) := by
  rw [digitSum_eq_val] at h ⊢
  exact if_neg (Nat.not_le.mpr h)

theorem laneNorm_overflows {len : Nat} {a : List Word} (h : 2 ^ 64 ≤ digitSum a / 2 ^ (52 * (len - 1))) :
    laneNorm len a = .error .range := by
  rw [digitSum_eq_val] at h
  exact if_pos h

/-- Settles O22: the rule's words are the digits of V below the top one and the quotient, or its result is UB_RANGE. -/
theorem normCarriesIntoTopWord : Obligations.NormCarriesIntoTopWord := by
  intro s k rd ra lx hready hlx hrd hra
  refine ⟨by simp [encode_toNat, Instr.fields, Opcode.code], ?_⟩
  obtain ⟨t, hexec, hdone, hlanes⟩ := runCommand_unary hready (laneNorm lx.toNat) (lengthError_of_ne hlx) hrd hra
  refine ⟨t, hexec, hdone, fun l a hl hlen ha => ?_⟩
  have hlane := hlanes l a hl hlen ha
  have hpos := toNat_pos_of_ne hlx
  refine ⟨fun htop => ?_, fun htop => ?_⟩
  · rw [laneNorm_fits htop] at hlane
    obtain ⟨hclean, hwords⟩ := hlane
    refine ⟨hclean, holdsDigits_of_words fun i hi => ?_, ?_⟩
    · rw [hwords i (by omega), keepTop_getElem?_low hi]
    · rw [hwords _ (by omega), keepTop_getElem?_top]
  · rwa [laneNorm_overflows htop] at hlane

theorem laneNormclr_eq (len : Nat) (a : List Word) : laneNormclr len a = .ok (digits (digitSum a) len) := by
  rw [digitSum_eq_val, laneNormclr]

/-- Settles O23: the rule's words are the L digits of V. -/
theorem normclrDiscardsTopCarry : Obligations.NormclrDiscardsTopCarry := by
  intro s k rd ra lx hready hlx hrd hra
  refine ⟨by simp [encode_toNat, Instr.fields, Opcode.code], ?_⟩
  obtain ⟨t, hexec, hdone, hlanes⟩ := runCommand_unary hready (laneNormclr lx.toNat) (lengthError_of_ne hlx) hrd hra
  refine ⟨t, hexec, hdone, fun l a hl hlen ha => ?_⟩
  have hlane := hlanes l a hl hlen ha
  rw [laneNormclr_eq] at hlane
  exact hlane.holdsDigits

/-! ### NORMSQR and NORMTOP -/

section Normsqr

variable {n : Nat} {low high : List Word} (hlen : low.length = n)
include hlen

theorem laneNormsqr_nonnorm (h : ¬ AllDigits low) : laneNormsqr n (low ++ high) = .error .nonnorm := by
  rw [laneNormsqr, List.take_left' hlen]
  exact if_neg (mt (normalised_iff low).mp h)

theorem laneNormsqr_overflows (h : AllDigits low) (htop : 2 ^ 64 ≤ digitSum high / 2 ^ (52 * (n - 1))) :
    laneNormsqr n (low ++ high) = .error .range := by
  rw [digitSum_eq_val] at htop
  rw [laneNormsqr, List.take_left' hlen, List.drop_left' hlen, if_pos ((normalised_iff low).mpr h), if_pos htop]

theorem laneNormsqr_fits (h : AllDigits low) (htop : digitSum high / 2 ^ (52 * (n - 1)) < 2 ^ 64) :
    laneNormsqr n (low ++ high) = .ok (low ++ keepTop (digitSum high) n) := by
  rw [digitSum_eq_val] at htop ⊢
  rw [laneNormsqr, List.take_left' hlen, List.drop_left' hlen, if_pos ((normalised_iff low).mpr h),
    if_neg (Nat.not_le.mpr htop)]

end Normsqr

/-- Settles O24: the low half is copied and the upper half ends as NORM's words do, or the rule's result is a fault. -/
theorem normsqrCarriesFromDigitN : Obligations.NormsqrCarriesFromDigitN := by
  intro s k sz w rd ra hready hw hrd hra
  refine ⟨by simp [encode_toNat, Instr.fields, Opcode.code], ?_⟩
  have hpos := width_digits_pos w
  rw [← digitCount_of_code hw] at hrd hra hpos ⊢
  obtain ⟨t, hexec, hdone, hlanes⟩ :=
    runCommand_unary hready (laneNormsqr (digitCount sz)) (sizeError_of_code hw) hrd hra
  refine ⟨t, hexec, hdone, fun l low high hl hlow hhigh ha => ?_⟩
  have hlane := hlanes l (low ++ high) hl (by rw [List.length_append]; omega) ha
  refine ⟨fun h => ?_, fun h htop => ?_, fun h htop => ?_⟩
  · rwa [laneNormsqr_nonnorm hlow h] at hlane
  · rwa [laneNormsqr_overflows hlow h htop] at hlane
  · rw [laneNormsqr_fits hlow h htop] at hlane
    obtain ⟨hclean, hwords⟩ := hlane
    have hupper : ∀ i, i < digitCount sz →
        t.word (rd.toNat + digitCount sz + i) l = (keepTop (digitSum high) (digitCount sz))[i]? := fun i hi => by
      rw [Nat.add_assoc, hwords _ (by omega), List.getElem?_append_right (by omega), hlow, Nat.add_sub_cancel_left]
    refine ⟨hclean, fun i hi => ?_, holdsDigits_of_words fun i hi => ?_, ?_⟩
    · rw [hwords i (by omega), List.getElem?_append_left (by omega)]
    · rw [hupper i (by omega), keepTop_getElem?_low hi]
    · rw [show rd.toNat + (2 * digitCount sz - 1) = rd.toNat + digitCount sz + (digitCount sz - 1) by omega,
        hupper _ (by omega), keepTop_getElem?_top]

theorem laneNormtop_eq (n bits : Nat) (a : List Word) :
    laneNormtop n bits a = .ok (digits (digitSum a % 2 ^ bits) n) := by
  rw [digitSum_eq_val, laneNormtop]

/-- Settles O25: the rule's words are the n digits of V mod 2^W. -/
theorem normtopMasksToWidth : Obligations.NormtopMasksToWidth := by
  intro s k sz w rd ra hready hw hrd hra
  refine ⟨by simp [encode_toNat, Instr.fields, Opcode.code], ?_⟩
  rw [← digitCount_of_code hw] at hrd hra ⊢
  obtain ⟨t, hexec, hdone, hlanes⟩ :=
    runCommand_unary hready (laneNormtop (digitCount sz) (widthBits sz)) (sizeError_of_code hw) hrd hra
  refine ⟨t, hexec, hdone, fun l a hl hlen ha => ?_⟩
  have hlane := hlanes l a hl hlen ha
  rw [laneNormtop_eq, widthBits_of_code hw] at hlane
  exact hlane.holdsDigits

/-! ### SHL and SHR -/

/-- The field checks of SHL and SHR with a legal LX: SHIFT when SH is 52 or more (R103, R262). -/
theorem shiftFields_error {lx : Len} {sh : Shift} (hlx : lx ≠ 0#8) (h : 52 ≤ sh.toNat) :
    (lengthError lx).or (shiftError sh) = some .shift := by
  rw [lengthError_of_ne hlx, Option.none_or, shiftError, if_neg (Nat.not_lt.mpr h)]

theorem shiftFields_ok {lx : Len} {sh : Shift} (hlx : lx ≠ 0#8) (h : sh.toNat < 52) :
    (lengthError lx).or (shiftError sh) = none := by
  rw [lengthError_of_ne hlx, Option.none_or, shiftError, if_pos h]

/-- SHL and SHR alike: SHIFT is the check that fails, or a rule that takes normalised words to digits, and others to
UB_NONNORM, says how each lane ends. -/
theorem runCommand_shift {s : State} {k : Latch} {rd ra : Row} {lx : Len} {sh : Shift} {len : Nat} (hready : Ready s k)
    (hlx : lx ≠ 0#8) (hrd : InRange s rd len) (hra : InRange s ra lx.toNat) (rule : List Word → LaneResult)
    {result : List Word → Nat} (hdigits : ∀ a, AllDigits a → rule a = .ok (digits (result a) len))
    (hnonnorm : ∀ a, ¬ AllDigits a → rule a = .error .nonnorm) :
    let form : Shape := ⟨(lengthError lx).or (shiftError sh), region rd len, [region ra lx.toNat]⟩
    (52 ≤ sh.toNat → runCommand form (fun ws => rule (source ws 0)) s = .next (s.complete (some .shift))) ∧
    (sh.toNat < 52 → ∃ t, runCommand form (fun ws => rule (source ws 0)) s = .next t ∧ Completed s t ∧
      ∀ (l : Nat) (a : List Word), Active s k l → a.length = lx.toNat → Present s ra l a →
        (AllDigits a → NoNewFault s t k l ∧ HoldsDigits t rd.toNat l len (result a)) ∧
        (¬ AllDigits a → EndsInFault s t k rd len l .nonnorm)) := by
  refine ⟨fun hsh => runCommand_of_error _ hready.1 (check_of_fieldError _ (shiftFields_error hlx hsh)), fun hsh => ?_⟩
  obtain ⟨t, hexec, hdone, hlanes⟩ := runCommand_unary hready rule (shiftFields_ok hlx hsh) hrd hra
  refine ⟨t, hexec, hdone, fun l a hl hlen ha => ?_⟩
  have hlane := hlanes l a hl hlen ha
  refine ⟨fun h => ?_, fun h => ?_⟩
  · rw [hdigits a h] at hlane
    exact hlane.holdsDigits
  · rwa [hnonnorm a h] at hlane

theorem laneShl_digits {len sh : Nat} {a : List Word} (h : AllDigits a) :
    laneShl len sh a = .ok (digits (digitSum a * 2 ^ sh) (len + 1)) := by
  rw [digitSum_eq_val]
  exact if_pos ((normalised_iff a).mpr h)

theorem laneShl_nonnorm {len sh : Nat} {a : List Word} (h : ¬ AllDigits a) : laneShl len sh a = .error .nonnorm :=
  if_neg (mt (normalised_iff a).mp h)

theorem laneShr_digits {len sh : Nat} {a : List Word} (h : AllDigits a) :
    laneShr len sh a = .ok (digits (digitSum a / 2 ^ sh) len) := by
  rw [digitSum_eq_val]
  exact if_pos ((normalised_iff a).mpr h)

theorem laneShr_nonnorm {len sh : Nat} {a : List Word} (h : ¬ AllDigits a) : laneShr len sh a = .error .nonnorm :=
  if_neg (mt (normalised_iff a).mp h)

/-- Settles O26: the rule's words are the L+1 digits of the product. -/
theorem shlMultipliesByPower : Obligations.ShlMultipliesByPower := fun _ _ _ _ _ _ hready hlx hrd hra =>
  ⟨by simp [encode_toNat, Instr.fields, Opcode.code],
    runCommand_shift hready hlx hrd hra (laneShl _ _) (fun _ => laneShl_digits) (fun _ => laneShl_nonnorm)⟩

/-- Settles O27: the rule's words are the L digits of the quotient. -/
theorem shrDividesByPower : Obligations.ShrDividesByPower := fun _ _ _ _ _ _ hready hlx hrd hra =>
  ⟨by simp [encode_toNat, Instr.fields, Opcode.code],
    runCommand_shift hready hlx hrd hra (laneShr _ _) (fun _ => laneShr_digits) (fun _ => laneShr_nonnorm)⟩

/-! ### ZERO, COPY and CMPGE -/

/-- Execute records nothing when no active lane ends in a fault. -/
theorem execute_faults_of_ok {s : State} {k : Latch} {sh : Shape} {rule : List (List Word) → LaneResult}
    (h : ∀ l, ∃ ws, laneResult s sh rule l = .ok ws) : (s.execute k sh rule).faults = s.faults := by
  have hlane : ∀ fs l, recordLane k.cmd fs l (laneResult s sh rule l) = fs := fun fs l => by
    obtain ⟨ws, hws⟩ := h l
    rw [hws, recordLane]
  simp only [execute_faults, hlane, List.foldl_fixed]

/-- Settles O28: no source is read, so every active lane's result is L zeros. -/
theorem zeroWritesZeros : Obligations.ZeroWritesZeros := by
  intro s k rd lx hready hlx hrd
  refine ⟨by simp [encode_toNat, Instr.fields, Opcode.code], ?_⟩
  have hcheck : (shape (.zero rd lx)).check s.cfg.rows = none :=
    (check_eq_none_iff _ _).mpr ⟨lengthError_of_ne hlx, hrd, nofun⟩
  refine ⟨_, runCommand_of_ok _ hready.1 hcheck, completed_execute _ _ _ _, execute_faults_of_ok fun l => ⟨_, rfl⟩,
    fun l i hl hi => ?_⟩
  refine (word_execute hready.2 hi hl.1 hl.2).trans ?_
  show (List.replicate lx.toNat 0#64)[i]? = some 0#64
  rw [List.getElem?_replicate, if_pos hi]

/-- Settles O29: the rule's words are the words read. -/
theorem copyMovesWords : Obligations.CopyMovesWords := by
  intro s k rd ra lx hready hlx hrd hra
  refine ⟨by simp [encode_toNat, Instr.fields, Opcode.code], ?_⟩
  obtain ⟨t, hexec, hdone, hlanes⟩ := runCommand_unary hready laneCopy (lengthError_of_ne hlx) hrd hra
  refine ⟨t, hexec, hdone, fun l a hl hlen ha => ?_⟩
  obtain ⟨hclean, hwords⟩ := hlanes l a hl hlen ha
  exact ⟨hclean, fun i hi => hwords i (hlen ▸ hi)⟩

theorem laneCmpge_digits {a b : List Word} (ha : AllDigits a) (hb : AllDigits b) :
    laneCmpge a b = .ok [if digitSum b ≤ digitSum a then 0xFFFFFFFFFFFFFFFF#64 else 0#64] := by
  rw [laneCmpge, (normalised_iff a).mpr ha, (normalised_iff b).mpr hb, digitSum_eq_val, digitSum_eq_val]
  rfl

theorem laneCmpge_nonnorm {a b : List Word} (h : ¬(AllDigits a ∧ AllDigits b)) : laneCmpge a b = .error .nonnorm := by
  refine if_neg fun hab => h ?_
  obtain ⟨ha, hb⟩ := Bool.and_eq_true_iff.mp hab
  exact ⟨(normalised_iff a).mp ha, (normalised_iff b).mp hb⟩

/-- Settles O30: the rule's one word is the outcome of the comparison, or its result is UB_NONNORM. -/
theorem cmpgeComparesValues : Obligations.CmpgeComparesValues := by
  intro s k rd ra rb lx hready hlx hrd hra hrb
  refine ⟨by simp [encode_toNat, Instr.fields, Opcode.code], ?_⟩
  have hcheck : (shape (.cmpge rd ra rb lx)).check s.cfg.rows = none :=
    (check_eq_none_iff _ _).mpr ⟨lengthError_of_ne hlx, hrd,
      List.forall_mem_cons.mpr ⟨hra, List.forall_mem_singleton.mpr hrb⟩⟩
  obtain ⟨t, hexec, hdone, hlanes⟩ :=
    runCommand_lanes hready (fun ws => laneCmpge (source ws 0) (source ws 1)) rfl hcheck
  refine ⟨t, hexec, hdone, fun l a b hl hlena hlenb ha hb => ?_⟩
  have hlane : LaneEnds s t k rd 1 l (laneCmpge a b) := hlanes l [a, b] hl
    (.cons (regionWords_of_present hlena ha) (.cons (regionWords_of_present hlenb hb) .nil))
  refine ⟨fun hda hdb => ?_, fun h => ?_⟩
  · rw [laneCmpge_digits hda hdb] at hlane
    obtain ⟨hclean, hwords⟩ := hlane
    exact ⟨hclean, hwords 0 Nat.one_pos⟩
  · rwa [laneCmpge_nonnorm h] at hlane

/-! ### Normalising a normalised array -/

theorem digitSum_lt {a : List Word} (h : AllDigits a) : digitSum a < 2 ^ (52 * a.length) := by
  rw [digitSum_eq_val]
  exact val_lt ((normalised_iff a).mpr h)

/-- A normalised array is the digits of its value. -/
theorem digits_digitSum {a : List Word} (h : AllDigits a) : digits (digitSum a) a.length = a := by
  rw [digitSum_eq_val]
  exact digits_val ((normalised_iff a).mpr h)

theorem topDigit_lt {v len : Nat} (hpos : 0 < len) (h : v < 2 ^ (52 * len)) : v / 2 ^ (52 * (len - 1)) < 2 ^ 52 := by
  refine Nat.div_lt_of_lt_mul ?_
  rwa [← pow_add, show 52 * (len - 1) + 52 = 52 * len by omega]

/-- The top word of a value of `len` digits is its top digit. -/
theorem keepTop_eq_digits {v len : Nat} (hpos : 0 < len) (h : v < 2 ^ (52 * len)) : keepTop v len = digits v len := by
  refine List.ext_getElem? fun i => ?_
  rw [digits_getElem?]
  obtain hi | rfl | hi := Nat.lt_trichotomy i (len - 1)
  · rw [keepTop_getElem?_low hi, if_pos (by omega)]
  · rw [keepTop_getElem?_top, if_pos (by omega), Nat.mod_eq_of_lt (topDigit_lt hpos h)]
  · rw [if_neg (by omega), List.getElem?_eq_none (by rw [keepTop_length v hpos]; omega)]

theorem laneNorm_of_allDigits {a : List Word} (hpos : 0 < a.length) (h : AllDigits a) : laneNorm a.length a = .ok a := by
  have hv := digitSum_lt h
  rw [laneNorm_fits ((topDigit_lt hpos hv).trans (by norm_num)), keepTop_eq_digits hpos hv, digits_digitSum h]

theorem laneNormclr_of_allDigits {a : List Word} (h : AllDigits a) : laneNormclr a.length a = .ok a := by
  rw [laneNormclr_eq, digits_digitSum h]

theorem width_bits_eq (w : Width) : w.bits = 52 * (w.digits - 1) + w.topbits := by cases w <;> rfl

/-- Normalised digits whose top one has at most `topbits(W)` bits stand for a W-bit value. -/
theorem digitSum_lt_of_topDigit {w : Width} {a : List Word} (hlen : w.digits = a.length) (h : AllDigits a)
    (htop : (a.getD (w.digits - 1) 0#64).toNat < 2 ^ w.topbits) : digitSum a < 2 ^ w.bits := by
  have hne : a ≠ [] := List.ne_nil_of_length_pos (hlen ▸ width_digits_pos w)
  obtain ⟨low, d, rfl⟩ := List.eq_nil_or_concat' a |>.resolve_left hne
  have hlow : val low < 2 ^ (52 * low.length) := val_lt ((normalised_iff low).mpr fun x hx => h x (by simp [hx]))
  have hn : w.digits - 1 = low.length := by simp [hlen]
  have hd : d.toNat + 1 ≤ 2 ^ w.topbits := by simpa [hn] using htop
  calc digitSum (low ++ [d]) = val low + 2 ^ (52 * low.length) * d.toNat := by
        rw [digitSum_eq_val, val_append, val, val, Nat.mul_zero, Nat.add_zero]
    _ < 2 ^ (52 * low.length) * (d.toNat + 1) := by rw [Nat.mul_add, Nat.mul_one]; omega
    _ ≤ 2 ^ (52 * low.length) * 2 ^ w.topbits := Nat.mul_le_mul_left _ hd
    _ = 2 ^ w.bits := by rw [← pow_add, ← hn, width_bits_eq]

theorem laneNormtop_of_allDigits {w : Width} {a : List Word} (hlen : w.digits = a.length) (h : AllDigits a)
    (htop : (a.getD (w.digits - 1) 0#64).toNat < 2 ^ w.topbits) : laneNormtop w.digits w.bits a = .ok a := by
  rw [laneNormtop_eq, Nat.mod_eq_of_lt (digitSum_lt_of_topDigit hlen h htop), hlen, digits_digitSum h]

/-- A rule that gives back the words it reads leaves them in the destination. -/
theorem runCommand_unary_same {s : State} {k : Latch} {rd ra : Row} {l n : Nat} {a : List Word} {e : Option CmdError}
    (hready : Ready s k) (hl : Active s k l) (ha : Present s ra l a) (hlen : a.length = n) (hrd : InRange s rd n)
    (hra : InRange s ra n) (he : e = none) {rule : List Word → LaneResult} (hrule : rule a = .ok a) :
    ∃ t, runCommand ⟨e, region rd n, [region ra n]⟩ (fun ws => rule (source ws 0)) s = .next t ∧ Present t rd l a := by
  obtain ⟨t, hexec, -, hlanes⟩ := runCommand_unary hready rule he hrd hra
  have hlane := hlanes l a hl hlen ha
  rw [hrule] at hlane
  obtain ⟨-, hwords⟩ := hlane
  exact ⟨t, hexec, fun i hi => hwords i (hlen ▸ hi)⟩

/-- Settles O31: each rule gives back the words it reads. -/
theorem normalisationIsIdempotent : Obligations.NormalisationIsIdempotent := by
  intro s k rd ra l a hready hl hdigits ha hrd hra
  refine ⟨fun lx hlx hlen => ?_, fun sz w hw hlen htop => ?_⟩
  · have hpos : 0 < a.length := hlen ▸ toNat_pos_of_ne hlx
    have hnorm := laneNorm_of_allDigits hpos hdigits
    have hnormclr := laneNormclr_of_allDigits hdigits
    rw [← hlen] at hrd hra hnorm hnormclr
    exact ⟨runCommand_unary_same hready hl ha hlen.symm hrd hra (lengthError_of_ne hlx) hnorm,
      runCommand_unary_same hready hl ha hlen.symm hrd hra (lengthError_of_ne hlx) hnormclr⟩
  · have hrule := laneNormtop_of_allDigits hlen hdigits htop
    rw [← digitCount_of_code hw] at hlen hrule
    rw [← widthBits_of_code hw] at hrule
    rw [← hlen] at hrd hra
    exact runCommand_unary_same hready hl ha hlen.symm hrd hra (sizeError_of_code hw) hrule

end Sys2Proof.Machine
end

section
/-! PROOFS. Scope: the digit-serial reduction of R182 as an exact division (spec 42_montgomery.md R185, R186), as facts
about numbers. -/

namespace Sys2Proof.Machine

/-! ### The factor k0 -/

/-- R182's condition on `k0`: it is the negated inverse of M's low digit modulo the radix. -/
abbrev NegatedInverse (k0 m : Nat) : Prop := k0 * (m % 2 ^ 52) % 2 ^ 52 = 2 ^ 52 - 1

namespace NegatedInverse

variable {k0 m : Nat} (h : NegatedInverse k0 m)
include h

theorem dvd_succ : 2 ^ 52 ∣ k0 * m + 1 := by
  have hmod : k0 * m % 2 ^ 52 = 2 ^ 52 - 1 := by rwa [← Nat.mul_mod_mod]
  omega

theorem odd : m % 2 = 1 := by
  refine Nat.mod_two_ne_zero.mp fun heven => ?_
  have h2 : 2 ∣ k0 * m + 1 := (by decide : 2 ∣ 2 ^ 52).trans h.dvd_succ
  have : 2 ∣ k0 * m := (Nat.dvd_of_mod_eq_zero heven).mul_left k0
  omega

theorem coprime (e : Nat) : Nat.Coprime m (2 ^ e) :=
  Nat.Coprime.pow_right e (Nat.coprime_two_right.mpr (Nat.odd_iff.mpr h.odd))

/-- The quotient digit of `q` makes `q + y·m` a multiple of the radix (R182). -/
theorem dvd_add_digit (q : Nat) : 2 ^ 52 ∣ q + q % 2 ^ 52 * k0 % 2 ^ 52 * m := by
  refine (Nat.modEq_zero_iff_dvd).mp ?_
  calc q + q % 2 ^ 52 * k0 % 2 ^ 52 * m
    _ ≡ q + q * k0 * m [MOD 2 ^ 52] :=
      (((Nat.mod_modEq _ _).trans ((Nat.mod_modEq q _).mul_right k0)).mul_right m).add_left q
    _ = q * (k0 * m + 1) := by ring
    _ ≡ 0 [MOD 2 ^ 52] := Nat.modEq_zero_iff_dvd.mpr (h.dvd_succ.mul_left q)

/-- One turn of R182's loop clears digit `i` of a running sum whose lower digits are clear. -/
theorem dvd_reduce_digit {i t : Nat} (ht : 2 ^ (52 * i) ∣ t) :
    2 ^ (52 * (i + 1)) ∣ t + quotientDigit k0 i t * m * 2 ^ (52 * i) := by
  obtain ⟨q, rfl⟩ := ht
  have hdigit : quotientDigit k0 i (2 ^ (52 * i) * q) = q % 2 ^ 52 * k0 % 2 ^ 52 := by
    rw [quotientDigit, Nat.mul_div_cancel_left q (Nat.two_pow_pos _)]
  rw [hdigit, radix_pow_succ, Nat.mul_comm (_ * m), ← Nat.mul_add, Nat.mul_comm (2 ^ 52)]
  exact Nat.mul_dvd_mul_left _ (h.dvd_add_digit q)

/-- `k` turns of R182's loop from digit `i` on add one multiple `y·m` at digit `i`, with `y` of `k` digits, and clear
these digits. -/
theorem reduceLoop_eq (k : Nat) {i t : Nat} (ht : 2 ^ (52 * i) ∣ t) :
    ∃ y, y < 2 ^ (52 * k) ∧ reduceLoop m k0 k i t = t + y * m * 2 ^ (52 * i) ∧
      2 ^ (52 * (i + k)) ∣ reduceLoop m k0 k i t := by
  induction k generalizing i t with
  | zero => exact ⟨0, Nat.two_pow_pos _, by simp [reduceLoop], ht⟩
  | succ k ih =>
    obtain ⟨y, hy, heq, hdvd⟩ := ih (h.dvd_reduce_digit ht)
    have hdigit : quotientDigit k0 i t < 2 ^ 52 := Nat.mod_lt _ (Nat.two_pow_pos _)
    refine ⟨quotientDigit k0 i t + 2 ^ 52 * y, ?_, ?_, ?_⟩
    · rw [radix_pow_succ]
      calc quotientDigit k0 i t + 2 ^ 52 * y
        _ < 2 ^ 52 * (y + 1) := by omega
        _ ≤ 2 ^ 52 * 2 ^ (52 * k) := Nat.mul_le_mul_left _ hy
    · rw [reduceLoop, heq, radix_pow_succ]
      ring
    · rwa [reduceLoop, Nat.add_comm k, ← Nat.add_assoc]

end NegatedInverse

/-! ### The exact division of R185 -/

/-- `y` below `r` makes `x + y·m` a multiple of `r`. -/
def MakesExact (r m x y : Nat) : Prop := y < r ∧ (x + y * m) % r = 0

namespace MakesExact

variable {r m x y : Nat} (h : MakesExact r m x y)
include h

theorem unique (hm : Nat.Coprime m r) {y' : Nat} (h' : MakesExact r m x y') : y' = y := by
  have hxy : x + y' * m ≡ x + y * m [MOD r] := h'.2.trans h.2.symm
  exact Nat.ModEq.eq_of_lt_of_lt (Nat.ModEq.cancel_right_of_coprime hm.symm (Nat.ModEq.add_left_cancel' x hxy)) h'.1 h.1

theorem quotient_mul : (x + y * m) / r * r = x + y * m := Nat.div_mul_cancel (Nat.dvd_of_mod_eq_zero h.2)

/-- The quotient is `x/r` modulo `m`. -/
theorem quotient_modEq : (x + y * m) / r * r ≡ x [MOD m] := by
  rw [h.quotient_mul]
  simp [Nat.ModEq]

/-- R186: the quotient is below `b + m` if `x` is below `r·b`. -/
theorem quotient_lt {b : Nat} (hx : x < r * b) : (x + y * m) / r < b + m := by
  have hy : y * m ≤ r * m := Nat.mul_le_mul_right m h.1.le
  exact Nat.div_lt_of_lt_mul (by rw [Nat.mul_add]; omega)

/-- The quotient is at most `m` if `x` is below `r + m`. -/
theorem quotient_le (hx : x < r + m) : (x + y * m) / r ≤ m := by
  have hy : (y + 1) * m ≤ r * m := Nat.mul_le_mul_right m h.1
  rw [Nat.add_mul, Nat.one_mul] at hy
  exact Nat.le_of_lt_succ (Nat.div_lt_of_lt_mul (by rw [Nat.mul_succ]; omega))

/-- The quotient of 0 is 0. -/
theorem quotient_zero (hm : Nat.Coprime m r) (hx : x = 0) : (x + y * m) / r = 0 := by
  subst hx
  have hy : y % r = 0 := Nat.mod_eq_zero_of_dvd
    (hm.symm.dvd_of_dvd_mul_right (Nat.zero_add (y * m) ▸ Nat.dvd_of_mod_eq_zero h.2))
  rw [Nat.mod_eq_of_lt h.1] at hy
  simp [hy]

end MakesExact

end Sys2Proof.Machine
end

section
/-! PROOFS. Scope: ADDMUL, AMRED, AMS and MODSUB (spec 42_montgomery.md R181 to R186): what each instruction rule gives a
lane, and the obligations about the commands. -/

namespace Sys2Proof.Machine

open Sys2Proof.Claims

/-! ### Commands with three source regions -/

theorem check_ternary {rd ra rb rc : Row} {len na nb nc rows : Nat} {e : Option CmdError} (he : e = none)
    (hrd : rd.toNat + len ≤ rows) (hra : ra.toNat + na ≤ rows) (hrb : rb.toNat + nb ≤ rows)
    (hrc : rc.toNat + nc ≤ rows) :
    Shape.check ⟨e, region rd len, [region ra na, region rb nb, region rc nc]⟩ rows = none :=
  (check_eq_none_iff _ _).mpr
    ⟨he, hrd, List.forall_mem_cons.mpr ⟨hra, List.forall_mem_cons.mpr ⟨hrb, List.forall_mem_singleton.mpr hrc⟩⟩⟩

/-- A command with three source regions that passes its checks completes normally, and its instruction rule says how each
active lane ends whose sources are all written. -/
theorem runCommand_ternary {s : State} {k : Latch} {rd ra rb rc : Row} {len na nb nc : Nat} {e : Option CmdError}
    (hready : Ready s k) (rule : List Word → List Word → List Word → LaneResult) (he : e = none)
    (hrd : InRange s rd len) (hra : InRange s ra na) (hrb : InRange s rb nb) (hrc : InRange s rc nc) :
    ∃ t, runCommand ⟨e, region rd len, [region ra na, region rb nb, region rc nc]⟩
        (fun ws => rule (source ws 0) (source ws 1) (source ws 2)) s = .next t ∧ Completed s t ∧
      ∀ (l : Nat) (a b c : List Word), Active s k l → a.length = na → b.length = nb → c.length = nc →
        Present s ra l a → Present s rb l b → Present s rc l c → LaneEnds s t k rd len l (rule a b c) := by
  obtain ⟨t, hrun, hdone, hlanes⟩ := runCommand_lanes hready
    (fun ws => rule (source ws 0) (source ws 1) (source ws 2)) rfl (check_ternary he hrd hra hrb hrc)
  exact ⟨t, hrun, hdone, fun l a b c hl hla hlb hlc ha hb hc => hlanes l [a, b, c] hl
    (.cons (regionWords_of_present hla ha) (.cons (regionWords_of_present hlb hb)
      (.cons (regionWords_of_present hlc hc) .nil)))⟩

theorem normalised_and_iff (a b c : List Word) :
    (normalised a && normalised b && normalised c) = true ↔ AllDigits a ∧ AllDigits b ∧ AllDigits c := by
  simp only [Bool.and_eq_true, normalised_iff, AllDigits, and_assoc]

/-! ### ADDMUL -/

theorem laneAddmul_nonnorm {n : Nat} {acc a b : List Word} (h : ¬(AllDigits acc ∧ AllDigits a ∧ AllDigits b)) :
    laneAddmul n acc a b = .error .nonnorm :=
  if_neg (mt (normalised_and_iff acc a b).mp h)

section Addmul

variable {n : Nat} {acc a b : List Word} (h : AllDigits acc ∧ AllDigits a ∧ AllDigits b)
include h

theorem laneAddmul_range (hv : 2 ^ (104 * n) ≤ digitSum acc + digitSum a * digitSum b) :
    laneAddmul n acc a b = .error .range := by
  simp only [digitSum_eq_val] at hv
  rw [laneAddmul, if_pos ((normalised_and_iff acc a b).mpr h), if_pos hv]

theorem laneAddmul_digits (hv : digitSum acc + digitSum a * digitSum b < 2 ^ (104 * n)) :
    laneAddmul n acc a b = .ok (digits (digitSum acc + digitSum a * digitSum b) (2 * n)) := by
  simp only [digitSum_eq_val] at hv ⊢
  rw [laneAddmul, if_pos ((normalised_and_iff acc a b).mpr h), if_neg (Nat.not_le.mpr hv)]

end Addmul

/-- Settles O32: the rule's words are the 2n digits of the sum, or its result is a fault. -/
theorem addmulAccumulatesProduct : Obligations.AddmulAccumulatesProduct := by
  intro s k sz w rd ra rb hready hw hrd hra hrb
  refine ⟨by simp [encode_toNat, Instr.fields, Opcode.code], ?_⟩
  rw [← digitCount_of_code hw] at hrd hra hrb ⊢
  obtain ⟨t, hexec, hdone, hlanes⟩ :=
    runCommand_ternary hready (laneAddmul (digitCount sz)) (sizeError_of_code hw) hrd hrd hra hrb
  refine ⟨t, hexec, hdone, fun l acc a b hl hlacc hla hlb hacc ha hb => ?_⟩
  have hlane := hlanes l acc a b hl hlacc hla hlb hacc ha hb
  refine ⟨fun h => ?_, fun hdacc hda hdb hv => ?_, fun hdacc hda hdb hv => ?_⟩
  · rwa [laneAddmul_nonnorm h] at hlane
  · rwa [laneAddmul_range ⟨hdacc, hda, hdb⟩ hv] at hlane
  · rw [laneAddmul_digits ⟨hdacc, hda, hdb⟩ hv] at hlane
    exact hlane.holdsDigits

/-! ### AMRED and AMS -/

theorem val_singleton (w : Word) : val [w] = w.toNat := by simp [val]

theorem almostReduce_k0 {n x : Nat} {m : List Word} {k0 : Word} (h : ¬ NegatedInverse k0.toNat (digitSum m)) :
    almostReduce n x m [k0] = .error .k0 := by
  rw [digitSum_eq_val] at h
  rw [almostReduce, val_singleton]
  exact if_pos h

/-- R185: with a matching `k0` the result is the quotient of the exact division, if it has `n` digits. -/
theorem almostReduce_eq (n x : Nat) {m : List Word} {k0 : Word} (h : NegatedInverse k0.toNat (digitSum m)) :
    ∃ y, MakesExact (2 ^ (52 * n)) (digitSum m) x y ∧
      almostReduce n x m [k0] = if 2 ^ (52 * n) ≤ (x + y * digitSum m) / 2 ^ (52 * n) then .error .range
        else .ok (digits ((x + y * digitSum m) / 2 ^ (52 * n)) n) := by
  obtain ⟨y, hy, heq, hdvd⟩ := h.reduceLoop_eq n (i := 0) (t := x) (one_dvd x)
  rw [Nat.mul_zero, pow_zero, Nat.mul_one] at heq
  rw [Nat.zero_add, heq] at hdvd
  refine ⟨y, ⟨hy, Nat.mod_eq_zero_of_dvd hdvd⟩, ?_⟩
  rw [digitSum_eq_val] at h heq ⊢
  rw [almostReduce, val_singleton, if_neg (not_not.mpr h), heq]

/-- What the rule of AMRED and AMS leaves in an active lane: `x` is the number to reduce, and `a` its digits (AMRED) or
those of its root (AMS). -/
theorem LaneEnds.almostReduced {s t : State} {k : Latch} {rd : Row} {l n x : Nat} {a m : List Word} {k0 : Word}
    (hlane : LaneEnds s t k rd n l (if normalised a && normalised m && normalised [k0] then almostReduce n x m [k0]
      else .error .nonnorm)) :
    (¬(AllDigits a ∧ AllDigits m ∧ AllDigits [k0]) → EndsInFault s t k rd n l .nonnorm) ∧
    (AllDigits a → AllDigits m → AllDigits [k0] → ¬ NegatedInverse k0.toNat (digitSum m) →
      EndsInFault s t k rd n l .k0) ∧
    (AllDigits a → AllDigits m → AllDigits [k0] → NegatedInverse k0.toNat (digitSum m) →
      ∃ y, y < 2 ^ (52 * n) ∧ (x + y * digitSum m) % 2 ^ (52 * n) = 0 ∧
        (∀ y', y' < 2 ^ (52 * n) → (x + y' * digitSum m) % 2 ^ (52 * n) = 0 → y' = y) ∧
        ((x + y * digitSum m) / 2 ^ (52 * n) < 2 ^ (52 * n) → NoNewFault s t k l ∧
          HoldsDigits t rd.toNat l n ((x + y * digitSum m) / 2 ^ (52 * n))) ∧
        (2 ^ (52 * n) ≤ (x + y * digitSum m) / 2 ^ (52 * n) → EndsInFault s t k rd n l .range)) := by
  refine ⟨fun h => ?_, fun ha hm hk0 h => ?_, fun ha hm hk0 h => ?_⟩
  · rwa [if_neg (mt (normalised_and_iff a m [k0]).mp h)] at hlane
  all_goals rw [if_pos ((normalised_and_iff a m [k0]).mpr ⟨ha, hm, hk0⟩)] at hlane
  · rwa [almostReduce_k0 h] at hlane
  · obtain ⟨y, hy, hrule⟩ := almostReduce_eq n x h
    rw [hrule] at hlane
    refine ⟨y, hy.1, hy.2, fun y' hlt hdvd => hy.unique (h.coprime _) ⟨hlt, hdvd⟩, fun hv => ?_, fun hv => ?_⟩
    · rw [if_neg (Nat.not_le.mpr hv)] at hlane
      exact hlane.holdsDigits
    · rwa [if_pos hv] at hlane

/-- Settles O33: the loop's result is the quotient of the one exact division. -/
theorem amredDividesByR : Obligations.AmredDividesByR := by
  intro s k sz w rd ra rb rc hready hw hrd hra hrb hrc
  refine ⟨by simp [encode_toNat, Instr.fields, Opcode.code], ?_⟩
  rw [← digitCount_of_code hw] at hrd hra hrb ⊢
  obtain ⟨t, hexec, hdone, hlanes⟩ :=
    runCommand_ternary hready (laneAmred (digitCount sz)) (sizeError_of_code hw) hrd hra hrb hrc
  refine ⟨t, hexec, hdone, fun l acc m k0 hl hlacc hlm hacc hm hk0 => ?_⟩
  have hlane := hlanes l acc m [k0] hl hlacc hlm rfl hacc hm hk0
  rw [laneAmred, ← digitSum_eq_val acc] at hlane
  exact hlane.almostReduced

/-- Settles O35: AMS runs AMRED's loop on the square. -/
theorem amsReducesSquare : Obligations.AmsReducesSquare := by
  intro s k sz w rd ra rb rc hready hw hrd hra hrb hrc
  refine ⟨by simp [encode_toNat, Instr.fields, Opcode.code], ?_⟩
  rw [← digitCount_of_code hw] at hrd hra hrb ⊢
  obtain ⟨t, hexec, hdone, hlanes⟩ :=
    runCommand_ternary hready (laneAms (digitCount sz)) (sizeError_of_code hw) hrd hra hrb hrc
  refine ⟨t, hexec, hdone, fun l a m k0 hl hla hlm ha hm hk0 => ?_⟩
  have hlane := hlanes l a m [k0] hl hla hlm rfl ha hm hk0
  rw [laneAms, ← digitSum_eq_val a] at hlane
  exact hlane.almostReduced

/-- Settles O34: `y·M` is below `R·M`, so the quotient is below `acc/R + M`. -/
theorem amredStaysBelowTwiceModulus : Obligations.AmredStaysBelowTwiceModulus := by
  intro s t k sz w rd ra rb rc l acc m k0 hready hw hrd hra hrb hrc hl hlacc hlm hacc hm hk0 hdacc hdm hdk0 hgood hexec
  obtain ⟨-, t', hexec', -, hlanes⟩ := amredDividesByR s k sz w rd ra rb rc hready hw hrd hra hrb hrc
  obtain rfl : t = t' := Host.Outcome.next.inj (hexec.symm.trans hexec')
  obtain ⟨-, -, hreduced⟩ := hlanes l acc m k0 hl hlacc hlm hacc hm hk0
  obtain ⟨y, hy, hdvd, -, hfits, hoverflows⟩ := hreduced hdacc hdm hdk0 hgood
  have hexact : MakesExact (2 ^ (52 * w.digits)) (digitSum m) (digitSum acc) y := ⟨hy, hdvd⟩
  refine ⟨fun hlow => ?_, fun hlow => ?_⟩
  · obtain hv | hv := Nat.lt_or_ge ((digitSum acc + y * digitSum m) / 2 ^ (52 * w.digits)) (2 ^ (52 * w.digits))
    · exact .inl ⟨_, Nat.two_mul (digitSum m) ▸ hexact.quotient_lt hlow, (hfits hv).2⟩
    · exact .inr (hoverflows hv)
  · have hmR : digitSum m < 2 ^ (52 * w.digits) := hlm ▸ digitSum_lt hdm
    have hv := hexact.quotient_lt hlow
    rw [Nat.sub_add_cancel hmR.le] at hv
    exact (hfits hv).1

/-! ### MODSUB -/

theorem laneModsub_nonnorm {n : Nat} {a b m : List Word} (h : ¬(AllDigits a ∧ AllDigits b ∧ AllDigits m)) :
    laneModsub n a b m = .error .nonnorm :=
  if_neg (mt (normalised_and_iff a b m).mp h)

theorem addBack_of_le {a b : Nat} (m : Nat) (h : b ≤ a) : addBack a b m = (a - b : Nat) := by
  rw [addBack, if_neg (by omega)]
  omega

theorem addBack_of_lt {a b : Nat} (m : Nat) (h : a < b) : addBack a b m = (a : Int) + m - b := by
  rw [addBack, if_pos (by omega)]
  omega

section Modsub

variable {n : Nat} {a b m : List Word} (h : AllDigits a ∧ AllDigits b ∧ AllDigits m)
include h

theorem laneModsub_range (hv : digitSum a + digitSum m < digitSum b) : laneModsub n a b m = .error .range := by
  simp only [digitSum_eq_val] at hv
  rw [laneModsub, if_pos ((normalised_and_iff a b m).mpr h), addBack_of_lt _ (by omega), if_pos (by omega)]

theorem laneModsub_digits (hv : digitSum b ≤ digitSum a + digitSum m) :
    laneModsub n a b m = .ok (digits
      (if digitSum b ≤ digitSum a then digitSum a - digitSum b else digitSum a + digitSum m - digitSum b) n) := by
  simp only [digitSum_eq_val] at hv ⊢
  rw [laneModsub, if_pos ((normalised_and_iff a b m).mpr h)]
  obtain hlt | hle := Nat.lt_or_ge (val a) (val b)
  · rw [addBack_of_lt _ hlt, if_neg (by omega), if_neg (Nat.not_le.mpr hlt),
      show ((val a : Int) + val m - val b).toNat = val a + val m - val b by omega]
  · rw [addBack_of_le _ hle, if_neg (by omega), if_pos hle, Int.toNat_natCast]

end Modsub

/-- Settles O36: the rule's words are the n digits of the difference, with M added back once if it is negative. -/
theorem modsubAddsBackOnce : Obligations.ModsubAddsBackOnce := by
  intro s k sz w rd ra rb rc hready hw hrd hra hrb hrc
  refine ⟨by simp [encode_toNat, Instr.fields, Opcode.code], ?_⟩
  rw [← digitCount_of_code hw] at hrd hra hrb hrc ⊢
  obtain ⟨t, hexec, hdone, hlanes⟩ :=
    runCommand_ternary hready (laneModsub (digitCount sz)) (sizeError_of_code hw) hrd hra hrb hrc
  refine ⟨t, hexec, hdone, fun l a b m hl hla hlb hlm ha hb hm => ?_⟩
  have hlane := hlanes l a b m hl hla hlb hlm ha hb hm
  refine ⟨fun h => ?_, fun hda hdb hdm hv => ?_, fun hda hdb hdm hv => ?_⟩
  · rwa [laneModsub_nonnorm h] at hlane
  · rwa [laneModsub_range ⟨hda, hdb, hdm⟩ hv] at hlane
  · rw [laneModsub_digits ⟨hda, hdb, hdm⟩ hv] at hlane
    exact hlane.holdsDigits

end Sys2Proof.Machine
end

section
/-! PROOFS. Scope: what a command that the host issues to an idle block does in its enabled lanes, as one step of a sequence
of commands (spec 10_state.md R50, R52; 20_memory.md R71 to R74; 70_reset_and_hazards.md R305). -/

namespace Sys2Proof.Machine

open Sys2Proof.Claims

/-! ### The instruction rule of every command -/

/-- The instruction rule that `exec` runs on the active lanes. -/
def laneRule : Instr → List (List Word) → LaneResult
  | .norm _ _ lx, ws => laneNorm lx.toNat (source ws 0)
  | .normclr _ _ lx, ws => laneNormclr lx.toNat (source ws 0)
  | .normsqr sz _ _, ws => laneNormsqr (digitCount sz) (source ws 0)
  | .normtop sz _ _, ws => laneNormtop (digitCount sz) (widthBits sz) (source ws 0)
  | .shl _ _ lx sh, ws => laneShl lx.toNat sh.toNat (source ws 0)
  | .shr _ _ lx sh, ws => laneShr lx.toNat sh.toNat (source ws 0)
  | .zero _ lx, _ => laneZero lx.toNat
  | .copy _ _ _, ws => laneCopy (source ws 0)
  | .cmpge _ _ _ _, ws => laneCmpge (source ws 0) (source ws 1)
  | .addmul sz _ _ _, ws => laneAddmul (digitCount sz) (source ws 0) (source ws 1) (source ws 2)
  | .amred sz _ _ _ _, ws => laneAmred (digitCount sz) (source ws 0) (source ws 1) (source ws 2)
  | .ams sz _ _ _ _, ws => laneAms (digitCount sz) (source ws 0) (source ws 1) (source ws 2)
  | .modsub sz _ _ _ _, ws => laneModsub (digitCount sz) (source ws 0) (source ws 1) (source ws 2)
  | .estq _ _ _, ws => laneEstq (source ws 0) (source ws 1)
  | .mreduce _ _ lx lm, ws => laneMreduce lx.toNat lm.toNat (source ws 0) (source ws 1)
  | .montfactor _ _, ws => laneMontfactor (source ws 0)
  | .montrr sz _ _, ws => laneMontrr (digitCount sz) (source ws 0)

/-- A command's meaning is its instruction rule, run on its operands. -/
theorem exec_eq_laneRule (i : Instr) (s : State) : exec i s = runCommand (shape i) (laneRule i) s := by cases i <;> rfl

/-- What the command gives lane `l` in the state `s`. -/
abbrev instrResult (s : State) (i : Instr) (l : Nat) : LaneResult := laneResult s (shape i) (laneRule i) l

/-! ### One issued command -/

/-- `t` is `s` after the idle block has run an issued command to its normal completion, as far as the commands that follow
and the enabled lanes can tell. -/
structure Ran (s t : State) (i : Instr) : Prop where
  idle : Idle t
  cfg : t.cfg = s.cfg
  laneMask : t.laneMask = s.laneMask
  written : ∀ l j, Enabled s l → j < (shape i).dst.len →
    t.word ((shape i).dst.row + j) l = resultWord (instrResult s i l) j
  kept : ∀ r l, Enabled s l → (r < (shape i).dst.row ∨ (shape i).dst.row + (shape i).dst.len ≤ r) →
    t.word r l = s.word r l
  recorded : ∀ u w l, Enabled s l → (FaultEntry.command u w l ∈ t.faults ↔
    FaultEntry.command u w l ∈ s.faults ∨ w = encode i ∧ instrResult s i l = .error u)

/-- Taking up a command changes no word of DM, so no lane's result. -/
theorem laneResult_issued (s : State) (cmd : CmdWord) (sh : Shape) (rule : List (List Word) → LaneResult) (l : Nat) :
    laneResult (s.issued cmd) sh rule l = laneResult s sh rule l := by
  rw [laneResult, laneResult,
    sourceWords_congr (s := s.issued cmd) (s' := s) (l := l) (l' := l) sh.srcs fun _ _ _ _ => rfl]

/-- Issuing a command that passes its checks runs it. -/
theorem issue_ran {s : State} {i : Instr} (hidle : Idle s) (hcheck : (shape i).check s.cfg.rows = none) :
    ∃ t, issue i s = .next t ∧ Ran s t i := by
  obtain ⟨hbusy, -, hm⟩ := hidle
  have hready : Ready (s.issued (encode i)) ⟨encode i, s.laneMask⟩ := ⟨rfl, hm⟩
  have hrun : issue i s =
      .next (((s.issued (encode i)).execute ⟨encode i, s.laneMask⟩ (shape i) (laneRule i)).complete none) := by
    rw [issue_eq i hbusy, coreStep_of_ok hready.1 (decode_encode i), exec_eq_laneRule,
      runCommand_of_ok (laneRule i) hready.1 hcheck]
  refine ⟨_, hrun, ?_⟩
  exact {
    idle := ⟨rfl, rfl, wf_writeRegion _ _ _ _ hm⟩
    cfg := rfl
    laneMask := rfl
    written := fun l j hl hj => (word_execute hready.2 hj hl.1 hl.2).trans (by rw [laneResult_issued])
    kept := fun r l hl hr => word_execute_other (s := s.issued (encode i)) hl.1 (.inr hr)
    recorded := fun u w l hl => by
      refine (mem_execute_faults (s.issued (encode i)) _ _ _ _).trans (or_congr_right ⟨?_, ?_⟩)
      · rintro ⟨l', -, -, u', hu, he⟩
        cases he
        exact ⟨rfl, (laneResult_issued s _ _ _ _).symm.trans hu⟩
      · rintro ⟨rfl, hu⟩
        exact ⟨l, hl.1, hl.2, u, by rw [laneResult_issued]; exact hu, rfl⟩ }

/-! ### Sequences of commands -/

theorem issueAll_cons {i : Instr} {s t : State} (is : List Instr) (h : issue i s = .next t) :
    issueAll (i :: is) s = issueAll is t := by
  rw [issueAll, h]

theorem issueAll_append {is : List Instr} {s t : State} (js : List Instr) (h : issueAll is s = .next t) :
    issueAll (is ++ js) s = issueAll js t := by
  induction is generalizing s with
  | nil => cases h; rfl
  | cons i is ih =>
    rw [issueAll] at h
    rw [List.cons_append, issueAll]
    cases hi : issue i s with
    | next s' => rw [hi] at h; exact ih h
    | fault f => rw [hi] at h; cases h
    | refused r => rw [hi] at h; cases h

theorem laneClean_trans {s₁ s₂ s₃ : State} {l : Nat} (h₁ : LaneClean s₁ s₂ l) (h₂ : LaneClean s₂ s₃ l) :
    LaneClean s₁ s₃ l := fun u w h => h₁ u w (h₂ u w h)

/-! ### Digit arrays in a lane -/

/-- Lane `l` of the `n` rows from `r` on holds the digits `a`. -/
structure Stored (s : State) (n : Nat) (r : Row) (l : Nat) (a : List Word) : Prop where
  length : a.length = n
  digits : AllDigits a
  present : Present s r l a

namespace Stored

variable {s : State} {n : Nat} {r : Row} {l : Nat} {a : List Word}

theorem regionWords (h : Stored s n r l a) : s.regionWords l (region r n).row (region r n).len = some a :=
  regionWords_of_present h.length h.present

theorem of_regionWords (h : s.regionWords l (region r n).row (region r n).len = some a) (hd : AllDigits a) :
    Stored s n r l a := by
  obtain ⟨hlen, hwords⟩ := (regionWords_eq_some_iff s l n r.toNat a).mp h
  exact ⟨hlen, hd, fun i hi => hwords i (hlen ▸ hi)⟩

theorem digitSum_lt (h : Stored s n r l a) : digitSum a < 2 ^ (52 * n) := h.length ▸ Machine.digitSum_lt h.digits

theorem holdsDigits {v : Nat} (h : Stored s n r l (Machine.digits v n)) : HoldsDigits s r.toNat l n v :=
  holdsDigits_of_words fun i hi => by rw [h.present i (by rwa [h.length]), digits_getElem?, if_pos hi]

/-- An array of two halves. -/
theorem append {n' : Nat} {r' : Row} {b : List Word} (h : Stored s n r l a) (h' : Stored s n' r' l b)
    (hr : r'.toNat = r.toNat + n) : Stored s (n + n') r l (a ++ b) where
  length := by rw [List.length_append, h.length, h'.length]
  digits := List.forall_mem_append.mpr ⟨h.digits, h'.digits⟩
  present := fun i hi => by
    rw [List.length_append, h.length, h'.length] at hi
    obtain hlow | hhigh := Nat.lt_or_ge i n
    · rw [h.present i (by rwa [h.length]), List.getElem?_append_left (by rwa [h.length])]
    · rw [List.getElem?_append_right (by rwa [h.length]), h.length, ← h'.present _ (by rw [h'.length]; omega), hr,
        Nat.add_assoc, Nat.add_sub_cancel' hhigh]

end Stored

theorem allDigits_digits (v n : Nat) : AllDigits (digits v n) := (normalised_iff _).mp (digits_normalised v n)

theorem allDigits_zeros (n : Nat) : AllDigits (List.replicate n 0#64) := fun w hw => by
  rw [List.eq_of_mem_replicate hw]
  decide

theorem digitSum_zeros (n : Nat) : digitSum (List.replicate n 0#64) = 0 := by
  rw [digitSum_eq_val, val_eq_zero_iff]
  exact fun w => List.eq_of_mem_replicate

theorem digitSum_digits {v n : Nat} (h : v < 2 ^ (52 * n)) : digitSum (digits v n) = v := by
  rw [digitSum_eq_val, val_digits_of_lt h]

/-! ### What a lane keeps, and what it ends with -/

namespace Ran

variable {s t : State} {i : Instr} (h : Ran s t i)
include h

theorem inRange {r : Row} {n : Nat} (hr : InRange s r n) : InRange t r n := by rwa [InRange, h.cfg]

theorem enabled {l : Nat} (hl : Enabled s l) : Enabled t l := by rwa [Enabled, h.cfg, h.laneMask]

/-- A region apart from the destination keeps its words. -/
theorem word_of_apart {rd r : Row} {len n l : Nat} (hdst : (shape i).dst = region rd len) (hl : Enabled s l)
    (hap : Apart rd len r n) {j : Nat} (hj : j < n) : t.word (r.toNat + j) l = s.word (r.toNat + j) l := by
  refine h.kept _ l hl ?_
  rw [hdst]
  show r.toNat + j < rd.toNat ∨ rd.toNat + len ≤ r.toNat + j
  omega

theorem stored_iff {rd r : Row} {len n l : Nat} {a : List Word} (hdst : (shape i).dst = region rd len) (hl : Enabled s l)
    (hap : Apart rd len r n) : Stored t n r l a ↔ Stored s n r l a := by
  constructor
  all_goals
    rintro ⟨rfl, hd, ha⟩
    exact ⟨rfl, hd, fun j hj => by simpa only [h.word_of_apart hdst hl hap hj] using ha j hj⟩

/-- A lane whose sources are all written and whose rule gives an array of digits ends with it, without a fault. -/
theorem stored_of_ok {rd : Row} {len l : Nat} {ws : List (List Word)} {out : List Word}
    (hdst : (shape i).dst = region rd len) (hl : Enabled s l)
    (hsrcs : List.Forall₂ (fun g a => s.regionWords l g.row g.len = some a) (shape i).srcs ws)
    (hout : laneRule i ws = .ok out) (hlen : out.length = len) (hd : AllDigits out) :
    LaneClean s t l ∧ Stored t len rd l out := by
  have hres : instrResult s i l = .ok out := (laneResult_of_sources _ (sourceWords_of_forall₂ hsrcs)).trans hout
  refine ⟨fun u w he => ((h.recorded u w l hl).mp he).resolve_right fun ⟨_, hu⟩ => ?_, hlen, hd, fun j hj => ?_⟩
  · rw [hres] at hu
    cases hu
  · have := h.written l j hl (by rw [hdst]; exact hlen ▸ hj)
    rwa [hdst, hres] at this

end Ran

end Sys2Proof.Machine
end

section
/-! PROOFS. Scope: multiplication in the Montgomery domain by sequences of commands (spec 30_encoding.md R113;
42_montgomery.md R187 to R189). -/

namespace Sys2Proof.Machine

open Sys2Proof.Claims

/-! ### The commands of the sequences -/

theorem lengthError_of_pos {lx : Len} (h : 0 < lx.toNat) : lengthError lx = none :=
  lengthError_of_ne (by rintro rfl; exact absurd h (by decide))

theorem lenOf_toNat {n : Nat} (h : n < 256) : (lenOf n).toNat = n := by
  rw [lenOf, BitVec.toNat_ofNat, Nat.mod_eq_of_lt h]

theorem zero_dst (rd : Row) {lx : Len} {n : Nat} (hlx : lx.toNat = n) : (shape (.zero rd lx)).dst = region rd n := by
  rw [shape, hlx]

theorem issue_zero {s : State} {rd : Row} {lx : Len} {n : Nat} (hidle : Idle s) (hpos : 0 < n) (hlx : lx.toNat = n)
    (hrd : InRange s rd n) : ∃ t, issue (.zero rd lx) s = .next t ∧ Ran s t (.zero rd lx) := by
  subst hlx
  exact issue_ran hidle ((check_eq_none_iff _ _).mpr ⟨lengthError_of_pos hpos, hrd, nofun⟩)

theorem Ran.zero_stored {s t : State} {rd : Row} {lx : Len} {n l : Nat} (h : Ran s t (.zero rd lx)) (hlx : lx.toNat = n)
    (hl : Enabled s l) : LaneClean s t l ∧ Stored t n rd l (List.replicate n 0#64) := by
  subst hlx
  exact h.stored_of_ok rfl hl .nil rfl List.length_replicate (allDigits_zeros _)

theorem issue_copy {s : State} {rd ra : Row} {lx : Len} {n : Nat} (hidle : Idle s) (hpos : 0 < n) (hlx : lx.toNat = n)
    (hrd : InRange s rd n) (hra : InRange s ra n) :
    ∃ t, issue (.copy rd ra lx) s = .next t ∧ Ran s t (.copy rd ra lx) := by
  subst hlx
  exact issue_ran hidle
    ((check_eq_none_iff _ _).mpr ⟨lengthError_of_pos hpos, hrd, List.forall_mem_singleton.mpr hra⟩)

theorem Ran.copy_stored {s t : State} {rd ra : Row} {lx : Len} {n l : Nat} {a : List Word}
    (h : Ran s t (.copy rd ra lx)) (hlx : lx.toNat = n) (hl : Enabled s l) (ha : Stored s n ra l a) :
    LaneClean s t l ∧ Stored t n rd l a := by
  subst hlx
  exact h.stored_of_ok rfl hl (.cons ha.regionWords .nil) rfl ha.length ha.digits

/-- A product of two numbers of n digits has 2n digits. -/
theorem mul_lt_of_digits {n x y : Nat} (hx : x < 2 ^ (52 * n)) (hy : y < 2 ^ (52 * n)) : x * y < 2 ^ (52 * (2 * n)) :=
  (Nat.mul_lt_mul'' hx hy).trans_eq (by rw [← pow_add, ← Nat.two_mul, Nat.mul_left_comm])

theorem issue_addmul {s : State} {sz : SizeCode} {w : Width} {rd ra rb : Row} (hidle : Idle s)
    (hw : Width.ofCode sz = some w) (hrd : InRange s rd (2 * digitCount sz)) (hra : InRange s ra (digitCount sz))
    (hrb : InRange s rb (digitCount sz)) :
    ∃ t, issue (.addmul sz rd ra rb) s = .next t ∧ Ran s t (.addmul sz rd ra rb) :=
  issue_ran hidle (check_ternary (sizeError_of_code hw) hrd hrd hra hrb)

/-- Multiplying two arrays of n digits into a clear accumulator. -/
theorem Ran.addmul_stored {s t : State} {sz : SizeCode} {rd ra rb : Row} {l : Nat} {a b : List Word}
    (h : Ran s t (.addmul sz rd ra rb)) (hl : Enabled s l)
    (hacc : Stored s (2 * digitCount sz) rd l (List.replicate (2 * digitCount sz) 0#64))
    (ha : Stored s (digitCount sz) ra l a) (hb : Stored s (digitCount sz) rb l b) :
    LaneClean s t l ∧ Stored t (2 * digitCount sz) rd l (digits (digitSum a * digitSum b) (2 * digitCount sz)) := by
  have hv := mul_lt_of_digits ha.digitSum_lt hb.digitSum_lt
  have hrule := laneAddmul_digits (n := digitCount sz) ⟨hacc.digits, ha.digits, hb.digits⟩
    (by rwa [digitSum_zeros, Nat.zero_add, show 104 * digitCount sz = 52 * (2 * digitCount sz) by omega])
  rw [digitSum_zeros, Nat.zero_add] at hrule
  exact h.stored_of_ok rfl hl (.cons hacc.regionWords (.cons ha.regionWords (.cons hb.regionWords .nil))) hrule
    (digits_length _ _) (allDigits_digits _ _)

theorem issue_amred {s : State} {sz : SizeCode} {w : Width} {rd ra rb rc : Row} (hidle : Idle s)
    (hw : Width.ofCode sz = some w) (hrd : InRange s rd (digitCount sz)) (hra : InRange s ra (2 * digitCount sz))
    (hrb : InRange s rb (digitCount sz)) (hrc : InRange s rc 1) :
    ∃ t, issue (.amred sz rd ra rb rc) s = .next t ∧ Ran s t (.amred sz rd ra rb rc) :=
  issue_ran hidle (check_ternary (sizeError_of_code hw) hrd hra hrb hrc)

/-- Lane `l` holds the modulus `m` and its `k0`, as digits (R241, R306). -/
structure ModulusStored (s : State) (n : Nat) (rm rk : Row) (l : Nat) (m : List Word) (k0 : Word) : Prop where
  modulus : Stored s n rm l m
  factor : Stored s 1 rk l [k0]
  inverse : NegatedInverse k0.toNat (digitSum m)

/-- A command whose destination is apart from a modulus and its `k0` keeps them. -/
theorem ModulusStored.kept {s t : State} {i : Instr} {n : Nat} {rd rm rk : Row} {len l : Nat} {m : List Word} {k0 : Word}
    (h : ModulusStored s n rm rk l m k0) (hran : Ran s t i) (hdst : (shape i).dst = region rd len) (hl : Enabled s l)
    (hapm : Apart rd len rm n) (hapk : Apart rd len rk 1) : ModulusStored t n rm rk l m k0 where
  modulus := (hran.stored_iff hdst hl hapm).mpr h.modulus
  factor := (hran.stored_iff hdst hl hapk).mpr h.factor
  inverse := h.inverse

/-- Reducing an accumulator of 2n digits (R185). -/
theorem Ran.amred_stored {s t : State} {sz : SizeCode} {rd ra rm rk : Row} {l : Nat} {acc m : List Word} {k0 : Word}
    (h : Ran s t (.amred sz rd ra rm rk)) (hl : Enabled s l) (hm : ModulusStored s (digitCount sz) rm rk l m k0)
    (hacc : Stored s (2 * digitCount sz) ra l acc) :
    ∃ y, MakesExact (2 ^ (52 * digitCount sz)) (digitSum m) (digitSum acc) y ∧
      ((digitSum acc + y * digitSum m) / 2 ^ (52 * digitCount sz) < 2 ^ (52 * digitCount sz) →
        LaneClean s t l ∧ Stored t (digitCount sz) rd l
          (digits ((digitSum acc + y * digitSum m) / 2 ^ (52 * digitCount sz)) (digitCount sz))) := by
  obtain ⟨y, hy, hrule⟩ := almostReduce_eq (digitCount sz) (digitSum acc) hm.inverse
  refine ⟨y, hy, fun hv => ?_⟩
  rw [if_neg (Nat.not_le.mpr hv)] at hrule
  have hlane : laneAmred (digitCount sz) acc m [k0] = almostReduce (digitCount sz) (digitSum acc) m [k0] := by
    rw [digitSum_eq_val]
    exact if_pos ((normalised_and_iff acc m [k0]).mpr ⟨hacc.digits, hm.modulus.digits, hm.factor.digits⟩)
  exact h.stored_of_ok rfl hl
    (.cons hacc.regionWords (.cons hm.modulus.regionWords (.cons hm.factor.regionWords .nil))) (hlane.trans hrule)
    (digits_length _ _) (allDigits_digits _ _)

/-! ### MMUL -/

/-- The regions of MMUL lie in DM, and the accumulator is apart from the regions that are read after ZERO. -/
structure MmulLayout (s : State) (n : Nat) (res ra rb rm rk racc : Row) : Prop where
  res : InRange s res n
  a : InRange s ra n
  b : InRange s rb n
  modulus : InRange s rm n
  factor : InRange s rk 1
  acc : InRange s racc (2 * n)
  apartA : Apart racc (2 * n) ra n
  apartB : Apart racc (2 * n) rb n
  apartModulus : Apart racc (2 * n) rm n
  apartFactor : Apart racc (2 * n) rk 1

/-- The three commands of MMUL, one after another. -/
structure MmulRan (s s₁ s₂ t : State) (sz : SizeCode) (res ra rb rm rk racc : Row) : Prop where
  zero : Ran s s₁ (.zero racc (lenOf (2 * digitCount sz)))
  addmul : Ran s₁ s₂ (.addmul sz racc ra rb)
  amred : Ran s₂ t (.amred sz res racc rm rk)

section Mmul

variable {s s₁ s₂ t : State} {sz : SizeCode} {w : Width} {res ra rb rm rk racc : Row} {l : Nat}

theorem digitCount_pos (hw : Width.ofCode sz = some w) : 0 < digitCount sz :=
  digitCount_of_code hw ▸ width_digits_pos w

theorem lenOf_digitCount (hw : Width.ofCode sz = some w) : (lenOf (digitCount sz)).toNat = digitCount sz :=
  lenOf_toNat (by have := width_digits_le w; rw [digitCount_of_code hw]; omega)

theorem lenOf_two_digitCount (hw : Width.ofCode sz = some w) :
    (lenOf (2 * digitCount sz)).toNat = 2 * digitCount sz :=
  lenOf_toNat (by have := width_digits_le w; rw [digitCount_of_code hw]; omega)

variable (hw : Width.ofCode sz = some w) (hlay : MmulLayout s (digitCount sz) res ra rb rm rk racc)
include hw hlay

theorem issueAll_mmul (hidle : Idle s) :
    ∃ s₁ s₂ t, issueAll (expandMmul sz res ra rb rm rk racc) s = .next t ∧ MmulRan s s₁ s₂ t sz res ra rb rm rk racc := by
  have hpos := digitCount_pos hw
  obtain ⟨s₁, hissue₁, h₁⟩ := issue_zero hidle (by omega) (lenOf_two_digitCount hw) hlay.acc
  obtain ⟨s₂, hissue₂, h₂⟩ := issue_addmul h₁.idle hw (h₁.inRange hlay.acc) (h₁.inRange hlay.a) (h₁.inRange hlay.b)
  have hinRange {r : Row} {n : Nat} (hr : InRange s r n) : InRange s₂ r n := h₂.inRange (h₁.inRange hr)
  obtain ⟨t, hissue₃, h₃⟩ := issue_amred h₂.idle hw (hinRange hlay.res) (hinRange hlay.acc) (hinRange hlay.modulus)
    (hinRange hlay.factor)
  refine ⟨s₁, s₂, t, ?_, h₁, h₂, h₃⟩
  rw [expandMmul, issueAll_cons _ hissue₁, issueAll_cons _ hissue₂, issueAll_cons _ hissue₃, issueAll]

variable (h : MmulRan s s₁ s₂ t sz res ra rb rm rk racc) (hl : Enabled s l)
include h hl

/-- After ZERO and ADDMUL the accumulator holds the product. -/
theorem product_stored {a b : List Word} (ha : Stored s (digitCount sz) ra l a) (hb : Stored s (digitCount sz) rb l b) :
    LaneClean s s₂ l ∧
      Stored s₂ (2 * digitCount sz) racc l (digits (digitSum a * digitSum b) (2 * digitCount sz)) := by
  have hlen := lenOf_two_digitCount hw
  have hdst := zero_dst racc hlen
  obtain ⟨hclean₁, hacc⟩ := h.zero.zero_stored hlen hl
  obtain ⟨hclean₂, hprod⟩ := h.addmul.addmul_stored (h.zero.enabled hl) hacc
    ((h.zero.stored_iff hdst hl hlay.apartA).mpr ha) ((h.zero.stored_iff hdst hl hlay.apartB).mpr hb)
  exact ⟨laneClean_trans hclean₁ hclean₂, hprod⟩

/-- ZERO and ADDMUL keep the modulus. -/
theorem modulus_kept {m : List Word} {k0 : Word} (hm : ModulusStored s (digitCount sz) rm rk l m k0) :
    ModulusStored s₂ (digitCount sz) rm rk l m k0 := by
  have hm₁ := hm.kept h.zero (zero_dst racc (lenOf_two_digitCount hw)) hl hlay.apartModulus hlay.apartFactor
  exact hm₁.kept h.addmul rfl (h.zero.enabled hl) hlay.apartModulus hlay.apartFactor

/-- MMUL reduces the product of two arrays whose product is small enough (R186). -/
theorem mmul_stored {a b m : List Word} {k0 : Word} (hm : ModulusStored s (digitCount sz) rm rk l m k0)
    (ha : Stored s (digitCount sz) ra l a) (hb : Stored s (digitCount sz) rb l b)
    (htwo : 2 * digitSum m ≤ 2 ^ (52 * digitCount sz))
    (hlt : digitSum a * digitSum b < 2 ^ (52 * digitCount sz) * digitSum m) :
    ∃ y, MakesExact (2 ^ (52 * digitCount sz)) (digitSum m) (digitSum a * digitSum b) y ∧ LaneClean s t l ∧
      Stored t (digitCount sz) res l
        (digits ((digitSum a * digitSum b + y * digitSum m) / 2 ^ (52 * digitCount sz)) (digitCount sz)) := by
  obtain ⟨hclean, hprod⟩ := product_stored hw hlay h hl ha hb
  have hl₂ := h.addmul.enabled (h.zero.enabled hl)
  obtain ⟨y, hy, hfits⟩ := h.amred.amred_stored hl₂ (modulus_kept hw hlay h hl hm) hprod
  rw [digitSum_digits (mul_lt_of_digits ha.digitSum_lt hb.digitSum_lt)] at hy hfits
  obtain ⟨hclean', hres⟩ := hfits ((hy.quotient_lt hlt).trans_le (by omega))
  exact ⟨y, hy, laneClean_trans hclean hclean', hres⟩

end Mmul

/-! ### A modulus of W bits -/

section Context

variable {s : State} {sz : SizeCode} {w : Width} {rm rk : Row} {l : Nat} {m : List Word} {k0 : Word}
  (hw : Width.ofCode sz = some w) (hctx : Context w m k0)
include hw hctx

/-- A modulus of W bits leaves two bits of headroom below R (R8). -/
theorem four_mul_modulus_le : 4 * digitSum m ≤ 2 ^ (52 * digitCount sz) := by
  obtain ⟨-, -, hlt, -, -⟩ := hctx
  rw [digitCount_of_code hw]
  calc 4 * digitSum m
    _ ≤ 2 ^ 2 * 2 ^ w.bits := Nat.mul_le_mul_left 4 hlt.le
    _ = 2 ^ (2 + w.bits) := (pow_add 2 2 w.bits).symm
    _ ≤ 2 ^ (52 * w.digits) := Nat.pow_le_pow_right Nat.two_pos (by have := width_headroom w; omega)

theorem modulusStored_of_context (hm : Present s rm l m) (hk : Present s rk l [k0]) :
    ModulusStored s (digitCount sz) rm rk l m k0 := by
  obtain ⟨hlen, hdm, -, hk0, hinv⟩ := hctx
  exact ⟨⟨by rw [digitCount_of_code hw, hlen], hdm, hm⟩, ⟨rfl, List.forall_mem_singleton.mpr hk0, hk⟩, hinv⟩

end Context

/-- Settles O37: the product is below `4·M²`, hence below `R·M`, so MMUL's quotient is below `2·M`. -/
theorem mmulStaysAlmostReduced : Obligations.MmulStaysAlmostReduced := by
  intro s sz w res ra rb rm rk racc hidle hw
  rw [← digitCount_of_code hw]
  intro hres hra hrb hrm hrk hracc hapa hapb hapm hapk
  have hlay : MmulLayout s (digitCount sz) res ra rb rm rk racc :=
    ⟨hres, hra, hrb, hrm, hrk, hracc, hapa, hapb, hapm, hapk⟩
  obtain ⟨s₁, s₂, t, hissue, hran⟩ := issueAll_mmul hw hlay hidle
  refine ⟨t, hissue, hran.amred.idle, fun l a b m k0 hl hctx hla hlb hda hdb halt hblt ha hb hm hk => ?_⟩
  have hheadroom := four_mul_modulus_le hw hctx
  have hlt : digitSum a * digitSum b < 2 ^ (52 * digitCount sz) * digitSum m :=
    calc digitSum a * digitSum b
      _ < 2 * digitSum m * (2 * digitSum m) := Nat.mul_lt_mul'' halt hblt
      _ = 4 * digitSum m * digitSum m := by ring
      _ ≤ 2 ^ (52 * digitCount sz) * digitSum m := Nat.mul_le_mul_right _ hheadroom
  obtain ⟨y, hy, hclean, hstored⟩ := mmul_stored hw hlay hran hl (modulusStored_of_context hw hctx hm hk)
    ⟨hla, hda, ha⟩ ⟨hlb, hdb, hb⟩ (by omega) hlt
  exact ⟨hclean, _, hstored.holdsDigits, Nat.two_mul (digitSum m) ▸ hy.quotient_lt hlt, hy.quotient_modEq⟩

/-! ### FROMMONT -/

/-- The three commands of FROMMONT, one after another. -/
structure FrommontRan (s s₁ s₂ t : State) (sz : SizeCode) (res ra rm rk racc : Row) : Prop where
  copy : Ran s s₁ (.copy racc ra (lenOf (digitCount sz)))
  zero : Ran s₁ s₂ (.zero (racc + BitVec.ofNat 16 (digitCount sz)) (lenOf (digitCount sz)))
  amred : Ran s₂ t (.amred sz res racc rm rk)

/-- The row of the accumulator's upper half, where the accumulator lies in DM (assumption log 16). -/
theorem upper_row {s : State} {racc : Row} {n : Nat} (hpos : 0 < n) (hracc : InRange s racc (2 * n)) :
    (racc + BitVec.ofNat 16 n).toNat = racc.toNat + n := by
  have hrows := Config.rows_le s.cfg
  have hend : racc.toNat + 2 * n ≤ s.cfg.rows := hracc
  rw [BitVec.toNat_add, BitVec.toNat_ofNat, Nat.add_mod_mod, Nat.mod_eq_of_lt (by omega)]

section Frommont

variable {s s₁ s₂ t : State} {sz : SizeCode} {w : Width} {res ra rm rk racc : Row} {l : Nat}
  (hw : Width.ofCode sz = some w) (hracc : InRange s racc (2 * digitCount sz))
include hw hracc

theorem issueAll_frommont (hidle : Idle s) (hres : InRange s res (digitCount sz)) (hra : InRange s ra (digitCount sz))
    (hrm : InRange s rm (digitCount sz)) (hrk : InRange s rk 1) :
    ∃ s₁ s₂ t, issueAll (Pseudo.expand (.frommont sz res ra rm rk racc)) s = .next t ∧
      FrommontRan s s₁ s₂ t sz res ra rm rk racc := by
  have hpos := digitCount_pos hw
  have hlen := lenOf_digitCount hw
  have hupper := upper_row hpos hracc
  have hend : racc.toNat + 2 * digitCount sz ≤ s.cfg.rows := hracc
  have hlow : InRange s racc (digitCount sz) := by rw [InRange]; omega
  have hhigh : InRange s (racc + BitVec.ofNat 16 (digitCount sz)) (digitCount sz) := by rw [InRange]; omega
  obtain ⟨s₁, hissue₁, h₁⟩ := issue_copy hidle hpos hlen hlow hra
  obtain ⟨s₂, hissue₂, h₂⟩ := issue_zero h₁.idle hpos hlen (h₁.inRange hhigh)
  have hinRange {r : Row} {n : Nat} (hr : InRange s r n) : InRange s₂ r n := h₂.inRange (h₁.inRange hr)
  obtain ⟨t, hissue₃, h₃⟩ := issue_amred h₂.idle hw (hinRange hres) (hinRange hracc) (hinRange hrm) (hinRange hrk)
  refine ⟨s₁, s₂, t, ?_, h₁, h₂, h₃⟩
  rw [Pseudo.expand, issueAll_cons _ hissue₁, issueAll_cons _ hissue₂, issueAll_cons _ hissue₃, issueAll]

/-- FROMMONT reduces the array itself. -/
theorem frommont_stored {a m : List Word} {k0 : Word} (h : FrommontRan s s₁ s₂ t sz res ra rm rk racc)
    (hl : Enabled s l) (hm : ModulusStored s (digitCount sz) rm rk l m k0) (ha : Stored s (digitCount sz) ra l a)
    (hapm : Apart racc (2 * digitCount sz) rm (digitCount sz)) (hapk : Apart racc (2 * digitCount sz) rk 1) :
    ∃ y, MakesExact (2 ^ (52 * digitCount sz)) (digitSum m) (digitSum a) y ∧
      ((digitSum a + y * digitSum m) / 2 ^ (52 * digitCount sz) < 2 ^ (52 * digitCount sz) →
        LaneClean s t l ∧ Stored t (digitCount sz) res l
          (digits ((digitSum a + y * digitSum m) / 2 ^ (52 * digitCount sz)) (digitCount sz))) := by
  have hlen := lenOf_digitCount hw
  have hupper := upper_row (digitCount_pos hw) hracc
  have hdst₁ : (shape (.copy racc ra (lenOf (digitCount sz)))).dst = region racc (digitCount sz) := by
    rw [shape, hlen]
  have hdst₂ := zero_dst (racc + BitVec.ofNat 16 (digitCount sz)) hlen
  have hl₁ := h.copy.enabled hl
  obtain ⟨hclean₁, hlow⟩ := h.copy.copy_stored hlen hl ha
  obtain ⟨hclean₂, hhigh⟩ := h.zero.zero_stored hlen hl₁
  have hacc : Stored s₂ (2 * digitCount sz) racc l (a ++ List.replicate (digitCount sz) 0#64) := by
    rw [Nat.two_mul]
    exact ((h.zero.stored_iff hdst₂ hl₁ (.inr (by omega))).mpr hlow).append hhigh hupper
  have hsum : digitSum (a ++ List.replicate (digitCount sz) 0#64) = digitSum a := by
    have hzero := digitSum_zeros (digitCount sz)
    rw [digitSum_eq_val] at hzero
    rw [digitSum_eq_val, val_append, hzero, Nat.mul_zero, Nat.add_zero, digitSum_eq_val]
  have hm₂ : ModulusStored s₂ (digitCount sz) rm rk l m k0 :=
    (hm.kept h.copy hdst₁ hl (by omega) (by omega)).kept h.zero hdst₂ hl₁ (by omega) (by omega)
  obtain ⟨y, hy, hfits⟩ := h.amred.amred_stored (h.zero.enabled hl₁) hm₂ hacc
  rw [hsum] at hy hfits
  refine ⟨y, hy, fun hv => ?_⟩
  obtain ⟨hclean₃, hstored⟩ := hfits hv
  exact ⟨laneClean_trans hclean₁ (laneClean_trans hclean₂ hclean₃), hstored⟩

end Frommont

/-! ### TOMONT, then FROMMONT -/

/-- Into the Montgomery domain by `rr = r² mod m` and back again, in numbers: the last quotient is at most `m`, it is `a`
modulo `m`, and it is 0 where `a` is. -/
theorem quotient_roundTrip {r m a rr y z : Nat} (hcop : Nat.Coprime m r) (hmr : m ≤ r) (ha : a < m)
    (hrr : rr = r ^ 2 % m) (hy : MakesExact r m (a * rr) y) (hz : MakesExact r m ((a * rr + y * m) / r) z) :
    ((a * rr + y * m) / r + z * m) / r = a := by
  have hprod : a * rr < r * m := (Nat.mul_lt_mul'' ha (hrr ▸ Nat.mod_lt _ (Nat.zero_lt_of_lt ha))).trans_le
    (Nat.mul_le_mul_right m hmr)
  have hv : (a * rr + y * m) / r < r + m := (hy.quotient_lt hprod).trans_le (Nat.add_le_add_right hmr m)
  have hmod : ((a * rr + y * m) / r + z * m) / r ≡ a [MOD m] := by
    refine Nat.ModEq.cancel_right_of_coprime (hcop.pow_right 2) ?_
    calc ((a * rr + y * m) / r + z * m) / r * r ^ 2
      _ = ((a * rr + y * m) / r + z * m) / r * r * r := by ring
      _ ≡ (a * rr + y * m) / r * r [MOD m] := hz.quotient_modEq.mul_right r
      _ ≡ a * rr [MOD m] := hy.quotient_modEq
      _ ≡ a * r ^ 2 [MOD m] := (hrr ▸ Nat.mod_modEq (r ^ 2) m).mul_left a
  obtain hlt | heq := (hz.quotient_le hv).lt_or_eq
  · exact hmod.eq_of_lt_of_lt hlt ha
  · have ha0 : a = 0 := by
      rw [heq] at hmod
      have hself : m % m = a % m := hmod
      rwa [Nat.mod_self, Nat.mod_eq_of_lt ha, eq_comm] at hself
    have hv0 : (a * rr + y * m) / r = 0 := hy.quotient_zero hcop (by rw [ha0, Nat.zero_mul])
    rw [hz.quotient_zero hcop hv0, ha0]

/-- Settles O38: FROMMONT's quotient is that of the round trip, and MMUL's is almost reduced in between. -/
theorem montgomeryRoundTripIsExact : Obligations.MontgomeryRoundTripIsExact := by
  intro s sz w res rx ra rrr rm rk racc hidle hw
  rw [← digitCount_of_code hw]
  intro hres hrx hra hrrr hrm hrk hracc hapa haprr hapm hapk hxm hxk
  have hlay : MmulLayout s (digitCount sz) rx ra rrr rm rk racc :=
    ⟨hrx, hra, hrrr, hrm, hrk, hracc, hapa, haprr, hapm, hapk⟩
  obtain ⟨s₁, s₂, s₃, hissue, hto⟩ := issueAll_mmul hw hlay hidle
  have hinRange {r : Row} {n : Nat} (hr : InRange s r n) : InRange s₃ r n :=
    hto.amred.inRange (hto.addmul.inRange (hto.zero.inRange hr))
  obtain ⟨s₄, s₅, t, hissue', hfrom⟩ := issueAll_frommont hw (hinRange hracc) hto.amred.idle (hinRange hres)
    (hinRange hrx) (hinRange hrm) (hinRange hrk)
  refine ⟨t, (issueAll_append _ hissue).trans hissue', ?_⟩
  intro l a rr m k0 hl hctx hla hlrr hda hdrr halt hrr ha hprr hm hk
  have hheadroom := four_mul_modulus_le hw hctx
  have hmod := modulusStored_of_context hw hctx hm hk
  have hrrlt : digitSum rr < digitSum m := hrr ▸ Nat.mod_lt _ (Nat.zero_lt_of_lt halt)
  have hlt : digitSum a * digitSum rr < 2 ^ (52 * digitCount sz) * digitSum m :=
    (Nat.mul_lt_mul'' halt hrrlt).trans_le (Nat.mul_le_mul_right _ (by omega))
  obtain ⟨y, hy, hclean, hx⟩ := mmul_stored hw hlay hto hl hmod ⟨hla, hda, ha⟩ ⟨hlrr, hdrr, hprr⟩ (by omega) hlt
  have hl₂ := hto.addmul.enabled (hto.zero.enabled hl)
  have hmod₃ := (modulus_kept hw hlay hto hl hmod).kept hto.amred rfl hl₂ hxm hxk
  obtain ⟨z, hz, hfits⟩ := frommont_stored hw (hinRange hracc) hfrom (hto.amred.enabled hl₂) hmod₃ hx hapm hapk
  rw [digitSum_digits ((hy.quotient_lt hlt).trans_le (by omega))] at hz hfits
  rw [quotient_roundTrip (hmod.inverse.coprime _) (by omega) halt hrr hy hz] at hfits
  obtain ⟨hclean', hstored⟩ := hfits (by omega)
  rw [← hla, digits_digitSum hda] at hstored
  exact ⟨laneClean_trans hclean hclean', hstored.present⟩

/-! ### AMS and the commands it stands for -/

theorem sourceWords_cons_none {s : State} {l : Nat} {gs : List Region} (g : Region) (h : s.sourceWords l gs = none) :
    s.sourceWords l (g :: gs) = none := by
  obtain ⟨g', hg', hbot⟩ := (sourceWords_eq_none_iff s l gs).mp h
  exact (sourceWords_eq_none_iff s l (g :: gs)).mpr ⟨g', List.mem_cons_of_mem g hg', hbot⟩

theorem exists_of_sourceWords_cons {s : State} {l : Nat} {g : Region} {gs : List Region} {ws : List (List Word)}
    (h : s.sourceWords l (g :: gs) = some ws) :
    ∃ a as, ws = a :: as ∧ s.regionWords l g.row g.len = some a ∧ s.sourceWords l gs = some as := by
  rw [State.sourceWords] at h
  split at h
  · next a as ha has => cases h; exact ⟨a, as, rfl, ha, has⟩
  · cases h

/-- The written sources and the rule behind a result without a fault. -/
theorem exists_sources_of_ok {s : State} {sh : Shape} {rule : List (List Word) → LaneResult} {l : Nat} {out : List Word}
    (h : laneResult s sh rule l = .ok out) : ∃ ws, s.sourceWords l sh.srcs = some ws ∧ rule ws = .ok out := by
  rw [laneResult] at h
  split at h
  · cases h
  · next ws hws => exact ⟨ws, hws, h⟩

theorem resultWord_of_not_ok {r : LaneResult} (h : ∀ out, r ≠ .ok out) (j : Nat) : resultWord r j = none := by
  cases r with
  | ok out => exact absurd rfl (h out)
  | error u => rfl

section Square

variable {s : State} {sz : SizeCode} {l : Nat} {ra : Row} {out : List Word}

/-- AMS ends without a fault only where its operand is an array of digits. -/
theorem stored_of_ams_ok {res rm rk : Row} (h : instrResult s (.ams sz res ra rm rk) l = .ok out) :
    ∃ a, Stored s (digitCount sz) ra l a := by
  obtain ⟨ws, hsrcs, hrule⟩ := exists_sources_of_ok h
  obtain ⟨a, as, rfl, ha, -⟩ := exists_of_sourceWords_cons hsrcs
  refine ⟨a, .of_regionWords ha ?_⟩
  by_contra hd
  have hfault : laneRule (.ams sz res ra rm rk) (a :: as) = .error .nonnorm :=
    if_neg (mt (normalised_and_iff a _ _).mp fun hall => hd hall.1)
  rw [hfault] at hrule
  cases hrule

/-- So does ADDMUL. -/
theorem stored_of_addmul_ok {racc rb : Row} (h : instrResult s (.addmul sz racc ra rb) l = .ok out) :
    ∃ a, Stored s (digitCount sz) ra l a := by
  obtain ⟨ws, hsrcs, hrule⟩ := exists_sources_of_ok h
  obtain ⟨acc, as, rfl, -, hsrcs'⟩ := exists_of_sourceWords_cons hsrcs
  obtain ⟨a, as', rfl, ha, -⟩ := exists_of_sourceWords_cons hsrcs'
  refine ⟨a, .of_regionWords ha ?_⟩
  by_contra hd
  have hfault : laneRule (.addmul sz racc ra rb) (acc :: a :: as') = .error .nonnorm :=
    laneAddmul_nonnorm fun hall => hd hall.2.1
  rw [hfault] at hrule
  cases hrule

/-- On the 2n digits of the square AMRED's rule is AMS's, faults included. -/
theorem laneAmred_square {n : Nat} {a : List Word} (m k0 : List Word) (hlen : a.length = n) (ha : AllDigits a) :
    laneAmred n (digits (digitSum a * digitSum a) (2 * n)) m k0 = laneAms n a m k0 := by
  have hlt : digitSum a < 2 ^ (52 * n) := hlen ▸ digitSum_lt ha
  rw [laneAmred, laneAms, digits_normalised, (normalised_iff a).mpr ha, val_digits_of_lt (mul_lt_of_digits hlt hlt),
    digitSum_eq_val]

variable {s₁ s₂ t : State} {w : Width} {res rm rk racc : Row} (hw : Width.ofCode sz = some w)
  (hlay : MmulLayout s (digitCount sz) res ra ra rm rk racc) (h : MmulRan s s₁ s₂ t sz res ra ra rm rk racc)
  (hl : Enabled s l)
include hw hlay h hl

/-- Where the operand is an array of digits, AMRED after ZERO and ADDMUL has AMS's result. -/
theorem instrResult_square {a : List Word} (ha : Stored s (digitCount sz) ra l a) :
    instrResult s₂ (.amred sz res racc rm rk) l = instrResult s (.ams sz res ra rm rk) l := by
  have hprod := (product_stored hw hlay h hl ha ha).2.regionWords
  have hkept {r : Row} {n : Nat} (hap : Apart racc (2 * digitCount sz) r n) {j : Nat} (hj : j < n) :
      s₂.word (r.toNat + j) l = s.word (r.toNat + j) l :=
    (h.addmul.word_of_apart rfl (h.zero.enabled hl) hap hj).trans
      (h.zero.word_of_apart (zero_dst racc (lenOf_two_digitCount hw)) hl hap hj)
  have hrest : s₂.sourceWords l [region rm (digitCount sz), region rk 1] =
      s.sourceWords l [region rm (digitCount sz), region rk 1] :=
    sourceWords_congr _ (List.forall_mem_cons.mpr
      ⟨fun _ => hkept hlay.apartModulus, List.forall_mem_singleton.mpr fun _ => hkept hlay.apartFactor⟩)
  cases hsrcs : s.sourceWords l [region rm (digitCount sz), region rk 1] with
  | none =>
    exact (laneResult_of_bot _ (sourceWords_cons_none _ (hrest.trans hsrcs))).trans
      (laneResult_of_bot _ (sourceWords_cons_none _ hsrcs)).symm
  | some ws =>
    calc instrResult s₂ (.amred sz res racc rm rk) l
      _ = laneRule (.amred sz res racc rm rk) (digits (digitSum a * digitSum a) (2 * digitCount sz) :: ws) :=
        laneResult_of_sources _ (sourceWords_cons s₂ l _ _ hprod (hrest.trans hsrcs))
      _ = laneRule (.ams sz res ra rm rk) (a :: ws) := laneAmred_square _ _ ha.length ha.digits
      _ = instrResult s (.ams sz res ra rm rk) l :=
        (laneResult_of_sources _ (sourceWords_cons s l _ _ ha.regionWords hsrcs)).symm

/-- The three commands leave AMS's words: where the operand is no array of digits, ADDMUL makes the accumulator `⊥`, and
AMRED and AMS both end in a fault. -/
theorem word_square {j : Nat} (hj : j < digitCount sz) :
    t.word (res.toNat + j) l = resultWord (instrResult s (.ams sz res ra rm rk) l) j := by
  have hl₁ := h.zero.enabled hl
  refine (h.amred.written l j (h.addmul.enabled hl₁) hj).trans ?_
  by_cases ha : ∃ a, Stored s (digitCount sz) ra l a
  · obtain ⟨a, ha⟩ := ha
    rw [instrResult_square hw hlay h hl ha]
  · have hpos := digitCount_pos hw
    have hacc : s₂.word (racc.toNat + 0) l = none := by
      refine (h.addmul.written l 0 hl₁ (by show 0 < 2 * digitCount sz; omega)).trans ?_
      refine resultWord_of_not_ok (fun out hout => ha ?_) 0
      obtain ⟨a, ha₁⟩ := stored_of_addmul_ok hout
      exact ⟨a, (h.zero.stored_iff (zero_dst racc (lenOf_two_digitCount hw)) hl hlay.apartA).mp ha₁⟩
    have hbot : instrResult s₂ (.amred sz res racc rm rk) l = .error .uninit :=
      laneResult_of_unwritten (g := region racc (2 * digitCount sz)) _ List.mem_cons_self
        (by show 0 < 2 * digitCount sz; omega) hacc
    rw [hbot, resultWord_of_not_ok (r := instrResult s _ l) fun out hout => ha (stored_of_ams_ok hout), resultWord]

end Square

/-- Settles O39: on digits AMRED and AMS have one result, and FAULT records it alone; elsewhere neither leaves a word. -/
theorem squaringEquivalence : Obligations.SquaringEquivalence := by
  intro s sz w res ra rm rk racc hidle hw
  rw [← digitCount_of_code hw]
  intro hres hra hrm hrk hracc hapa hapm hapk
  have hlay : MmulLayout s (digitCount sz) res ra ra rm rk racc :=
    ⟨hres, hra, hra, hrm, hrk, hracc, hapa, hapa, hapm, hapk⟩
  obtain ⟨s₁, s₂, t₁, hissue₁, hran⟩ := issueAll_mmul hw hlay hidle
  obtain ⟨t₂, hissue₂, hams⟩ := issue_ran (i := .ams sz res ra rm rk) hidle
    (check_ternary (sizeError_of_code hw) hres hra hrm hrk)
  refine ⟨t₁, t₂, hissue₁, hissue₂, fun l j hl hj => ?_, fun l a m k0 u hnone hl hla _ hda _ _ ha _ _ => ?_⟩
  · rw [word_square hw hlay hran hl hj]
    exact (hams.written l j hl hj).symm
  · have hstored : Stored s (digitCount sz) ra l a := ⟨hla, hda, ha⟩
    have hempty : ∀ cmd, FaultEntry.command u cmd l ∉ s.faults := by simp [hnone]
    have hclean := (product_stored hw hlay hran hl hstored hstored).1
    have hamred := hran.amred.recorded u (encode (.amred sz res racc rm rk)) l
      (hran.addmul.enabled (hran.zero.enabled hl))
    rw [hamred, hams.recorded u _ l hl, instrResult_square hw hlay hran hl hstored]
    simp only [hempty, fun cmd => mt (hclean u cmd) (hempty cmd), true_and]

end Sys2Proof.Machine
end

section
/-! PROOFS. Scope: the long division of R212 on the digits of numbers (spec 43_long_division.md R212 to R214): the
estimate of a quotient digit, one quotient position, and the loop over the positions. -/

namespace Sys2Proof.Machine

/-! ### Parts of digit arrays -/

/-- An array of digits with the value `v` is `Digits(v, n)`. -/
theorem eq_digits {a : List Word} {v n : Nat} (h : normalised a = true) (hlen : a.length = n) (hv : val a = v) :
    a = digits v n := by
  rw [← hv, ← hlen, digits_val h]

theorem normalised_append {a b : List Word} (ha : normalised a = true) (hb : normalised b = true) :
    normalised (a ++ b) = true := by
  rw [normalised, List.all_append, Bool.and_eq_true]
  exact ⟨ha, hb⟩

theorem take_digits {v n k : Nat} (h : k ≤ n) : (digits v n).take k = digits v k := by
  refine List.ext_getElem? fun i => ?_
  rw [List.getElem?_take, digits_getElem?, digits_getElem?, ← ite_and]
  exact if_congr (by omega) rfl rfl

theorem drop_digits (v n k : Nat) : (digits v n).drop k = digits (v / 2 ^ (52 * k)) (n - k) := by
  refine List.ext_getElem? fun i => ?_
  rw [List.getElem?_drop, digits_getElem?, digits_getElem?, Nat.div_div_eq_div_mul, ← pow_add, ← Nat.mul_add]
  exact if_congr (by omega) rfl rfl

/-- Digit `i − k` of an array, 0 where the index is negative, is digit `i` of its value moved up by `k` digits. -/
theorem digitBelow_digits {v n i k : Nat} (h : i - k < n) :
    digitBelow (digits v n) i k = 2 ^ (52 * k) * v / 2 ^ (52 * i) % 2 ^ 52 := by
  rw [digitBelow]
  split_ifs with hik
  · obtain ⟨e, rfl⟩ := Nat.exists_eq_add_of_lt hik
    rw [show 52 * (i + e + 1) = 52 * i + (52 * e + 52) by omega, pow_add, Nat.mul_assoc,
      Nat.mul_div_cancel_left _ (Nat.two_pow_pos _), pow_add, Nat.mul_right_comm, Nat.mul_mod_left]
  · obtain ⟨e, rfl⟩ := Nat.exists_eq_add_of_le (Nat.not_lt.mp hik)
    rw [List.getD_eq_getElem?_getD, digits_getElem?, if_pos h, Option.getD_some, toNat_ofNat_mod_digit,
      Nat.add_sub_cancel_left, Nat.mul_add, pow_add, Nat.mul_div_mul_left _ _ (Nat.two_pow_pos _)]

/-- Dividing by the lower part of a shift leaves the upper part. -/
theorem shifted_div_div (e f v p : Nat) : 2 ^ (e + f) * v / p / 2 ^ f = 2 ^ e * v / p := by
  rw [Nat.div_right_comm, pow_add, Nat.mul_right_comm, Nat.mul_div_cancel _ (Nat.two_pow_pos _)]

/-- A number below `2^156` is the sum of its three digits. -/
theorem three_digits_sum {z : Nat} (h : z / 2 ^ 104 < 2 ^ 52) :
    z / 2 ^ 104 % 2 ^ 52 * 2 ^ 104 + z / 2 ^ 52 % 2 ^ 52 * 2 ^ 52 + z % 2 ^ 52 = z := by
  omega

/-- The digits `i`, `i − 1` and `i − 2` of a value that has no digit above `i`, as one number. -/
theorem leading_digits {v n i : Nat} (hi : i < n) (hv : v < 2 ^ (52 * (i + 1))) :
    digitBelow (digits v n) i 0 * 2 ^ 104 + digitBelow (digits v n) i 1 * 2 ^ 52 + digitBelow (digits v n) i 2 =
      2 ^ 104 * v / 2 ^ (52 * i) := by
  have htop : 2 ^ 104 * v / 2 ^ (52 * i) / 2 ^ 104 < 2 ^ 52 := by
    rw [shifted_div_div 0 104, pow_zero, Nat.one_mul]
    rw [radix_pow_succ, Nat.mul_comm] at hv
    exact Nat.div_lt_of_lt_mul hv
  rw [digitBelow_digits (by omega), digitBelow_digits (by omega), digitBelow_digits (by omega),
    ← shifted_div_div (52 * 0) 104, ← shifted_div_div (52 * 1) 52]
  exact three_digits_sum htop

/-! ### The estimate of a quotient digit -/

/-- The quotient of two numbers, both cut at the place `p` and clamped to `c`, is their quotient or one more, if their
quotient is at most `c` and `c` exceeds the cut divisor by at most one. -/
theorem div_le_cut_div {a v p c : Nat} (hpos : 0 < v / p) (hc : a < v * (c + 1)) (hcv : c ≤ v / p + 1) :
    a / v ≤ min (a / p / (v / p)) c ∧ min (a / p / (v / p)) c ≤ a / v + 1 := by
  have hp : 0 < p := Nat.pos_of_ne_zero fun h0 => by simp [h0] at hpos
  have hv : 0 < v := hpos.trans_le (Nat.div_le_self v p)
  refine ⟨le_min ?_ (Nat.le_of_lt_succ (Nat.div_lt_of_lt_mul hc)), ?_⟩
  · rw [Nat.le_div_iff_mul_le hpos, Nat.le_div_iff_mul_le hp, Nat.mul_assoc]
    exact (Nat.mul_le_mul_left _ (Nat.div_mul_le_self v p)).trans (Nat.div_mul_le_self a v)
  · have hq : min (a / p / (v / p)) c * (v / p) * p ≤ a := by
      rw [← Nat.le_div_iff_mul_le hp, ← Nat.le_div_iff_mul_le hpos]
      exact min_le_left _ _
    have hqc : min (a / p / (v / p)) c ≤ v / p + 1 := (min_le_right _ _).trans hcv
    have hvp : v ≤ (v / p + 1) * p := (Nat.lt_mul_of_div_lt (Nat.lt_succ_self _) hp).le
    generalize min (a / p / (v / p)) c = q at *
    generalize v / p = w at *
    rw [← Nat.sub_le_iff_le_add, Nat.le_div_iff_mul_le hv]
    calc (q - 1) * v
      _ ≤ (q - 1) * ((w + 1) * p) := Nat.mul_le_mul_left _ hvp
      _ = ((q - 1) * w + (q - 1)) * p := by ring
      _ ≤ q * w * p := by
        refine Nat.mul_le_mul_right p ?_
        cases q with
        | zero => simp
        | succ q =>
          rw [Nat.add_mul, Nat.one_mul, Nat.add_sub_cancel]
          omega
      _ ≤ a := hq

/-- `vn` has `lm` digits and its top bit is set: what step 1 of R212 makes of a modulus. -/
def TopBitSet (vn lm : Nat) : Prop := 2 ^ (52 * lm) ≤ 2 * vn ∧ vn < 2 ^ (52 * lm)

namespace TopBitSet

variable {vn lm : Nat} (h : TopBitSet vn lm)
include h

theorem pos : 0 < vn := by
  have := Nat.two_pow_pos (52 * lm)
  have := h.1
  omega

theorem length_pos : 0 < lm := by
  refine Nat.pos_of_ne_zero fun h0 => ?_
  have hpos := h.pos
  have hlt := h.2
  rw [h0, Nat.mul_zero, pow_zero] at hlt
  omega

/-- The two leading digits of the shifted modulus; where it has one digit only, the missing one counts as 0. -/
theorem leading_two_digits : digitBelow (digits vn lm) lm 1 * 2 ^ 52 + digitBelow (digits vn lm) lm 2 =
    2 ^ 104 * vn / 2 ^ (52 * lm) := by
  have hpos := h.length_pos
  have hfits : 2 ^ 52 * vn / 2 ^ (52 * lm) < 2 ^ 52 :=
    Nat.div_lt_of_lt_mul (by rw [Nat.mul_comm]; exact Nat.mul_lt_mul_of_pos_right h.2 (Nat.two_pow_pos _))
  rw [digitBelow_digits (by omega), digitBelow_digits (by omega), Nat.mul_one, Nat.mod_eq_of_lt hfits,
    ← shifted_div_div 52 52]
  exact Nat.div_add_mod' _ _

theorem leading_ge : 2 ^ 103 ≤ 2 ^ 104 * vn / 2 ^ (52 * lm) := by
  rw [Nat.le_div_iff_mul_le (Nat.two_pow_pos _)]
  have := h.1
  omega

/-- A dividend below `vn` times the radix at the position `j` has no digit above the window at `j`. -/
theorem lt_above_window {v j : Nat} (hv : v < 2 ^ (52 * (j + 1)) * vn) : v < 2 ^ (52 * (j + lm + 1)) := by
  refine hv.trans_le ?_
  rw [show 52 * (j + lm + 1) = 52 * (j + 1) + 52 * lm by omega, pow_add]
  exact Nat.mul_le_mul_left _ h.2.le

/-- R213: at the position `j` of a dividend below `vn` times the radix there, the estimate is the true quotient digit or
one more. -/
theorem estimateAt_bounds {v n j : Nat} (hn : j + lm < n) (hv : v < 2 ^ (52 * (j + 1)) * vn) :
    v / 2 ^ (52 * j) / vn ≤ estimateAt (digits v n) (digits vn lm) lm j ∧
      estimateAt (digits v n) (digits vn lm) lm j ≤ v / 2 ^ (52 * j) / vn + 1 := by
  -- with two digits more, the dividend and the modulus at `j` are cut at the place of the window's top digit
  have hdivisor : 2 ^ 104 * vn / 2 ^ (52 * lm) = 2 ^ 104 * (2 ^ (52 * j) * vn) / 2 ^ (52 * (j + lm)) := by
    rw [Nat.mul_add, pow_add, Nat.mul_left_comm, Nat.mul_div_mul_left _ _ (Nat.two_pow_pos _)]
  have htrue : v / 2 ^ (52 * j) / vn = 2 ^ 104 * v / (2 ^ 104 * (2 ^ (52 * j) * vn)) := by
    rw [Nat.mul_div_mul_left _ _ (Nat.two_pow_pos _), Nat.div_div_eq_div_mul]
  have hge := h.leading_ge
  rw [estimateAt, estimate, leading_digits hn (h.lt_above_window hv), h.leading_two_digits, htrue]
  rw [hdivisor] at hge ⊢
  refine div_le_cut_div (hge.trans_lt' (by decide)) ?_ (hge.trans' (by decide) |>.trans (Nat.le_succ _))
  rw [radix_pow_succ, Nat.mul_assoc] at hv
  omega

end TopBitSet

/-! ### One quotient position -/

/-- Multiply, subtract and correct leaves the remainder, if the estimate is the true quotient or one more (R212). -/
theorem correct_eq_mod {w q v : Nat} (hv : 0 < v) (hle : w / v ≤ q) (hge : q ≤ w / v + 1) :
    correct w q v = (w % v : Nat) := by
  have hw : (w : Int) = w / v * v + w % v := by exact_mod_cast (Nat.div_add_mod' w v).symm
  have hlt : w % v < v := Nat.mod_lt w hv
  obtain rfl | rfl : q = w / v ∨ q = w / v + 1 := by omega
  · have hrem : (w : Int) - (w / v : Nat) * (v : Int) = (w % v : Nat) := by push_cast; omega
    rw [correct, hrem, if_neg (by omega)]
  · have hrem : (w : Int) - (w / v + 1 : Nat) * (v : Int) = (w % v : Nat) - v := by push_cast; linarith
    rw [correct, hrem, if_pos (by omega)]
    omega

namespace TopBitSet

variable {vn lm : Nat} (h : TopBitSet vn lm)
include h

/-- The window at position `j` of a dividend below `vn` times the radix there holds all its digits from `j` on. -/
theorem val_window {v n j : Nat} (hn : j + lm < n) (hv : v < 2 ^ (52 * (j + 1)) * vn) :
    val (((digits v n).drop j).take (lm + 1)) = v / 2 ^ (52 * j) := by
  rw [drop_digits, take_digits (by omega), val_digits_of_lt]
  refine Nat.div_lt_of_lt_mul ?_
  rw [← pow_add, ← Nat.mul_add, ← Nat.add_assoc]
  exact h.lt_above_window hv

/-- One quotient position takes the dividend modulo the modulus at that position. -/
theorem divideStep_digits {v n j : Nat} (hn : j + lm < n) (hv : v < 2 ^ (52 * (j + 1)) * vn) :
    divideStep (digits vn lm) lm j (digits v n) = digits (v % (2 ^ (52 * j) * vn)) n := by
  obtain ⟨hle, hge⟩ := h.estimateAt_bounds hn hv
  have hrem : v / 2 ^ (52 * j) % vn < 2 ^ (52 * (lm + 1)) := (Nat.mod_lt _ h.pos).trans
    (h.2.trans (Nat.pow_lt_pow_right (by decide) (by omega)))
  rw [divideStep, h.val_window hn hv, val_digits_of_lt h.2, correct_eq_mod h.pos hle hge, Int.toNat_natCast,
    take_digits (by omega), drop_digits, Nat.div_eq_of_lt (h.lt_above_window hv)]
  refine eq_digits (normalised_append (normalised_append (digits_normalised _ _) (digits_normalised _ _))
    (digits_normalised _ _)) ?_ ?_
  · simp only [List.length_append, digits_length]
    omega
  · rw [val_append, val_append, val_digits, val_digits_of_lt hrem, digits_length, val_digits, Nat.zero_mod,
      Nat.mul_zero, Nat.add_zero, Nat.mod_mul]

/-! ### The loop -/

/-- The loop over the positions below `k` leaves the remainder (R214). -/
theorem divideLoop_digits {n k : Nat} (hk : k ≤ n - lm) {v : Nat} (hv : v < 2 ^ (52 * k) * vn) :
    divideLoop (digits vn lm) lm k (digits v n) = digits (v % vn) n := by
  induction k generalizing v with
  | zero => rw [divideLoop, Nat.mod_eq_of_lt (by simpa using hv)]
  | succ k ih =>
    have hrem : v % (2 ^ (52 * k) * vn) < 2 ^ (52 * k) * vn := Nat.mod_lt _ (Nat.mul_pos (Nat.two_pow_pos _) h.pos)
    rw [divideLoop, h.divideStep_digits (by omega) hv, ih (by omega) hrem, Nat.mod_mul_left_mod]

/-- The dividend after the first `c` positions from `p` down. -/
theorem foldl_divideStep_digits {n p : Nat} (hp : p + lm < n) {v : Nat} (hv : v < 2 ^ (52 * (p + 1)) * vn) {c : Nat}
    (hc : c ≤ p + 1) :
    (List.range c).foldl (fun x i => divideStep (digits vn lm) lm (p - i) x) (digits v n) =
      digits (v % (2 ^ (52 * (p + 1 - c)) * vn)) n := by
  induction c with
  | zero => rw [List.range_zero, List.foldl_nil, Nat.sub_zero, Nat.mod_eq_of_lt hv]
  | succ c ih =>
    have hnext : p + 1 - c = p - c + 1 := by omega
    have hrem : v % (2 ^ (52 * (p - c + 1)) * vn) < 2 ^ (52 * (p - c + 1)) * vn :=
      Nat.mod_lt _ (Nat.mul_pos (Nat.two_pow_pos _) h.pos)
    have hdvd : 2 ^ (52 * (p - c)) * vn ∣ 2 ^ (52 * (p - c + 1)) * vn :=
      Nat.mul_dvd_mul_right (pow_dvd_pow 2 (by omega)) vn
    rw [List.range_succ, List.foldl_append, ih (by omega), List.foldl_cons, List.foldl_nil, hnext,
      h.divideStep_digits (by omega) hrem, Nat.mod_mod_of_dvd _ hdvd, Nat.add_sub_add_right]

end TopBitSet

/-! ### The normalisation shift -/

/-- The shift by as many bits as the top digit lacks sets the top bit, and no bit goes beyond the top digit. -/
theorem topBitSet_shift {v len : Nat} (hpos : 0 < len) (hv : v < 2 ^ (52 * len))
    (htop : v / 2 ^ (52 * (len - 1)) ≠ 0) : TopBitSet (v * 2 ^ (52 - bitlen (v / 2 ^ (52 * (len - 1))))) len := by
  obtain ⟨hlow, hhigh⟩ := bitlen_bounds htop
  have hlt := (Nat.pow_lt_pow_iff_right (by decide)).mp (hlow.trans_lt (topDigit_lt hpos hv))
  have hne : bitlen (v / 2 ^ (52 * (len - 1))) ≠ 0 := fun h0 => htop (by simpa [h0] using hhigh)
  rw [Nat.le_div_iff_mul_le (Nat.two_pow_pos _)] at hlow
  rw [Nat.div_lt_iff_lt_mul (Nat.two_pow_pos _)] at hhigh
  generalize bitlen (v / 2 ^ (52 * (len - 1))) = b at *
  constructor
  · calc 2 ^ (52 * len)
      _ = 2 ^ (1 + ((b - 1) + 52 * (len - 1) + (52 - b))) := by
        rw [show 1 + ((b - 1) + 52 * (len - 1) + (52 - b)) = 52 * len by omega]
      _ = 2 * (2 ^ (b - 1) * 2 ^ (52 * (len - 1)) * 2 ^ (52 - b)) := by rw [pow_add, pow_add, pow_add, pow_one]
      _ ≤ 2 * (v * 2 ^ (52 - b)) := Nat.mul_le_mul_left 2 (Nat.mul_le_mul_right _ hlow)
  · calc v * 2 ^ (52 - b)
      _ < 2 ^ b * 2 ^ (52 * (len - 1)) * 2 ^ (52 - b) := Nat.mul_lt_mul_of_pos_right hhigh (Nat.two_pow_pos _)
      _ = 2 ^ (52 * len) := by rw [← pow_add, ← pow_add, show b + 52 * (len - 1) + (52 - b) = 52 * len by omega]

theorem digitBelow_top_eq_zero_iff (m : List Word) :
    digitBelow m m.length 1 = 0 ↔ m.getD (m.length - 1) 0#64 = 0#64 := by
  rw [digitBelow]
  split_ifs with hlen
  · simp [List.length_eq_zero_iff.mp (Nat.lt_one_iff.mp hlen)]
  · rw [BitVec.toNat_eq]
    rfl

section Modulus

variable {m : List Word} (htop : digitBelow m m.length 1 ≠ 0)
include htop

theorem length_pos_of_top : 0 < m.length :=
  Nat.pos_of_ne_zero fun h0 => htop (by rw [h0]; rfl)

variable (hm : normalised m = true)
include hm

/-- The top digit is the value without the places below it. -/
theorem digitBelow_top : digitBelow m m.length 1 = val m / 2 ^ (52 * (m.length - 1)) := by
  have hpos := length_pos_of_top htop
  have hplace : 2 ^ (52 * m.length) = 2 ^ 52 * 2 ^ (52 * (m.length - 1)) := by
    rw [← radix_pow_succ, Nat.sub_add_cancel hpos]
  conv_lhs => rw [← digits_val hm, digits_length, digitBelow_digits (by omega)]
  rw [Nat.mul_one, hplace, Nat.mul_div_mul_left _ _ (Nat.two_pow_pos _),
    Nat.mod_eq_of_lt (topDigit_lt hpos (val_lt hm))]

/-- A modulus with a nonzero top digit is at least the place of that digit. -/
theorem top_place_le_val : 2 ^ (52 * (m.length - 1)) ≤ val m := by
  rw [digitBelow_top htop hm] at htop
  exact (Nat.div_ne_zero_iff.mp htop).2

/-- Step 1 of R212 sets the top bit of the modulus and loses none. -/
theorem topBitSet_normShift : TopBitSet (val m * 2 ^ normShift m m.length) m.length := by
  have hpos := length_pos_of_top htop
  have hdigit := digitBelow_top htop hm
  rw [hdigit] at htop
  rw [normShift, hdigit]
  exact topBitSet_shift hpos (val_lt hm) htop

/-- The shifted dividend is below the shifted modulus at any place that reaches the dividend's length. -/
theorem shifted_lt {v lx k : Nat} (s : Nat) (hv : v < 2 ^ (52 * lx)) (hk : lx < k + m.length) :
    v * 2 ^ s < 2 ^ (52 * k) * (val m * 2 ^ s) := by
  rw [← Nat.mul_assoc]
  refine Nat.mul_lt_mul_of_pos_right (hv.trans_le ?_) (Nat.two_pow_pos _)
  calc 2 ^ (52 * lx)
    _ ≤ 2 ^ (52 * k + 52 * (m.length - 1)) := Nat.pow_le_pow_right (by decide) (by omega)
    _ = 2 ^ (52 * k) * 2 ^ (52 * (m.length - 1)) := pow_add _ _ _
    _ ≤ 2 ^ (52 * k) * val m := Nat.mul_le_mul_left _ (top_place_le_val htop hm)

/-- R214: the long division leaves the remainder. -/
theorem longDivide_eq {x : List Word} {lx : Nat} (hx : val x < 2 ^ (52 * lx)) :
    longDivide lx m.length x m = digits (val x % val m) lx := by
  have hfits : val x % val m * 2 ^ normShift m m.length < 2 ^ (52 * (lx + 1)) :=
    calc val x % val m * 2 ^ normShift m m.length
      _ ≤ val x * 2 ^ 52 := Nat.mul_le_mul (Nat.mod_le _ _) (Nat.pow_le_pow_right (by decide) (Nat.sub_le _ _))
      _ < 2 ^ (52 * lx) * 2 ^ 52 := Nat.mul_lt_mul_of_pos_right hx (Nat.two_pow_pos _)
      _ = 2 ^ (52 * (lx + 1)) := by rw [radix_pow_succ, Nat.mul_comm]
  rw [longDivide, (topBitSet_normShift htop hm).divideLoop_digits le_rfl (shifted_lt htop hm _ hx (by omega)),
    Nat.mul_mod_mul_right, val_digits_of_lt hfits, Nat.mul_div_cancel _ (Nat.two_pow_pos _)]

end Modulus

end Sys2Proof.Machine
end

section
/-! PROOFS. Scope: ESTQ and MREDUCE (spec 43_long_division.md R211 to R214): what each instruction rule gives a lane, and
the obligations about the commands and the estimate. -/

namespace Sys2Proof.Machine

open Sys2Proof.Claims

/-! ### Commands with two source regions -/

/-- A command with two source regions that passes its checks completes normally, and its instruction rule says how each
active lane ends whose sources are all written. -/
theorem runCommand_binary {s : State} {k : Latch} {rd ra rb : Row} {len na nb : Nat} {e : Option CmdError}
    (hready : Ready s k) (rule : List Word → List Word → LaneResult) (he : e = none) (hrd : InRange s rd len)
    (hra : InRange s ra na) (hrb : InRange s rb nb) :
    ∃ t, runCommand ⟨e, region rd len, [region ra na, region rb nb]⟩ (fun ws => rule (source ws 0) (source ws 1)) s
        = .next t ∧ Completed s t ∧
      ∀ (l : Nat) (a b : List Word), Active s k l → a.length = na → b.length = nb → Present s ra l a →
        Present s rb l b → LaneEnds s t k rd len l (rule a b) := by
  have hcheck : Shape.check ⟨e, region rd len, [region ra na, region rb nb]⟩ s.cfg.rows = none :=
    (check_eq_none_iff _ _).mpr ⟨he, hrd, List.forall_mem_cons.mpr ⟨hra, List.forall_mem_singleton.mpr hrb⟩⟩
  obtain ⟨t, hrun, hdone, hlanes⟩ := runCommand_lanes hready (fun ws => rule (source ws 0) (source ws 1)) rfl hcheck
  exact ⟨t, hrun, hdone, fun l a b hl hla hlb ha hb => hlanes l [a, b] hl
    (.cons (regionWords_of_present hla ha) (.cons (regionWords_of_present hlb hb) .nil))⟩

theorem normalised_pair_iff (a b : List Word) :
    (normalised a && normalised b) = true ↔ AllDigits a ∧ AllDigits b := by
  simp only [Bool.and_eq_true, normalised_iff, AllDigits]

/-! ### ESTQ -/

theorem allDigits_append (a b : List Word) : AllDigits (a ++ b) ↔ AllDigits a ∧ AllDigits b := List.forall_mem_append

section Estq

variable {u0 u1 u2 v0 v1 : Word}

theorem laneEstq_nonnorm (h : ¬ AllDigits [u0, u1, u2, v0, v1]) : laneEstq [u0, u1, u2] [v0, v1] = .error .nonnorm :=
  if_neg (mt (normalised_pair_iff _ _).mp (mt (allDigits_append [u0, u1, u2] [v0, v1]).mpr h))

variable (h : AllDigits [u0, u1, u2, v0, v1])
include h

theorem laneEstq_divisor (hv : v1.toNat < 2 ^ 51) : laneEstq [u0, u1, u2] [v0, v1] = .error .divisor :=
  (if_pos ((normalised_pair_iff _ _).mpr ((allDigits_append [u0, u1, u2] [v0, v1]).mp h))).trans (if_pos hv)

theorem laneEstq_digits (hv : 2 ^ 51 ≤ v1.toNat) : laneEstq [u0, u1, u2] [v0, v1] =
    .ok [BitVec.ofNat 64 (estimate u2.toNat u1.toNat u0.toNat v1.toNat v0.toNat)] :=
  (if_pos ((normalised_pair_iff _ _).mpr ((allDigits_append [u0, u1, u2] [v0, v1]).mp h))).trans
    (if_neg (Nat.not_lt.mpr hv))

end Estq

theorem estimate_lt (u2 u1 u0 v1 v0 : Nat) : estimate u2 u1 u0 v1 v0 < 2 ^ 64 :=
  (min_le_right _ _).trans_lt (by decide)

/-- Settles O40: the rule's one word is the estimate, or its result is a fault. -/
theorem estqDividesThreeDigitsByTwo : Obligations.EstqDividesThreeDigitsByTwo := by
  intro s k rd ra rb hready hrd hra hrb
  refine ⟨by simp [encode_toNat, Instr.fields, Opcode.code], ?_⟩
  obtain ⟨t, hexec, hdone, hlanes⟩ := runCommand_binary hready laneEstq rfl hrd hra hrb
  refine ⟨t, hexec, hdone, fun l u0 u1 u2 v0 v1 hl hu hv => ?_⟩
  have hlane := hlanes l [u0, u1, u2] [v0, v1] hl rfl rfl hu hv
  refine ⟨fun h => ?_, fun h hv1 => ?_, fun h hv1 => ?_⟩
  · rwa [laneEstq_nonnorm h] at hlane
  · rwa [laneEstq_divisor h hv1] at hlane
  · rw [laneEstq_digits h hv1] at hlane
    obtain ⟨hclean, hwords⟩ := hlane
    have hword : t.word rd.toNat l = some (BitVec.ofNat 64 (estimate u2.toNat u1.toNat u0.toNat v1.toNat v0.toNat)) :=
      hwords 0 Nat.one_pos
    refine ⟨hclean, ?_⟩
    rw [hword, Option.map_some, BitVec.toNat_ofNat, Nat.mod_eq_of_lt (estimate_lt _ _ _ _ _)]
    rfl

/-! ### MREDUCE -/

theorem laneMreduce_nonnorm {lx lm : Nat} {x m : List Word} (h : ¬(AllDigits x ∧ AllDigits m)) :
    laneMreduce lx lm x m = .error .nonnorm :=
  if_neg (mt (normalised_pair_iff x m).mp h)

section Mreduce

variable {x m : List Word} (hx : AllDigits x) (hm : AllDigits m)
include hx hm

theorem laneMreduce_topDigit (htop : m.getD (m.length - 1) 0#64 = 0#64) :
    laneMreduce x.length m.length x m = .error .topDigit := by
  rw [laneMreduce, if_pos ((normalised_pair_iff x m).mpr ⟨hx, hm⟩), if_pos ((digitBelow_top_eq_zero_iff m).mpr htop)]

theorem laneMreduce_digits (htop : m.getD (m.length - 1) 0#64 ≠ 0#64) :
    laneMreduce x.length m.length x m = .ok (digits (digitSum x % digitSum m) x.length) := by
  have htop' := mt (digitBelow_top_eq_zero_iff m).mp htop
  rw [laneMreduce, if_pos ((normalised_pair_iff x m).mpr ⟨hx, hm⟩), if_neg htop', digitSum_eq_val, digitSum_eq_val,
    longDivide_eq htop' ((normalised_iff m).mpr hm) (val_lt ((normalised_iff x).mpr hx))]

end Mreduce

/-- Settles O41: the rule's words are the digits of the remainder, or its result is a fault. -/
theorem mreduceIsRemainder : Obligations.MreduceIsRemainder := by
  intro s k rd ra lx lm hready hlx hlm hrd hra
  refine ⟨by simp [encode_toNat, Instr.fields, Opcode.code], ?_⟩
  have hfields : (lengthError lx).or (lengthError lm) = none := by
    rw [lengthError_of_ne hlx, lengthError_of_ne hlm, Option.none_or]
  obtain ⟨t, hexec, hdone, hlanes⟩ := runCommand_binary hready (laneMreduce lx.toNat lm.toNat) hfields hrd hrd hra
  refine ⟨t, hexec, hdone, fun l x m hl hlenx hlenm hx hm => ?_⟩
  have hlane := hlanes l x m hl hlenx hlenm hx hm
  rw [← hlenx, ← hlenm] at hlane ⊢
  refine ⟨fun h => ?_, fun hdx hdm htop => ?_, fun hdx hdm htop => ?_⟩
  · rwa [laneMreduce_nonnorm h] at hlane
  · rwa [laneMreduce_topDigit hdx hdm htop] at hlane
  · rw [laneMreduce_digits hdx hdm htop] at hlane
    exact hlane.holdsDigits

/-- Settles O42: the positions above `j` leave the dividend's remainder by the modulus at `j + 1`, which is as small as
the bounds of the estimate at `j` ask. -/
theorem estimateIsWithinOne : Obligations.EstimateIsWithinOne := by
  intro x m j hx hm htop hj
  have htop' := mt (digitBelow_top_eq_zero_iff m).mp htop
  have hm' := (normalised_iff m).mpr hm
  have hset := topBitSet_normShift htop' hm'
  have hv := shifted_lt htop' hm' (normShift m m.length) (val_lt ((normalised_iff x).mpr hx))
    (k := x.length - m.length + 1) (by omega)
  have hrem := Nat.mod_lt (val x * 2 ^ normShift m m.length)
    (Nat.mul_pos (Nat.two_pow_pos (52 * (j + 1))) hset.pos)
  dsimp only
  rw [digitSum_eq_val, digitSum_eq_val, digitSum_eq_val, hset.foldl_divideStep_digits (by omega) hv (by omega),
    show x.length - m.length + 1 - (x.length - m.length - j) = j + 1 by omega, hset.val_window (by omega) hrem]
  exact hset.estimateAt_bounds (by omega) hrem

end Sys2Proof.Machine
end

section
/-! PROOFS. Scope: MONTFACTOR and MONTRR (spec 44_precompute.md R241, R242, R244): the bit-serial inverse and the
remainder of R², what each instruction rule gives a lane, and the obligations about the commands. -/

namespace Sys2Proof.Machine

open Sys2Proof.Claims

/-! ### The bit-serial inverse -/

/-- `y` is an inverse of `m0` modulo `2^i`, of `i` bits, with `m0·y = 1 + 2^i·q`. -/
def InverseToBit (m0 i y : Nat) : Prop := y < 2 ^ i ∧ ∃ q, m0 * y = 1 + 2 ^ i * q

/-- Bit `i` of the inverse stays 0 if `m0·y` is 1 at this bit already, and else is 1 (R244). -/
theorem InverseToBit.succ {m0 i y : Nat} (h : InverseToBit m0 i y) (hodd : m0 % 2 = 1) :
    InverseToBit m0 (i + 1) (if m0 * y % 2 ^ (i + 1) = 1 then y else y + 2 ^ i) := by
  obtain ⟨hy, q, hq⟩ := h
  have hpow : 2 ^ (i + 1) = 2 ^ i * 2 := pow_succ 2 i
  split_ifs with hbit
  · refine ⟨by omega, m0 * y / 2 ^ (i + 1), ?_⟩
    conv_lhs => rw [← Nat.mod_add_div (m0 * y) (2 ^ (i + 1)), hbit]
  · have hqodd : q % 2 = 1 := Nat.mod_two_ne_zero.mp fun heven => hbit <| by
      obtain ⟨c, rfl⟩ := Nat.dvd_of_mod_eq_zero heven
      rw [hq, ← Nat.mul_assoc, ← hpow, Nat.add_mul_mod_self_left]
      exact Nat.mod_eq_of_lt (Nat.one_lt_two_pow i.succ_ne_zero)
    obtain ⟨c, hc⟩ : 2 ∣ q + m0 := by omega
    refine ⟨by omega, c, ?_⟩
    calc m0 * (y + 2 ^ i)
      _ = 1 + 2 ^ i * (q + m0) := by rw [Nat.mul_add, hq]; ring
      _ = 1 + 2 ^ (i + 1) * c := by rw [hc, hpow, Nat.mul_assoc]

/-- `k` turns of R244's loop give the inverse `k` more bits. -/
theorem inverseToBit_inverseLoop {m0 : Nat} (hodd : m0 % 2 = 1) (k : Nat) {i y : Nat} (h : InverseToBit m0 i y) :
    InverseToBit m0 (i + k) (inverseLoop m0 k i y) := by
  induction k generalizing i y with
  | zero => exact h
  | succ k ih =>
    rw [inverseLoop, Nat.add_comm k, ← Nat.add_assoc]
    exact ih (h.succ hodd)

/-- R244's loop starts at the inverse 1 modulo 2. -/
theorem inverseToBit_one {m0 : Nat} (hodd : m0 % 2 = 1) : InverseToBit m0 1 1 := ⟨by decide, m0 / 2, by omega⟩

/-! ### The factor k0 -/

theorem negatedInverse_iff (k0 m : Nat) : NegatedInverse k0 m ↔ m * k0 % 2 ^ 52 = 2 ^ 52 - 1 := by
  rw [NegatedInverse, Nat.mul_mod_mod, Nat.mul_comm]

theorem montFactor_lt (m0 : Nat) : montFactor m0 < 2 ^ 52 := Nat.mod_lt _ (Nat.two_pow_pos _)

/-- The radix minus the inverse is the negated inverse (R244). -/
theorem montFactor_negatedInverse {m0 : Nat} (hodd : m0 % 2 = 1) : NegatedInverse (montFactor m0) m0 := by
  obtain ⟨hy, q, hq⟩ := inverseToBit_inverseLoop hodd 51 (inverseToBit_one hodd)
  rw [negatedInverse_iff, montFactor, Nat.mul_mod_mod, Nat.mul_sub, hq]
  have hle : m0 * inverseLoop m0 51 1 1 ≤ m0 * 2 ^ 52 := Nat.mul_le_mul_left m0 hy.le
  omega

/-- Only one number below the radix is the negated inverse. -/
theorem NegatedInverse.unique {m k k' : Nat} (h : NegatedInverse k m) (hk : k < 2 ^ 52) (h' : NegatedInverse k' m)
    (hk' : k' < 2 ^ 52) : k' = k := by
  have hexact {x : Nat} (hx : NegatedInverse x m) (hlt : x < 2 ^ 52) : MakesExact (2 ^ 52) m 1 x :=
    ⟨hlt, Nat.add_comm 1 _ ▸ Nat.mod_eq_zero_of_dvd hx.dvd_succ⟩
  exact (hexact h hk).unique (h.coprime 52) (hexact h' hk')

/-! ### MONTFACTOR -/

theorem allDigits_singleton (w : Word) : AllDigits [w] ↔ w.toNat < 2 ^ 52 := List.forall_mem_singleton

theorem laneMontfactor_nonnorm {m0 : Word} (h : 2 ^ 52 ≤ m0.toNat) : laneMontfactor [m0] = .error .nonnorm :=
  if_neg (mt (normalised_iff [m0]).mp (mt (allDigits_singleton m0).mp (Nat.not_lt.mpr h)))

section Montfactor

variable {m0 : Word} (h : m0.toNat < 2 ^ 52)
include h

theorem laneMontfactor_even (heven : m0.toNat % 2 = 0) : laneMontfactor [m0] = .error .evenModulus := by
  rw [laneMontfactor, if_pos ((normalised_iff [m0]).mpr ((allDigits_singleton m0).mpr h)), val_singleton, if_pos heven]

theorem laneMontfactor_odd (hodd : m0.toNat % 2 = 1) :
    laneMontfactor [m0] = .ok [BitVec.ofNat 64 (montFactor m0.toNat)] := by
  rw [laneMontfactor, if_pos ((normalised_iff [m0]).mpr ((allDigits_singleton m0).mpr h)), val_singleton,
    if_neg (Nat.mod_two_ne_zero.mpr hodd)]

end Montfactor

/-- Settles O43: the rule's one word is the radix minus the bit-serial inverse, or its result is a fault. -/
theorem montfactorIsNegatedInverse : Obligations.MontfactorIsNegatedInverse := by
  intro s k rd ra hready hrd hra
  refine ⟨by simp [encode_toNat, Instr.fields, Opcode.code], ?_⟩
  obtain ⟨t, hexec, hdone, hlanes⟩ := runCommand_unary hready laneMontfactor rfl hrd hra
  refine ⟨t, hexec, hdone, fun l m0 hl hm => ?_⟩
  have hlane := hlanes l [m0] hl rfl hm
  refine ⟨fun h => ?_, fun h heven => ?_, fun h hodd => ?_⟩
  · rwa [laneMontfactor_nonnorm h] at hlane
  · rwa [laneMontfactor_even h heven] at hlane
  · rw [laneMontfactor_odd h hodd] at hlane
    obtain ⟨hclean, hwords⟩ := hlane
    have hk0 : (BitVec.ofNat 64 (montFactor m0.toNat)).toNat = montFactor m0.toNat := toNat_ofNat_mod_digit _
    have hneg := montFactor_negatedInverse hodd
    refine ⟨hclean, _, hwords 0 Nat.one_pos, ?_⟩
    rw [hk0]
    exact ⟨montFactor_lt _, (negatedInverse_iff _ _).mp hneg, fun k' hlt h' =>
      hneg.unique (montFactor_lt _) ((negatedInverse_iff _ _).mpr h') hlt⟩

/-! ### MONTRR -/

theorem laneMontrr_nonnorm {n : Nat} {m : List Word} (h : ¬ AllDigits m) : laneMontrr n m = .error .nonnorm :=
  if_neg (mt (normalised_iff m).mp h)

section Montrr

variable {m : List Word} (hm : AllDigits m)
include hm

theorem laneMontrr_zero (n : Nat) (hzero : digitSum m = 0) : laneMontrr n m = .error .topDigit := by
  rw [digitSum_eq_val] at hzero
  rw [laneMontrr, if_pos ((normalised_iff m).mpr hm), if_pos hzero]

/-- R212 by the significant digits of a nonzero modulus leaves the remainder by its value (R242). -/
theorem longDivide_sigDigits (hne : val m ≠ 0) {x : List Word} {lx : Nat} (hx : val x < 2 ^ (52 * lx)) :
    longDivide lx (sigDigits m) x (m.take (sigDigits m)) = digits (val x % val m) lx := by
  have hlen : (m.take (sigDigits m)).length = sigDigits m := List.length_take_of_le (sigDigits_le m)
  have hpos : 0 < sigDigits m := Nat.pos_of_ne_zero (mt (sigDigits_eq_zero_iff m).mp hne)
  have htop : digitBelow (m.take (sigDigits m)) (m.take (sigDigits m)).length 1 ≠ 0 := by
    rw [Ne, digitBelow_top_eq_zero_iff, hlen, List.getD_eq_getElem?_getD, List.getElem?_take_of_lt (by omega),
      ← List.getD_eq_getElem?_getD]
    exact sigDigits_top_ne_zero hne
  have hdigits : normalised (m.take (sigDigits m)) = true :=
    (normalised_iff _).mpr fun w hw => hm w (List.mem_of_mem_take hw)
  have hrem := longDivide_eq htop hdigits hx
  rwa [hlen, val_take_sigDigits] at hrem

/-- `2^(104n)` is a number of `2n + 1` digits, and the rule keeps the low `n` digits of its remainder (R242). -/
theorem laneMontrr_digits (n : Nat) (hne : digitSum m ≠ 0) :
    laneMontrr n m = .ok (digits (2 ^ (104 * n) % digitSum m) n) := by
  rw [digitSum_eq_val] at hne ⊢
  have hlt : 2 ^ (104 * n) < 2 ^ (52 * (2 * n + 1)) := Nat.pow_lt_pow_right (by decide) (by omega)
  have hsquare := val_digits_of_lt hlt
  rw [laneMontrr, if_pos ((normalised_iff m).mpr hm), if_neg hne,
    longDivide_sigDigits hm hne (hsquare.trans_lt hlt), hsquare, take_digits (by omega)]

end Montrr

/-- Settles O44: the rule's words are the digits of the remainder of R² by the modulus, or its result is a fault. -/
theorem montrrIsSquareOfR : Obligations.MontrrIsSquareOfR := by
  intro s k sz w rd ra hready hw hrd hra
  refine ⟨by simp [encode_toNat, Instr.fields, Opcode.code], ?_⟩
  rw [← digitCount_of_code hw] at hrd hra ⊢
  obtain ⟨t, hexec, hdone, hlanes⟩ :=
    runCommand_unary hready (laneMontrr (digitCount sz)) (sizeError_of_code hw) hrd hra
  refine ⟨t, hexec, hdone, fun l m hl hlen hm => ?_⟩
  have hlane := hlanes l m hl hlen hm
  refine ⟨fun h => ?_, fun hdm hzero => ?_, fun hdm hne => ?_⟩
  · rwa [laneMontrr_nonnorm h] at hlane
  · rwa [laneMontrr_zero hdm _ hzero] at hlane
  · rw [laneMontrr_digits hdm _ hne] at hlane
    exact hlane.holdsDigits

end Sys2Proof.Machine
end

section
/-! PROOFS. Scope: Validate and its pseudocode, and what a command error leaves (spec 30_encoding.md R101 to R107;
60_exceptions.md R261 to R263). -/

namespace Sys2Proof.Machine

open Sys2Proof.Claims

/-! ### The fields of a word as numbers -/

theorem bitsOf_eq_extract (w : CmdWord) (lo n : Nat) : bitsOf w lo n = (w.extractLsb' lo n).toNat :=
  (extract_toNat w lo n).symm

theorem extract_eq_zero_iff (w : CmdWord) (lo n : Nat) : w.extractLsb' lo n = 0#n ↔ bitsOf w lo n = 0 := by
  rw [bitsOf_eq_extract, ← BitVec.toNat_inj, BitVec.toNat_ofNat, Nat.zero_mod]

theorem not_reservedZero_iff (w : CmdWord) :
    reservedZero w = false ↔ bitsOf w 11 5 ≠ 0 ∨ bitsOf w 22 10 ≠ 0 ∨ bitsOf w 48 16 ≠ 0 := by
  rw [← Bool.not_eq_true, reservedZero_iff]
  simp only [bitsOf, not_and_or]

/-! ### The fields an opcode uses -/

/-- The lowest bits of the fields that an opcode uses (R106). -/
def usedBy : Opcode → List Nat
  | .norm | .normclr | .copy => [32, 64, 80]
  | .normsqr | .normtop | .montrr => [8, 64, 80]
  | .shl | .shr => [16, 32, 64, 80]
  | .zero => [32, 64]
  | .cmpge => [32, 64, 80, 96]
  | .addmul => [8, 64, 80, 96]
  | .amred | .ams | .modsub => [8, 64, 80, 96, 112]
  | .estq => [64, 80, 96]
  | .mreduce => [32, 40, 64, 80]
  | .montfactor => [64, 80]

theorem usedFields_code (op : Opcode) : usedFields op.code.toNat = some (usedBy op) := by cases op <;> rfl

/-- The opcode numbers for which Validate's pseudocode knows no fields are the unassigned ones (R109). -/
theorem usedFields_eq_none {n : BitVec 8} (h : Opcode.ofCode n = none) : usedFields n.toNat = none := by
  revert n; decide

/-- A word's opcode field leads to the fields that its opcode uses. -/
theorem usedFields_of_ofCode {w : CmdWord} {op : Opcode} (h : Opcode.ofCode (Fields.ofWord w).opc = some op) :
    usedFields (bitsOf w 0 8) = some (usedBy op) := by
  rw [bitsOf_eq_extract, ← usedFields_code, code_of_ofCode h]
  rfl

/-- The decoder's check of the unused fields is the pseudocode's, which goes through the table of the fields. -/
theorem not_unusedZero_iff (w : CmdWord) (op : Opcode) :
    (Fields.ofWord w).unusedZero op = false ↔
      fieldTable.any (fun f => !(usedBy op).contains f.1 && bitsOf w f.1 f.2 != 0) = true := by
  cases op <;>
    simp [Fields.unusedZero, Fields.ofWord, usedBy, fieldTable, extract_eq_zero_iff, or_assoc, imp_iff_not_or]

/-! ### Words that read as no command -/

theorem validateCode_of_illegalOpcode {w : CmdWord} (rows : Nat) (h : decode w = .error .illegalOpcode) :
    validateCode rows w = 1 := by
  have hused : usedFields (bitsOf w 0 8) = none := by
    rw [bitsOf_eq_extract]
    exact usedFields_eq_none ((decode_eq_illegalOpcode_iff w).mp h)
  rw [validateCode, hused]

/-- RESERVED_FIELD is the second check: an assigned opcode with a reserved bit or an unused field set (R262). -/
theorem exists_of_decode_reservedField {w : CmdWord} (h : decode w = .error .reservedField) :
    ∃ op, Opcode.ofCode (Fields.ofWord w).opc = some op ∧
      (reservedZero w = false ∨ (Fields.ofWord w).unusedZero op = false) := by
  rw [decode] at h
  split at h
  next => cases h
  next op hop =>
    split at h
    next => cases h
    next hbits => exact ⟨op, hop, Bool.and_eq_false_iff.mp (Bool.eq_false_of_not_eq_true hbits)⟩

theorem validateCode_of_reservedField {w : CmdWord} (rows : Nat) (h : decode w = .error .reservedField) :
    validateCode rows w = 2 := by
  obtain ⟨op, hop, hbits⟩ := exists_of_decode_reservedField h
  rw [not_reservedZero_iff, not_unusedZero_iff] at hbits
  simp only [validateCode, usedFields_of_ofCode hop]
  obtain hreserved | hunused := hbits
  · rw [if_pos hreserved]
  · rw [if_pos hunused, ite_self]

/-! ### The checks of a command's operands -/

theorem sizeError_eq (sz : SizeCode) :
    sizeError sz = if sz.toNat = 6 ∨ sz.toNat = 7 then some .size else none := by
  revert sz; decide

theorem lengthError_eq (l : Len) : lengthError l = if l.toNat = 0 then some .length else none := by
  simp only [lengthError, ← BitVec.toNat_inj, BitVec.toNat_ofNat, Nat.zero_mod]

theorem shiftError_eq (sh : Shift) : shiftError sh = if 52 ≤ sh.toNat then some .shift else none := by
  simp only [shiftError, ← Nat.not_lt, ite_not]

/-- The first of several errors is that of the first check that fails. -/
theorem ite_some_or {α : Type} (p : Prop) [Decidable p] (e : α) (x y : Option α) :
    (if p then some e else x).or y = if p then some e else x.or y := by
  split <;> rfl

/-- The field checks of the operand table are those of R262, in its order, on the fields that the opcode uses. -/
theorem fieldError_eq (i : Instr) :
    (shape i).fieldError =
      if 8 ∈ usedBy i.opcode ∧ (i.fields.sz.toNat = 6 ∨ i.fields.sz.toNat = 7) then some .size
      else if 32 ∈ usedBy i.opcode ∧ i.fields.lx.toNat = 0 then some .length
      else if 40 ∈ usedBy i.opcode ∧ i.fields.lm.toNat = 0 then some .length
      else if 16 ∈ usedBy i.opcode ∧ 52 ≤ i.fields.sh.toNat then some .shift
      else none := by
  cases i <;> simp [shape, usedBy, Instr.opcode, Instr.fields, sizeError_eq, lengthError_eq, shiftError_eq, ite_some_or]

theorem getD_digitCount (sz : SizeCode) : [10, 20, 30, 40, 60, 79].getD sz.toNat 0 = digitCount sz := by
  revert sz; decide

/-- The fields of a command's word are the command's fields. -/
theorem bitsOf_encode (i : Instr) :
    bitsOf (encode i) 0 8 = i.opcode.code.toNat ∧ bitsOf (encode i) 8 3 = i.fields.sz.toNat ∧
    bitsOf (encode i) 16 6 = i.fields.sh.toNat ∧ bitsOf (encode i) 32 8 = i.fields.lx.toNat ∧
    bitsOf (encode i) 40 8 = i.fields.lm.toNat ∧ bitsOf (encode i) 64 16 = i.fields.rd.toNat ∧
    bitsOf (encode i) 80 16 = i.fields.ra.toNat ∧ bitsOf (encode i) 96 16 = i.fields.rb.toNat ∧
    bitsOf (encode i) 112 16 = i.fields.rc.toNat := by
  have hfields : Fields.ofWord (encode i) = i.fields := ofWord_toWord i.fields
  rw [← opc_fields, ← hfields]
  simp only [Fields.ofWord, bitsOf_eq_extract, and_self]

/-- The operand regions of a command's word are those of its row of the operand table (R106); the table lists
twice a region that is read and written. -/
theorem mem_regionsOf_encode (i : Instr) (p : Nat × Nat) :
    p ∈ regionsOf (encode i) ↔ p ∈ ((shape i).dst :: (shape i).srcs).map fun g => (g.row, g.len) := by
  obtain ⟨hopc, hsz, -, hlx, hlm, hrd, hra, hrb, hrc⟩ := bitsOf_encode i
  simp only [regionsOf, hopc, hsz, getD_digitCount, hlx, hlm, hrd, hra, hrb, hrc]
  cases i <;> simp [shape, region, Instr.opcode, Opcode.code, Instr.fields]

/-- ADDRESS is checked on these regions. -/
theorem any_regionsOf_encode (i : Instr) (rows : Nat) :
    (regionsOf (encode i)).any (fun g => decide (rows < g.1 + g.2)) = true ↔
      ((shape i).dst :: (shape i).srcs).all (fun g => g.inRange rows) = false := by
  simp only [List.any_eq_true, decide_eq_true_eq, mem_regionsOf_encode, List.mem_map, List.all_eq_false,
    Region.inRange, not_le, exists_exists_and_eq_and]

theorem check_eq (sh : Shape) (rows : Nat) :
    sh.check rows = sh.fieldError.or (if (sh.dst :: sh.srcs).all (fun g => g.inRange rows) = false then some .address
      else none) := by
  rw [Shape.check]
  cases sh.fieldError with
  | some e => rfl
  | none => cases (sh.dst :: sh.srcs).all fun g => g.inRange rows <;> rfl

/-! ### Validate -/

/-- The code of a check's answer: 0 where it finds no error (R262). -/
def answerCode : Option CmdError → Nat
  | none => 0
  | some e => e.code.toNat

/-- On a command's own word the pseudocode gives the code of the check of its operands: the reserved bits and the unused
fields are 0. -/
theorem validateCode_encode (i : Instr) (rows : Nat) :
    validateCode rows (encode i) = answerCode ((shape i).check rows) := by
  obtain ⟨hopc, hsz, hsh, hlx, hlm, -⟩ := bitsOf_encode i
  have hreserved := (not_reservedZero_iff (encode i)).not.mp (by simp [encode, reservedZero_toWord])
  have hunused := (not_unusedZero_iff (encode i) i.opcode).not.mp
    (by simp [encode, ofWord_toWord, unusedZero_fields])
  rw [validateCode, hopc, usedFields_code]
  simp only [if_neg hreserved, if_neg hunused, hsz, hsh, hlx, hlm, any_regionsOf_encode, check_eq, fieldError_eq,
    ite_some_or, Option.none_or, apply_ite answerCode]
  rfl

/-- Settles O7: a word that reads as no command ends in the check that refuses it, and a word that reads as a command is
that command's own word, on which the pseudocode checks the operands as the model does. -/
theorem validateFollowsPseudocode : Obligations.ValidateFollowsPseudocode := by
  intro c w
  change answerCode (validate c w) = validateCode c.rows w
  rw [validate]
  cases hd : decode w with
  | error e =>
    obtain rfl | rfl := decode_error hd
    · exact (validateCode_of_illegalOpcode c.rows hd).symm
    · exact (validateCode_of_reservedField c.rows hd).symm
  | ok i =>
    obtain rfl := (decode_eq_ok_iff w i).mp hd
    exact (validateCode_encode i c.rows).symm

/-! ### What a command error leaves -/

/-- Settles O18: the command ends in the error that Validate finds, and completion changes LATCH and STATUS alone. -/
theorem commandErrorLeavesMemory : Obligations.CommandErrorLeavesMemory := by
  intro i s k e hk hvalid
  obtain ⟨rule, hrule⟩ := exec_eq_runCommand i
  rw [validate_encode] at hvalid
  rw [hrule, runCommand_of_error rule hk hvalid, validateCode_encode, hvalid, answerCode, BitVec.ofNat_toNat,
    BitVec.setWidth_eq, State.complete]

end Sys2Proof.Machine
end

section
/-! PROOFS. Scope: the turns of the two agents, and the interrupt output (spec 10_state.md R50 to R52;
60_exceptions.md R267, R271, R276). -/

namespace Sys2Proof.Machine

/-! ### Whose turn it is -/

/-- Settles O10: with BUSY = 0 the core cannot move, and with no input the host cannot. -/
theorem idleBlockDoesNothing : Obligations.IdleBlockDoesNothing := by
  intro s hb hi
  rw [step, (whoMoves_none_iff s).mpr ⟨hb, hi⟩]

/-- Where both agents can move, the turn taken is struck off (assumption log 3). -/
theorem takeTurn_of_turn {s : State} {agent : Agent} {ts : List Agent} (hb : s.busy = true) (hi : s.inputs ≠ [])
    (hts : s.turns = agent :: ts) : s.takeTurn = { s with turns := ts } := by
  rw [State.takeTurn, if_pos (by simp [hb, hi]), hts, List.tail_cons]

theorem hostStep_access {s : State} {a : Access} {rest : List Input} (hi : s.inputs = .access a :: rest) :
    hostStep s = State.hostAccess { s with inputs := rest } a := by rw [hostStep, hi]

/-- Settles O11: the turn names the agent that moves, and is struck off. -/
theorem eitherAgentMayGoFirst : Obligations.EitherAgentMayGoFirst := by
  intro s a rest ts hb hi
  have hne : s.inputs ≠ [] := by simp [hi]
  refine ⟨fun hts => ?_, fun hts => ?_⟩
  · rw [step, (whoMoves_host_iff s).mpr ⟨hne, .inr (by simp [hts])⟩]
    exact (congrArg hostStep (takeTurn_of_turn hb hne hts)).trans (hostStep_access hi)
  · rw [step, (whoMoves_core_iff s).mpr ⟨hb, .inr (by simp [hts])⟩]
    exact congrArg coreStep (takeTurn_of_turn hb hne hts)

/-! ### The interrupt output -/

theorem irq_of_done_eq_false {s : State} (h : s.done = false) : irq s = false := by rw [irq, h, Bool.and_false]

theorem irq_of_done {s : State} (h : s.done = true) : irq s = s.ie := by rw [irq, h, Bool.and_true]

/-- Both ends of a command, in a command error or normally, set DONE and keep IE (R52, R263). -/
theorem irq_coreStep {s t : State} (h : coreStep s = .next t) : irq t = s.ie := by
  obtain ⟨-, h'⟩ | ⟨_, e, -, -, h'⟩ | ⟨k, i, rule, -, -, -, -, h'⟩ := coreStep_cases s
  all_goals rw [h'] at h; cases h
  · exact irq_of_done (completeError_done s e)
  · exact irq_of_done (completeOk_done (s.execute k (shape i) rule))

/-- On an idle block a write to CTRL with GO clears DONE: GO does (R50), and so does the soft reset that SRST makes
of it (R301). -/
theorem done_writeCtrl_go {s : State} {v : Word} (hb : s.busy = false) (h0 : v.getLsbD 0 = true) :
    (s.writeCtrl v).done = false := by
  cases h2 : v.getLsbD 2 with
  | true => rw [writeCtrl_softReset s h2, softReset_done]
  | false => rw [writeCtrl_go s h2 h0, go_of_idle (s := { s with ie := v.getLsbD 1 }) hb]

/-- Settles O59: a completion sets DONE, and an acknowledge, GO and both resets clear it. -/
theorem irqFollowsDone : Obligations.IrqFollowsDone := by
  refine ⟨fun _ => rfl, fun _ _ => irq_coreStep, fun s t v h1 h => ?_, fun s t v hb h0 h => ?_,
    fun s => ⟨?_, ?_⟩⟩
  · rw [writeAt_page s v (by decide) (by decide), State.writeRegister] at h
    cases h
    exact irq_of_done_eq_false (by rw [writeStatus_done, h1, Bool.not_true, Bool.and_false])
  · rw [writeAt_ctrl] at h
    cases h
    exact irq_of_done_eq_false (done_writeCtrl_go hb h0)
  · exact irq_of_done_eq_false (softReset_done s)
  · exact irq_of_done_eq_false (powerOnReset_done s)

end Sys2Proof.Machine
end

section
/-! PROOFS. Scope: what the soft reset and the reset input change (spec 70_reset_and_hazards.md R300, R301; 10_state.md
R46, R53). -/

namespace Sys2Proof.Machine

open Sys2Proof.Claims

/-! ### The soft reset -/

theorem abandon_of_no_latch {s : State} (hk : s.latch = none) : s.abandon = s := by rw [State.abandon, hk]

/-- A latched word that fails Validate names no destination, whether it reads as no command or its operands are wrong. -/
theorem abandon_of_invalid {s : State} {k : Latch} (hk : s.latch = some k) (hvalid : validate s.cfg k.cmd ≠ none) :
    s.abandon = s := by
  rw [validate] at hvalid
  rw [State.abandon, hk]
  cases hd : decode k.cmd with
  | error e => simp only [hd]
  | ok i =>
    obtain ⟨e, hcheck⟩ := Option.ne_none_iff_exists'.mp (hd ▸ hvalid)
    simp only [hd, hcheck]

theorem abandon_of_valid {s : State} {k : Latch} {i : Instr} (hk : s.latch = some k) (hd : decode k.cmd = .ok i)
    (hvalid : validate s.cfg k.cmd = none) :
    s.abandon = { s with dm := s.dm.writeAll (regionWrites s.cfg k.mask (shape i).dst fun _ _ => none) } := by
  have hcheck : (shape i).check s.cfg.rows = none := by rwa [validate, hd] at hvalid
  rw [State.abandon, hk]
  simp only [hd, hcheck]

/-- Giving up the latched command changes DM alone. -/
theorem abandon_eq (s : State) : s.abandon = { s with dm := s.abandon.dm } := by
  rw [State.abandon]
  split
  · rfl
  · split
    · rfl
    · split <;> rfl

/-- The soft reset sets every register to its reset value, leaves DM as giving up the latched command does,
and keeps the rest. -/
theorem softReset_eq (s : State) : s.softReset = { s with
    dm := s.abandon.dm, latch := none, ie := false, busy := false, done := false, err := false, ovr := false
    errCode := 0#8, laneMask := allLanes s.cfg, cmdLo := 0#64, cmdHi := 0#64 } :=
  congrArg State.resetRegisters (abandon_eq s)

/-- Settles O57: a started command that passes Validate has its destination region written with `⊥` in the latched lanes,
and any other content of LATCH leaves DM alone. -/
theorem softResetEffect : Obligations.SoftResetEffect := by
  intro s v h2 hwf
  refine ⟨s.softReset, by rw [writeAt_ctrl, writeCtrl_softReset s h2], ?_, ?_, fun hk => ?_,
    fun k hk hvalid => ?_, fun k i hk hd hvalid => ?_⟩
  · rw [softReset_laneMask]
    exact softReset_eq s
  · rw [softReset_laneMask, allLanes_toNat]
  · rw [softReset_dm, abandon_of_no_latch hk]
  · rw [softReset_dm, abandon_of_invalid hk hvalid]
  · have hdm : s.softReset.dm = s.dm.writeAll (regionWrites s.cfg k.mask (shape i).dst fun _ _ => none) := by
      rw [softReset_dm, abandon_of_valid hk hd hvalid]
    refine ⟨fun l j ⟨hl, hbit⟩ hj => ?_, fun a ha => ?_⟩
    · rw [State.word, hdm, softReset_cfg]
      exact readWord_writeRegion hwf hj hl hbit
    · rw [hdm]
      exact getByte_writeRegion_other fun j hj l hl hbit => ha l j ⟨hl, hbit⟩ hj

/-! ### The reset input -/

/-- Before the reset takes effect, the step strikes off the turn that the host took, where the core could have moved. -/
theorem step_powerOn {s : State} {rest : List Input} (hi : s.inputs = .powerOn :: rest) (hwho : s.whoMoves = some .host) :
    step s = .next (State.powerOnReset
      { s with inputs := rest, turns := if s.busy then s.turns.tail else s.turns }) := by
  rw [step, hwho]
  simp only [hostStep, takeTurn_eq, hi, List.isEmpty_cons, Bool.not_false, Bool.and_true]

/-- The reset input leaves the power-on state of the same configuration, but for the fields of the model's own. -/
theorem powerOnReset_eq (s : State) : s.powerOnReset = { State.resetWith s.cfg with
    earlierFaults := keepFaults s.earlierFaults s.faults, inputs := s.inputs, turns := s.turns, replies := s.replies } :=
  rfl

/-- Settles O58: the step resets the state from which the input and the turn have been struck off. -/
theorem powerOnResetEffect : Obligations.PowerOnResetEffect := by
  intro s rest hi hwho
  exact ⟨_, step_powerOn hi hwho, mem_keepFaults s.earlierFaults s.faults, powerOnReset_eq _⟩

end Sys2Proof.Machine
end
